-- ==== Sys2Proof/Word.lean ====
section
/-! DEFINITION. The word types of the block: 64-bit registers and binary64 data, 73-bit host transaction words, 4-bit stage operation words, 8-bit register addresses (00_scope.md R6, R7; 30_encoding.md R90, R92). -/

namespace Sys2Proof

/-- A host-visible register is 64 bits wide (R6 `REG_BITS`, R25). -/
abbrev Word := BitVec 64

/-- A binary64 datum, as its 64-bit pattern: bit 63 sign, bits 62:52 exponent, bits 51:0 fraction (R23, R120).
No rule distinguishes one NaN from another (R121). -/
abbrev F64 := BitVec 64

/-- Format H: one host transaction, `{w, addr, data}` (R90). -/
abbrev HostWord := BitVec 73

/-- Format U: a stage operation word, also the content of the stage pointer (R92, R27). -/
abbrev StageCode := BitVec 4

/-- A register address (R6 `ADDR_BITS`). -/
abbrev RegAddr := BitVec 8

/-- The info byte of a fault (60_exceptions.md R400). -/
abbrev InfoByte := BitVec 8

end Sys2Proof
end

