-- ==== Sys2Proof/Machine/Registers.lean ====
section
/-! DEFINITION. The block's register groups as plain data: the parameter cell, the latched parameter set PS, the stage-local registers, the pipeline buffer and the fault latch's record (10_state.md). -/

namespace Sys2Proof.Machine

/-- A parameter register: a `cell u64`, `unwritten` or 64 bits (R8, R21).
`unwritten` is a state of the spec's own: ARM tests it (R401). -/
inductive ParamCell where
  | unwritten
  | written (w : Word)
deriving DecidableEq, Repr, Inhabited

/-- `PS`, the latched parameter set: 23 f64 fields and 3 nat fields (R24), in the order of R20. -/
structure ParamSet where
  envAttack : F64
  envSustain : F64
  envDecay : F64
  envPunch : F64
  baseFreq : F64
  freqLimit : F64
  freqRamp : F64
  freqDramp : F64
  vibStrength : F64
  vibSpeed : F64
  arpMod : F64
  arpSpeed : F64
  duty : F64
  dutyRamp : F64
  repeatSpeed : F64
  phaOffset : F64
  phaRamp : F64
  lpfFreq : F64
  lpfRamp : F64
  lpfResonance : F64
  hpfFreq : F64
  hpfRamp : F64
  soundVol : F64
  waveType : Nat
  sampleRate : Nat
  sampleSize : Nat
deriving DecidableEq, Repr, Inhabited

/-- FREQ's registers (R33, R161): `R` is the spec's nat or none. -/
structure FreqRegs where
  period : F64
  fslide : F64
  fdslide : F64
  maxperiod : F64
  len : Nat
  rep : Option Nat
deriving DecidableEq, Repr, Inhabited

/-- ARP's constants (R34, R180). -/
structure ArpRegs where
  artime : Int
  factor : F64
deriving DecidableEq, Repr, Inhabited

/-- VIB's registers (R34, R183). -/
structure VibRegs where
  vphase : F64
  vspeed : F64
  vamp : F64
deriving DecidableEq, Repr, Inhabited

/-- OSC's registers and the noise table of 32 entries (R35, R220, R222). -/
structure OscRegs where
  ophase : Int
  sqDuty : F64
  dslide : F64
  noise : Vector F64 32
deriving DecidableEq, Repr, Inhabited

/-- FILT's registers, the filter pair (R36, R251). -/
structure FiltRegs where
  fltp : F64
  fltdp : F64
  fltw : F64
  fltwD : F64
  fltdmp : F64
  bypass : Bool
  flthp : F64
  flthd : F64
  yOut : F64
  prevFltp : F64
deriving DecidableEq, Repr, Inhabited

/-- PHASER's registers and the circular buffer `PBUF` of `PHASER_LEN` = 1024 elements (R37, R290, R291). -/
structure PhaserRegs where
  fphase : F64
  fdphase : F64
  ipp : Nat
  pbuf : Vector F64 1024
deriving DecidableEq, Repr, Inhabited

/-- COMPRESS's accumulator (R37, R310). -/
structure CompressRegs where
  acc : F64
deriving DecidableEq, Repr, Inhabited

/-- All stage-local registers (R32 to R37): initialised by the stage that owns them, unspecified between stages. -/
structure StageLocal where
  freq : FreqRegs
  arp : ArpRegs
  vib : VibRegs
  osc : OscRegs
  filt : FiltRegs
  phaser : PhaserRegs
  compress : CompressRegs
deriving DecidableEq, Repr, Inhabited

/-- `BUF`, the pipeline buffer: its kind and its elements (R30). `int` elements are exact integers (R128). -/
inductive Buf where
  /-- Kind 0, NONE: no buffer, length 0. -/
  | none
  /-- Kind 1, TRACK: periods as f64. -/
  | track (l : List F64)
  /-- Kind 2, ITRACK: integer periods. -/
  | itrack (l : List Int)
  /-- Kind 3, SIGNAL: f64 samples. -/
  | signal (l : List F64)
  /-- Kind 4, PCM: integer samples. -/
  | pcm (l : List Int)
deriving DecidableEq, Repr, Inhabited

/-- The eleven fault causes (60_exceptions.md R400). -/
inductive Cause where
  | paramUnwritten
  | nonFiniteParam
  | badSampleRate
  | badSampleSize
  | badWaveType
  | lengthOverflow
  | badFloatToInt
  | envelopeOverrun
  | illegalCommand
  | badSequence
  | badRegisterAccess
deriving DecidableEq, Repr, Inhabited

/-- What the fault latch holds: (code, stage, info) (R29, R410). -/
structure FaultRecord where
  cause : Cause
  stage : StageCode
  info : InfoByte
deriving DecidableEq, Repr, Inhabited

end Sys2Proof.Machine
end

