-- ==== Sys2Proof/Config.lean ====
section
/-! DEFINITION. What the spec fixes once for all (the constants of 00_scope.md R6), what it leaves to a configuration (the OPEN parameters of 92_eei_decisions.md section E, one opaque constant, log 10) and the free values (opaque, logs 6 to 9). -/

namespace Sys2Proof.Config

/-- `S`, the supersample factor (R6). -/
abbrev supersample : Nat := 8

/-- `NOMINAL_RATE` (R6). -/
abbrev nominalRate : Nat := 44100

/-- `MIN_PERIOD`, the least quantized period (R6). -/
abbrev minPeriod : Int := 8

/-- `NOISE_LEN` (R6). -/
abbrev noiseLen : Nat := 32

/-- `PHASER_LEN` (R6, R291). -/
abbrev phaserLen : Nat := 1024

/-- The suggested value of the OPEN parameter `MAX_LEN` (R6, U15).
The parameter itself is a field of State, so that it is plain data and every claim holds for every value of it (log 10). -/
abbrev suggestedMaxLen : Nat := 2 ^ 24

/-- The OPEN parameters that are functions, which a model takes as arguments (R6, 92_eei_decisions.md section E, U12 to U14).
The stage functions take a `Choices`; the machine runs with `Config.choices`. -/
structure Choices where
  /-- `SIN` (R129). -/
  sin : F64 → F64
  /-- `EXP` (R129). -/
  exp : F64 → F64
  /-- `POWR` (R129). -/
  powr : F64 → F64 → F64
  /-- `DUTY_INIT` (R223). -/
  dutyInit : F64 → F64
  /-- `PHA_FPHASE0` (R292). -/
  phaFphase0 : F64 → F64
  /-- `PHA_FDPHASE` (R292). -/
  phaFdphase : F64 → F64
deriving Inhabited

/-- DESIGN CHOICE (log 10): the implementation's configuration, uninterpreted, so that every claim holds for every one. -/
opaque choices : Choices

/-- DESIGN CHOICE (log 7): the word the n-th read of an unwritten register returns (U8). -/
opaque freeWord : Nat → Word

/-- DESIGN CHOICE (log 8): the raw bits from which the NaN stored at an element of a stage's result is made (U11). -/
opaque nanBits : Nat → Nat → Word

/-- DESIGN CHOICE (log 9): the raw words from which the draws of the entropy port are made (U4, U17). -/
opaque entropyWord : Nat → Word

/-- DESIGN CHOICE (log 6): what `PS` holds where it is unspecified (U9). -/
opaque freeParamSet : Nat → Machine.ParamSet

/-- DESIGN CHOICE (log 6): what the stage-local registers hold where they are unspecified (U10). -/
opaque freeStageLocal : Nat → Machine.StageLocal

end Sys2Proof.Config
end

