-- ==== Sys2Proof/Syntax.lean ====
section
/-! DEFINITION. The instructions: one constructor per row of spec/opcode_table.json (formats H, K and U), the word a step fetches, the mapped registers and the wave shapes. -/

namespace Sys2Proof

/-- The instructions of the block, one constructor per row of spec/opcode_table.json. -/
inductive Instr where
  /-- RD: a format H read of register `addr`; its data bits are ignored (30_encoding.md R90, R91). -/
  | rd (addr : RegAddr)
  /-- WR: a format H write of `data` to register `addr` (R91). -/
  | wr (addr : RegAddr) (data : Word)
  /-- NOP: command 0x00 (R93). -/
  | nop
  /-- RESET: command 0x01 (R93). -/
  | reset
  /-- LOADDEF: command 0x02 (R93). -/
  | loaddef
  /-- ARM: command 0x03 (R93). -/
  | arm
  /-- STEP: command 0x04 (R93). -/
  | step
  /-- RUN: command 0x05 (R93). -/
  | run
  /-- FREQ: stage operation 0x1 (R92). -/
  | freq
  /-- ARP: stage operation 0x2 (R92). -/
  | arp
  /-- VIB: stage operation 0x3 (R92). -/
  | vib
  /-- QUANT: stage operation 0x4 (R92). -/
  | quant
  /-- SUPER: stage operation 0x5 (R92). -/
  | super
  /-- OSC: stage operation 0x6 (R92). -/
  | osc
  /-- FILT: stage operation 0x7 (R92). -/
  | filt
  /-- PHASER: stage operation 0x8 (R92). -/
  | phaser
  /-- COMPRESS: stage operation 0x9 (R92). -/
  | compress
  /-- ENV: stage operation 0xA (R92). -/
  | env
  /-- DIGIT: stage operation 0xB (R92). -/
  | digit
deriving DecidableEq, Repr

/-- What the decoder reads: a host transaction (formats H and K) or a word of the hardwired program (format U). -/
inductive FetchWord where
  /-- A 73-bit host transaction (R90). -/
  | host (w : HostWord)
  /-- A 4-bit stage operation word (R92). -/
  | stage (u : StageCode)
deriving DecidableEq, Repr

/-- Why a word is no instruction. -/
inductive DecodeError where
  /-- A stage code that is not an operation: 0x0 and 0xC to 0xF (R92, R98). -/
  | notAnOperation (u : StageCode)
  /-- A number of bits that is neither format H's nor format U's (R99). -/
  | noSuchWidth (nbits : Nat)
  /-- A number with bits above the 73 (or the 4) bits of its format. -/
  | bitsAboveFormat (w : Nat)
deriving DecidableEq, Repr

/-- The registers of the host's address space (10_state.md R20, R25). -/
inductive HostReg where
  /-- A parameter register, 0x00 to 0x19. -/
  | param (i : Fin 26)
  /-- `CMD`, 0x20, write only (a read returns 0). -/
  | cmd
  /-- `STATUS`, 0x21, read only. -/
  | status
  /-- `CAUSE`, 0x22, read only. -/
  | cause
  /-- `STAGE`, 0x23, read only. -/
  | stage
  /-- `BUFLEN`, 0x24, read only. -/
  | buflen
  /-- `BUFKIND`, 0x25, read only. -/
  | bufkind
  /-- `BUFIDX`, 0x26, read and write. -/
  | bufidx
  /-- `BUFDATA`, 0x27, read only. -/
  | bufdata
  /-- 0x1A to 0x1F and 0x28 to 0xFF. -/
  | unmapped
deriving DecidableEq, Repr

/-- The six wave shapes, in the order of their codes (30_encoding.md R96). -/
inductive WaveShape where
  | square
  | sawtooth
  | sine
  | noise
  | triangle
  | breaker
deriving DecidableEq, Repr

end Sys2Proof
end

