-- ==== Sys2Proof/WellFormed.lean ====
section
/-! DEFINITION. Which terms of Instr are instructions: a WR whose word is a command of format K is not a WR (the K rows of the opcode table take precedence, 30_encoding.md R101). -/

namespace Sys2Proof

/-- `data` written to `CMD` is one of the six commands: `data[63:8] = 0` and `data[7:0] <= 0x05` (R93, R101). -/
def isCommandData (data : Word) : Bool := decide (data.toNat ≤ 5)

/-- The check on terms: only a WR can be ill-formed, where its word is a command's (R101). -/
def Instr.wellFormed : Instr → Bool
  | .wr addr data => !(addr == 0x20#8 && isCommandData data)
  | .rd _ => true
  | .nop => true
  | .reset => true
  | .loaddef => true
  | .arm => true
  | .step => true
  | .run => true
  | .freq => true
  | .arp => true
  | .vib => true
  | .quant => true
  | .super => true
  | .osc => true
  | .filt => true
  | .phaser => true
  | .compress => true
  | .env => true
  | .digit => true

end Sys2Proof
end

