-- ==== Sys2Proof/Decode.lean ====
section
/-! DEFINITION. The decoder, total on every word and rejecting by name, and after it the encoder, both written from the formats of 30_encoding.md (R90, R92, R93, R101). -/

namespace Sys2Proof

/-- Bit 72 of a transaction: 1 write, 0 read (R90). -/
def hostW (t : HostWord) : Bool := t.getLsbD 72

/-- Bits 71:64 of a transaction, the register address (R90). -/
def hostAddr (t : HostWord) : RegAddr := t.extractLsb' 64 8

/-- Bits 63:0 of a transaction, the write data (R90). -/
def hostData (t : HostWord) : Word := t.extractLsb' 0 64

/-- The command a WR to `CMD` with `data` is, by opcode; an illegal command stays the WR it is (R93, R101). -/
def decodeCommand (data : Word) : Instr :=
  match data.toNat with
  | 0 => .nop
  | 1 => .reset
  | 2 => .loaddef
  | 3 => .arm
  | 4 => .step
  | 5 => .run
  | _ => .wr 0x20#8 data

/-- Formats H and K: every 73-bit word is a transaction (R101). -/
def decodeHost (t : HostWord) : Instr :=
  if hostW t then
    if hostAddr t = 0x20#8 then decodeCommand (hostData t) else .wr (hostAddr t) (hostData t)
  else .rd (hostAddr t)

/-- Format U: the eleven stage operations; the other five codes are not operations (R92). -/
def decodeStage (u : StageCode) : Except DecodeError Instr :=
  match u.toNat with
  | 1 => .ok .freq
  | 2 => .ok .arp
  | 3 => .ok .vib
  | 4 => .ok .quant
  | 5 => .ok .super
  | 6 => .ok .osc
  | 7 => .ok .filt
  | 8 => .ok .phaser
  | 9 => .ok .compress
  | 10 => .ok .env
  | 11 => .ok .digit
  | _ => .error (.notAnOperation u)

/-- The decoder of the block. -/
def decode : FetchWord → Except DecodeError Instr
  | .host t => .ok (decodeHost t)
  | .stage u => decodeStage u

/-- The word that a number of `nbits` bits stands for.
Format U's word is 4 bits (one byte when counted in whole bytes) and format H's is 73 bits (ten bytes). -/
def fetchWordOf (nbits w : Nat) : Except DecodeError FetchWord :=
  if nbits = 4 ∨ nbits = 8 then
    if w < 2 ^ 4 then .ok (.stage (BitVec.ofNat 4 w)) else .error (.bitsAboveFormat w)
  else if 73 ≤ nbits ∧ nbits ≤ 80 then
    if w < 2 ^ 73 then .ok (.host (BitVec.ofNat 73 w)) else .error (.bitsAboveFormat w)
  else .error (.noSuchWidth nbits)

/-- The decoder on numbers, rejecting by name. -/
def decodeNumber (nbits w : Nat) : Except DecodeError Instr :=
  match fetchWordOf nbits w with
  | .ok f => decode f
  | .error e => .error e

/-- The instruction the decoder reads from an opcode table word of `nbits` bits, none where it refuses. -/
def decodeTableWord (nbits w : Nat) : Option Instr :=
  match decodeNumber nbits w with
  | .ok i => some i
  | .error _ => none

/-- Assemble a transaction from its fields (R90). -/
def hostWord (w : Bool) (addr : RegAddr) (data : Word) : HostWord :=
  BitVec.ofBool w ++ addr ++ data

/-- The transaction that is the command with opcode `op` (R93). -/
def commandWord (op : BitVec 8) : HostWord := hostWord true 0x20#8 (op.setWidth 64)

/-- The encoder: the word of an instruction, from the same formats.
The ignored data bits of a RD are written 0. -/
def encode : Instr → FetchWord
  | .rd addr => .host (hostWord false addr 0)
  | .wr addr data => .host (hostWord true addr data)
  | .nop => .host (commandWord 0x00)
  | .reset => .host (commandWord 0x01)
  | .loaddef => .host (commandWord 0x02)
  | .arm => .host (commandWord 0x03)
  | .step => .host (commandWord 0x04)
  | .run => .host (commandWord 0x05)
  | .freq => .stage 0x1
  | .arp => .stage 0x2
  | .vib => .stage 0x3
  | .quant => .stage 0x4
  | .super => .stage 0x5
  | .osc => .stage 0x6
  | .filt => .stage 0x7
  | .phaser => .stage 0x8
  | .compress => .stage 0x9
  | .env => .stage 0xA
  | .digit => .stage 0xB

end Sys2Proof
end

