-- ==== Sys2Proof/Machine/State.lean ====
section
/-! DEFINITION. The machine's state as plain data, the reasons a step can stop, and the state after power-on reset (10_state.md). -/

namespace Sys2Proof.Machine

/-- What can happen at the block's edge between transactions. -/
inductive HostInput where
  /-- The host issues a transaction (R90, R350). -/
  | transaction (w : HostWord)
  /-- Power-on reset, an event outside the host port (R450). -/
  | powerOn
deriving DecidableEq, Repr

/-- The state of the block, and of the port it is driven by. -/
structure State where
  /-- `P[0x00]` to `P[0x19]` (R20, R21). -/
  p : Vector ParamCell 26
  /-- `PS`, the latched parameter set (R24). -/
  ps : ParamSet
  /-- `SP`, the stage pointer (R27). -/
  sp : StageCode
  /-- `FLT`, the fault latch: the spec's own none, or a triple (R29). -/
  flt : Option FaultRecord
  /-- `BUF`, the pipeline buffer (R30). -/
  buf : Buf
  /-- `BUFIDX` (R25). -/
  bufIdx : Word
  /-- The stage-local registers (R32 to R37). -/
  loc : StageLocal
  /-- The position of the entropy source (R38, R39). -/
  entropyPos : Nat
  /-- The model's own: `MAX_LEN`, the OPEN capacity of `BUF` in elements, a constant of the implementation (R6, U15, log 10). -/
  maxLen : Nat
  /-- The model's own: the inputs waiting at the port, the next first (log 1). -/
  pending : List HostInput
  /-- The model's own: the word the last read returned, none before the first (log 2). -/
  answer : Option Word
  /-- The model's own: where the free words of unwritten registers are taken (log 7). -/
  freeReads : Nat
  /-- The model's own: where the free NaN patterns and the contents of dead registers are taken (logs 6 and 8). -/
  freeRuns : Nat
deriving DecidableEq, Repr

/-- Why the MODEL stops; a fault of the spec is a next state with `flt` set (R410), never one of these. -/
inductive Fault where
  /-- STEP where `SP` holds 13, 14 or 15, which R27 says is never held and for which no operation exists.
  Raised by STEP through `execStage`; safe: no state a run reaches raises it (log 12). -/
  | noSuchStage (sp : StageCode)
deriving DecidableEq, Repr

/-- Why the model has no meaning for an instruction. -/
inductive Refusal where
  /-- An instruction whose arm in `exec` is still rejected by name; no arm is. Safe. -/
  | notModelled (mnemonic : String)
deriving DecidableEq, Repr

/-- `PS` at power-on: unspecified by R40; DESIGN CHOICE all zero (log 4). -/
def ParamSet.zero : ParamSet where
  envAttack := 0
  envSustain := 0
  envDecay := 0
  envPunch := 0
  baseFreq := 0
  freqLimit := 0
  freqRamp := 0
  freqDramp := 0
  vibStrength := 0
  vibSpeed := 0
  arpMod := 0
  arpSpeed := 0
  duty := 0
  dutyRamp := 0
  repeatSpeed := 0
  phaOffset := 0
  phaRamp := 0
  lpfFreq := 0
  lpfRamp := 0
  lpfResonance := 0
  hpfFreq := 0
  hpfRamp := 0
  soundVol := 0
  waveType := 0
  sampleRate := 0
  sampleSize := 0

/-- The stage-local registers at power-on: unspecified by R40, immaterial by R452; DESIGN CHOICE all zero (log 5). -/
def StageLocal.zero : StageLocal where
  freq := { period := 0, fslide := 0, fdslide := 0, maxperiod := 0, len := 0, rep := Option.none }
  arp := { artime := 0, factor := 0 }
  vib := { vphase := 0, vspeed := 0, vamp := 0 }
  osc := { ophase := 0, sqDuty := 0, dslide := 0, noise := Vector.replicate 32 0 }
  filt :=
    { fltp := 0, fltdp := 0, fltw := 0, fltwD := 0, fltdmp := 0, bypass := false,
      flthp := 0, flthd := 0, yOut := 0, prevFltp := 0 }
  phaser := { fphase := 0, fdphase := 0, ipp := 0, pbuf := Vector.replicate 1024 0 }
  compress := { acc := 0 }

/-- The state after power-on reset (R40): the parameter registers unwritten, `SP` 0, `FLT` none, no buffer, `BUFIDX` 0.
The spec gives no value for the rest; the logs name them. -/
def State.reset : State where
  p := Vector.replicate 26 .unwritten
  ps := ParamSet.zero
  sp := 0
  flt := Option.none
  buf := .none
  bufIdx := 0
  loc := StageLocal.zero
  entropyPos := 0
  maxLen := Config.suggestedMaxLen
  pending := []
  answer := Option.none
  freeReads := 0
  freeRuns := 0

end Sys2Proof.Machine
end

