-- ==== Sys2Proof/Machine/Float.lean ====
section
/-! DEFINITION. Binary64 arithmetic on 64-bit patterns (40_numerics.md R120 to R128): every finite datum is an exact integer multiple of 2^-1074, so each operation computes the exact result and rounds it once.
The operations are irreducible for the elaborator (a proof rewrites with their laws, a closed term is evaluated by the kernel). -/

namespace Sys2Proof.Machine

/-- Bits 62:52, the exponent field (R23). -/
def expField (x : F64) : Nat := x.toNat / 2 ^ 52 % 2 ^ 11

/-- Bits 51:0, the fraction field (R23). -/
def fracField (x : F64) : Nat := x.toNat % 2 ^ 52

/-- Bit 63, the sign (R23). -/
def signBit (x : F64) : Bool := x.msb

/-- A NaN: exponent field all ones, fraction not zero (R120). -/
def isNaN (x : F64) : Bool := expField x == 2047 && fracField x != 0

/-- An infinity: exponent field all ones, fraction zero (R120). -/
def isInf (x : F64) : Bool := expField x == 2047 && fracField x == 0

/-- A finite number: exponent field not all ones (R120, R403). -/
def isFinite (x : F64) : Bool := expField x != 2047

/-- The magnitude of a finite datum in units of 2^-1074 (subnormals and zero have exponent field 0). -/
def magnitude (x : F64) : Nat :=
  if expField x = 0 then fracField x else 2 ^ (expField x - 1) * (2 ^ 52 + fracField x)

/-- The value of a finite datum in units of 2^-1074. -/
def scaled (x : F64) : Int := if signBit x then -(magnitude x : Int) else (magnitude x : Int)

/-- One, in units of 2^-1074. -/
def unitScale : Nat := 2 ^ 1074

/-- The sign-less pattern of the binary64 nearest to `num / den` units of 2^-1074, ties to even, overflow to infinity (R121).
`k` is the number of low bits that do not fit the 53 bits of a significand. -/
@[irreducible] def roundPattern (num den : Nat) : Nat :=
  let k := Nat.log2 (num / den) - 52
  let d := 2 ^ k * den
  let q := num / d
  let r := num % d
  let m := if d < 2 * r ∨ (2 * r = d ∧ q % 2 = 1) then q + 1 else q
  min (2 ^ 52 * k + m) (2047 * 2 ^ 52)

/-- A sign and a sign-less pattern as a datum. -/
def withSign (neg : Bool) (pattern : Nat) : F64 := BitVec.ofNat 64 (if neg then 2 ^ 63 + pattern else pattern)

/-- The datum nearest to `± num / den` units of 2^-1074. -/
def roundTo (neg : Bool) (num den : Nat) : F64 := withSign neg (roundPattern num den)

/-- The NaN inside a stage: which NaN an operation gives is unspecified and no rule tells one from another (R121).
Every NaN that becomes part of the state is replaced by a free pattern when it is stored (log 8). -/
def internalNaN : F64 := 0x7FF8000000000000

/-- `+Inf` or `-Inf`. -/
def infinity (neg : Bool) : F64 := withSign neg (2047 * 2 ^ 52)

/-- `+0` or `-0`. -/
def zero (neg : Bool) : F64 := withSign neg 0

/-- Negation: the sign bit flipped. -/
def fneg (x : F64) : F64 := x ^^^ 0x8000000000000000

/-- `|x|`: the sign bit cleared, a NaN stays a NaN (R126). -/
def fabs (x : F64) : F64 := x &&& 0x7FFFFFFFFFFFFFFF

/-- `a +. b` (R121). An exact sum of zero is `+0` unless both operands are `-0`. -/
@[irreducible] def fadd (x y : F64) : F64 :=
  if isNaN x || isNaN y then internalNaN
  else if isInf x then (if isInf y && signBit x != signBit y then internalNaN else x)
  else if isInf y then y
  else if scaled x + scaled y = 0 then zero (signBit x && signBit y)
  else roundTo (decide (scaled x + scaled y < 0)) (scaled x + scaled y).natAbs 1

/-- `a -. b` (R121): the sum with the negated operand. -/
def fsub (x y : F64) : F64 := fadd x (fneg y)

/-- `a *. b` (R121). -/
@[irreducible] def fmul (x y : F64) : F64 :=
  if isNaN x || isNaN y then internalNaN
  else if isInf x || isInf y then
    (if (isFinite x && magnitude x == 0) || (isFinite y && magnitude y == 0) then internalNaN
     else infinity (signBit x != signBit y))
  else roundTo (signBit x != signBit y) (magnitude x * magnitude y) unitScale

/-- `a /. b` (R121): `Inf /. Inf` and `0 /. 0` are invalid, a finite non-zero value over a zero is an infinity. -/
@[irreducible] def fdiv (x y : F64) : F64 :=
  if isNaN x || isNaN y then internalNaN
  else if isInf x then (if isInf y then internalNaN else infinity (signBit x != signBit y))
  else if isInf y then zero (signBit x != signBit y)
  else if magnitude y = 0 then
    (if magnitude x = 0 then internalNaN else infinity (signBit x != signBit y))
  else roundTo (signBit x != signBit y) (unitScale * magnitude x) (magnitude y)

/-- The order of the data that are no NaN, as integers: both zeros are 0 (R127). -/
def orderKey (x : F64) : Int :=
  if signBit x then -((x.toNat % 2 ^ 63 : Nat) : Int) else ((x.toNat % 2 ^ 63 : Nat) : Int)

/-- `a < b` (R127): false with a NaN. -/
def flt (x y : F64) : Bool := !isNaN x && !isNaN y && decide (orderKey x < orderKey y)

/-- `a > b` (R127). -/
def fgt (x y : F64) : Bool := flt y x

/-- `a <= b` (R127): false with a NaN. -/
def fle (x y : F64) : Bool := !isNaN x && !isNaN y && decide (orderKey x ≤ orderKey y)

/-- `a >= b` (R127). -/
def fge (x y : F64) : Bool := fle y x

/-- `a = b` (R127): `+0 = -0`, false with a NaN. -/
def feq (x y : F64) : Bool := !isNaN x && !isNaN y && decide (orderKey x = orderKey y)

/-- `a != b` (R127): true with a NaN. -/
def fne (x y : F64) : Bool := !feq x y

/-- `sq(x) = x *. x` (R123). -/
def sq (x : F64) : F64 := fmul x x

/-- `cube(x) = (x *. x) *. x` (R123). -/
def cube (x : F64) : F64 := fmul (fmul x x) x

/-- `clamp(x, lo, hi)` (R126): a NaN is returned unchanged. -/
def clamp (x lo hi : F64) : F64 := if flt x lo then lo else if fgt x hi then hi else x

/-- The result fits `int`: -2^63 <= r < 2^63 (R124). -/
def fitsInt (r : Int) : Bool := decide (-(2 ^ 63 : Int) ≤ r) && decide (r < (2 ^ 63 : Int))

/-- `floorI(x)`, none where it raises BadFloatToInt (R124). -/
def floorI (x : F64) : Option Int :=
  if isFinite x && fitsInt (scaled x / (unitScale : Int)) then some (scaled x / (unitScale : Int)) else none

/-- `truncI(x)`, toward zero, none where it raises BadFloatToInt (R124). -/
def truncI (x : F64) : Option Int :=
  if isFinite x && fitsInt ((scaled x).tdiv (unitScale : Int)) then some ((scaled x).tdiv (unitScale : Int)) else none

/-- `toF(i)` (R125): the binary64 nearest to `i`, ties to even. -/
@[irreducible] def toF (i : Int) : F64 := roundTo (decide (i < 0)) (unitScale * i.natAbs) 1

/-! The decimal literals of the rules, as the patterns of R122. -/

/-- 0.0 -/
def lit0 : F64 := 0x0000000000000000
/-- 1.0 -/
def lit1 : F64 := 0x3FF0000000000000
/-- -1.0 (R95) -/
def litNeg1 : F64 := 0xBFF0000000000000
/-- 2.0 -/
def lit2 : F64 := 0x4000000000000000
/-- 5.0 -/
def lit5 : F64 := 0x4014000000000000
/-- 10.0 -/
def lit10 : F64 := 0x4024000000000000
/-- 20.0 -/
def lit20 : F64 := 0x4034000000000000
/-- 32.0 -/
def lit32 : F64 := 0x4040000000000000
/-- 100.0 -/
def lit100 : F64 := 0x4059000000000000
/-- 128.0 -/
def lit128 : F64 := 0x4060000000000000
/-- 1020.0 -/
def lit1020 : F64 := 0x408FE00000000000
/-- 20000.0 -/
def lit20000 : F64 := 0x40D3880000000000
/-- 32768.0 -/
def lit32768 : F64 := 0x40E0000000000000
/-- 44100.0 -/
def lit44100 : F64 := 0x40E5888000000000
/-- 100000.0 -/
def lit100000 : F64 := 0x40F86A0000000000
/-- 0.5 -/
def litHalf : F64 := 0x3FE0000000000000
/-- -0.5 -/
def litNegHalf : F64 := 0xBFE0000000000000
/-- 0.9 -/
def lit0_9 : F64 := 0x3FECCCCCCCCCCCCD
/-- 0.8 -/
def lit0_8 : F64 := 0x3FE999999999999A
/-- 0.1 -/
def lit0_1 : F64 := 0x3FB999999999999A
/-- 0.01 -/
def lit0_01 : F64 := 0x3F847AE147AE147B
/-- 0.001 -/
def lit0_001 : F64 := 0x3F50624DD2F1A9FC
/-- 0.0003 -/
def lit0_0003 : F64 := 0x3F33A92A30553261
/-- 0.0001 -/
def lit0_0001 : F64 := 0x3F1A36E2EB1C432D
/-- 0.00005 -/
def lit0_00005 : F64 := 0x3F0A36E2EB1C432D
/-- 1e-5 -/
def lit1em5 : F64 := 0x3EE4F8B588E368F1
/-- 1e-6 -/
def lit1em6 : F64 := 0x3EB0C6F7A0B5ED8D
/-- `PI`, the binary64 nearest to pi. -/
def litPI : F64 := 0x400921FB54442D18

end Sys2Proof.Machine
end

