-- ==== Sys2Proof/Machine/Flags.lean ====
section
/-! DEFINITION. The status flags and the read-only views of `SP`, `FLT` and `BUF` (10_state.md R25, R26, R30; 60_exceptions.md R400, R410). There are no arithmetic flags (R26). -/

namespace Sys2Proof.Machine

/-- `ARMED` = (1 <= SP <= 11 and FLT = none) (R26). -/
def flagArmed (s : State) : Bool := decide (1 ≤ s.sp.toNat) && decide (s.sp.toNat ≤ 11) && s.flt.isNone

/-- `DONE` = (SP = 12 and FLT = none) (R26). -/
def flagDone (s : State) : Bool := decide (s.sp.toNat = 12) && s.flt.isNone

/-- `FAULT` = (FLT != none) (R26). -/
def flagFault (s : State) : Bool := s.flt.isSome

/-- `STATUS`: bit 0 ARMED, bit 1 DONE, bit 2 FAULT, bits 63:3 zero (R25). -/
def statusWord (s : State) : Word :=
  BitVec.ofNat 64 ((flagArmed s).toNat + 2 * (flagDone s).toNat + 4 * (flagFault s).toNat)

/-- The code of a fault cause (R400). -/
def causeCode : Cause → BitVec 8
  | .paramUnwritten => 1
  | .nonFiniteParam => 2
  | .badSampleRate => 3
  | .badSampleSize => 4
  | .badWaveType => 5
  | .lengthOverflow => 6
  | .badFloatToInt => 7
  | .envelopeOverrun => 10
  | .illegalCommand => 11
  | .badSequence => 12
  | .badRegisterAccess => 13

/-- `CAUSE`: code in bits 7:0, the SP of the fault in 15:8, info in 23:16, zero where there is no fault (R25, R410). -/
def causeWord (s : State) : Word :=
  match s.flt with
  | none => 0
  | some f => (f.info ++ f.stage.setWidth 8 ++ causeCode f.cause).setWidth 64

/-- `STAGE`: the stage pointer in bits 3:0 (R25). -/
def stageWord (s : State) : Word := s.sp.setWidth 64

/-- `BUF.len` (R30). -/
def bufLen : Buf → Nat
  | .none => 0
  | .track l => l.length
  | .itrack l => l.length
  | .signal l => l.length
  | .pcm l => l.length

/-- `BUF.kind` as its code (R30). -/
def bufKindCode : Buf → BitVec 3
  | .none => 0
  | .track _ => 1
  | .itrack _ => 2
  | .signal _ => 3
  | .pcm _ => 4

/-- `BUFLEN` (R25). -/
def bufLenWord (s : State) : Word := BitVec.ofNat 64 (bufLen s.buf)

/-- `BUFKIND`: the kind code in bits 2:0 (R25). -/
def bufKindWord (s : State) : Word := (bufKindCode s.buf).setWidth 64

end Sys2Proof.Machine
end

