-- ==== Sys2Proof/Machine/Operands.lean ====
section
/-! DEFINITION. The operand forms: which register an address names, the parameter cells, the elements a stage reads from `BUF`, and the buffer read window (10_state.md R20, R25; 20_memory.md R61, R65). -/

namespace Sys2Proof.Machine

/-- The register at an address (R20, R25). -/
def hostReg (a : RegAddr) : HostReg :=
  if h : a.toNat < 26 then .param ⟨a.toNat, h⟩
  else
    match a.toNat with
    | 0x20 => .cmd
    | 0x21 => .status
    | 0x22 => .cause
    | 0x23 => .stage
    | 0x24 => .buflen
    | 0x25 => .bufkind
    | 0x26 => .bufidx
    | 0x27 => .bufdata
    | _ => .unmapped

/-- The parameter register at address `a` (R20); outside the 26 there is none, and the cell reads as unwritten. -/
def cellAt (p : Vector ParamCell 26) (a : Nat) : ParamCell := if h : a < 26 then p[a] else .unwritten

/-- A cell holds no value (R21). -/
def cellUnwritten : ParamCell → Bool
  | .unwritten => true
  | .written _ => false

/-- The 64 bits of a cell; the rules use them only after the check that the cell is written (R401). -/
def cellWord : ParamCell → Word
  | .unwritten => 0
  | .written w => w

/-- `P[a] <- w` at a parameter address: the register becomes written (R91). -/
def writeParam (p : Vector ParamCell 26) (i : Fin 26) (w : Word) : Vector ParamCell 26 := p.set i (.written w)

/-- The f64 elements of the buffer.
A stage that needs f64 elements finds a buffer of such a kind in every run (R31); in any other state it finds no elements (log 11). -/
def realElems : Buf → List F64
  | .track l => l
  | .signal l => l
  | .none => []
  | .itrack _ => []
  | .pcm _ => []

/-- The int elements of the buffer, as `realElems`. -/
def intElems : Buf → List Int
  | .itrack l => l
  | .pcm l => l
  | .none => []
  | .track _ => []
  | .signal _ => []

/-- A PCM element as the host sees it: `zext_8` when the sample size is 8, `sext_16` when it is 16 (R65). -/
def pcmWord (sampleSize : Nat) (v : Int) : Word :=
  if sampleSize = 8 then (BitVec.ofInt 8 v).setWidth 64 else (BitVec.ofInt 16 v).signExtend 64

/-- `BUF[i]` encoded in 64 bits, none where there is no buffer or `i` is not below its length (R65). -/
def bufWindow (buf : Buf) (sampleSize i : Nat) : Option Word :=
  match buf with
  | .none => none
  | .track l => l[i]?
  | .signal l => l[i]?
  | .itrack l => (l[i]?).map (BitVec.ofInt 64)
  | .pcm l => (l[i]?).map (pcmWord sampleSize)

/-- The wave shape of a code, none for an unrecognised one (30_encoding.md R96, R98). -/
def waveShape (code : Nat) : Option WaveShape :=
  match code with
  | 0 => some .square
  | 1 => some .sawtooth
  | 2 => some .sine
  | 3 => some .noise
  | 4 => some .triangle
  | 5 => some .breaker
  | _ => none

end Sys2Proof.Machine
end

