-- ==== Sys2Proof/Machine/Ops.lean ====
section
/-! DEFINITION. The shared operations: taking a fault and leaving the fault state, committing a stage's result, free values, entropy draws, the ARM checks and latch, the default parameters (49_host_commands.md, 60_exceptions.md). -/

namespace Sys2Proof.Machine

/-! Taking a fault and returning from one. -/

/-- What a stage's rule raises: the cause and the info byte (R410). -/
abbrev StageFault := Cause × InfoByte

/-- Fault entry: `FLT <- (code, SP, info)` and nothing else changes (R410). -/
def raiseFault (s : State) (c : Cause) (info : InfoByte) : State :=
  { s with flt := some { cause := c, stage := s.sp, info := info } }

/-- The RESET command, the return from the fault state (R352, R412): `P` is kept.
`PS` and the stage-local registers become unspecified (R40): free values (log 6). -/
def resetBlock (s : State) : State :=
  { s with
    sp := 0
    flt := none
    buf := .none
    bufIdx := 0
    ps := Config.freeParamSet s.freeRuns
    loc := Config.freeStageLocal s.freeRuns
    freeRuns := s.freeRuns + 1 }

/-- Power-on reset (R40, R450): as RESET, and every parameter register becomes unwritten.
What is outside the block (the entropy source, the inputs still waiting) is untouched; the port holds no answer (log 3). -/
def powerOnReset (s : State) : State :=
  { resetBlock s with p := Vector.replicate 26 .unwritten, answer := none }

/-! Conversions that can raise, in the form the stages use. -/

/-- `floorI` as a rule uses it: BadFloatToInt(0) where it is not defined (R124, R406). -/
def floorOrRaise (x : F64) : Except StageFault Int :=
  match floorI x with
  | some i => .ok i
  | none => .error (.badFloatToInt, 0)

/-- `truncI` as a rule uses it (R124, R406). -/
def truncOrRaise (x : F64) : Except StageFault Int :=
  match truncI x with
  | some i => .ok i
  | none => .error (.badFloatToInt, 0)

/-- `phaseLen(rate, p)` (R161, R320), evaluated left to right as written. -/
def phaseLen (rate : Nat) (p : F64) : Except StageFault Int :=
  floorOrRaise (fmul (fdiv (fmul (toF rate) lit100000) lit44100) (sq p))

/-! Free values. -/

/-- A NaN with a free sign and payload (U11): the exponent field all ones, the fraction not zero. -/
def nanOfBits (w : Word) : F64 :=
  if (w &&& 0x000FFFFFFFFFFFFF) = 0 then (w ||| 0x7FF0000000000000) ||| 1 else w ||| 0x7FF0000000000000

/-- The NaN pattern for element `u` of the stage that `s` is about to run (log 8). -/
def freeNaN (s : State) (u : Nat) : F64 := nanOfBits (Config.nanBits s.freeRuns u)

/-- Store computed elements, from index `u` on: a NaN takes a free pattern, every other datum is stored as it is (log 8). -/
def storeFrom (nan : Nat → F64) : Nat → List F64 → List F64
  | _, [] => []
  | u, x :: xs => (if isNaN x then nan u else x) :: storeFrom nan (u + 1) xs

/-- The range of a draw: `NOISE_LO <= v < NOISE_HI`, -1.0 inclusive to 1.0 exclusive (R38). -/
def inDrawRange (v : F64) : Bool := fle litNeg1 v && flt v lit1

/-- `draw()` at position `n` of the entropy port: any f64 in the range (R38, log 9). -/
def drawAt (n : Nat) : F64 := if inDrawRange (Config.entropyWord n) then Config.entropyWord n else lit0

/-! Committing a stage. -/

/-- The stage-local registers are dead when a stage operation ends, however it ends (R32, U10): free values (log 6). -/
def retireStage (s : State) : State :=
  { s with loc := Config.freeStageLocal s.freeRuns, freeRuns := s.freeRuns + 1 }

/-- The end of a stage operation: `BUF <- ...` and `SP <- next` together, or the fault and neither (R358, R410). -/
def finishStage (s : State) (next : StageCode) (r : Except StageFault Buf) : State :=
  match r with
  | .ok b => retireStage { s with buf := b, sp := next }
  | .error (c, info) => retireStage (raiseFault s c info)

/-! The ARM checks and the latch. -/

/-- The ARM checks in their order (R401): the first that fails gives its fault.
The lowest failing address is the info of the first two. -/
def armCheck (p : Vector ParamCell 26) : Except StageFault Unit :=
  match (List.range 26).find? (fun a => cellUnwritten (cellAt p a)) with
  | some a => .error (.paramUnwritten, BitVec.ofNat 8 a)
  | none =>
    match (List.range 23).find? (fun a => !isFinite (cellWord (cellAt p a))) with
    | some a => .error (.nonFiniteParam, BitVec.ofNat 8 a)
    | none =>
      if (cellWord (cellAt p 0x18)).toNat = 0 ∨ 44100 < (cellWord (cellAt p 0x18)).toNat then
        .error (.badSampleRate, 0x18)
      else if (cellWord (cellAt p 0x19)).toNat ≠ 8 ∧ (cellWord (cellAt p 0x19)).toNat ≠ 16 then
        .error (.badSampleSize, 0x19)
      else .ok ()

/-- `PS.f <- P[addr(f)]` for every field (R354): 0x00 to 0x16 as f64, 0x17 to 0x19 as nat. -/
def latch (p : Vector ParamCell 26) : ParamSet where
  envAttack := cellWord (cellAt p 0x00)
  envSustain := cellWord (cellAt p 0x01)
  envDecay := cellWord (cellAt p 0x02)
  envPunch := cellWord (cellAt p 0x03)
  baseFreq := cellWord (cellAt p 0x04)
  freqLimit := cellWord (cellAt p 0x05)
  freqRamp := cellWord (cellAt p 0x06)
  freqDramp := cellWord (cellAt p 0x07)
  vibStrength := cellWord (cellAt p 0x08)
  vibSpeed := cellWord (cellAt p 0x09)
  arpMod := cellWord (cellAt p 0x0A)
  arpSpeed := cellWord (cellAt p 0x0B)
  duty := cellWord (cellAt p 0x0C)
  dutyRamp := cellWord (cellAt p 0x0D)
  repeatSpeed := cellWord (cellAt p 0x0E)
  phaOffset := cellWord (cellAt p 0x0F)
  phaRamp := cellWord (cellAt p 0x10)
  lpfFreq := cellWord (cellAt p 0x11)
  lpfRamp := cellWord (cellAt p 0x12)
  lpfResonance := cellWord (cellAt p 0x13)
  hpfFreq := cellWord (cellAt p 0x14)
  hpfRamp := cellWord (cellAt p 0x15)
  soundVol := cellWord (cellAt p 0x16)
  waveType := (cellWord (cellAt p 0x17)).toNat
  sampleRate := (cellWord (cellAt p 0x18)).toNat
  sampleSize := (cellWord (cellAt p 0x19)).toNat

/-- The ARM command when `FLT = none` (R354): the checks, then the latch, an empty buffer and `SP <- 1`. -/
def armBlock (s : State) : State :=
  match armCheck s.p with
  | .error (c, info) => raiseFault s c info
  | .ok () => { s with ps := latch s.p, buf := .none, sp := 1 }

/-! The default parameters. -/

/-- The rows of LOADDEF's table: address and pattern (R353). -/
def defaultRows : List (Fin 26 × Word) :=
  [(0x00, 0x0000000000000000), (0x01, 0x3FD3333333333333), (0x02, 0x3FD999999999999A), (0x03, 0x0000000000000000),
   (0x04, 0x3FD3333333333333), (0x05, 0), (0x06, 0), (0x07, 0), (0x08, 0), (0x09, 0), (0x0A, 0), (0x0B, 0),
   (0x0C, 0), (0x0D, 0), (0x0E, 0), (0x0F, 0), (0x10, 0), (0x11, 0x3FF0000000000000), (0x12, 0), (0x13, 0),
   (0x14, 0), (0x15, 0), (0x17, 0)]

/-- Write the rows into the parameter registers, one after the other. -/
def writeRows (p : Vector ParamCell 26) : List (Fin 26 × Word) → Vector ParamCell 26
  | [] => p
  | (i, w) :: rest => writeRows (writeParam p i w) rest

/-- The LOADDEF command when `FLT = none` (R353). -/
def loadDefaults (s : State) : State := { s with p := writeRows s.p defaultRows }

end Sys2Proof.Machine
end

