-- ==== Sys2Proof/Machine/Decimator.lean ====
section
/-! DEFINITION. The stage operation COMPRESS (47_compress.md). -/

namespace Sys2Proof.Machine

/-- `N = S * (44100 div sample_rate)` (R310). -/
def decimation (ps : ParamSet) : Nat := Config.supersample * (Config.nominalRate / ps.sampleRate)

/-- The sum of a group in ascending order, each addition rounded (R310, R311). -/
def boxSum (r : CompressRegs) : List F64 → CompressRegs
  | [] => r
  | x :: xs => boxSum { acc := fadd r.acc x } xs

/-- One output element: the sum from `+0`, divided once by `toF(N)` (R310, R311). -/
def boxMean (group : List F64) (n : Nat) : F64 := fdiv (boxSum { acc := lit0 } group).acc (toF (n : Int))

/-- `m` output elements, each from the next `n` input elements; what is left over is discarded (R310, R311). -/
def decimate (n : Nat) : Nat → List F64 → List F64
  | 0, _ => []
  | m + 1, l => boxMean (l.take n) n :: decimate n m (l.drop n)

/-- COMPRESS's result (R310): `M = n div N` elements. -/
def compressStage (nan : Nat → F64) (ps : ParamSet) (buf : Buf) : Except StageFault Buf :=
  .ok (.signal (storeFrom nan 0
    (decimate (decimation ps) ((realElems buf).length / decimation ps) (realElems buf))))

/-- COMPRESS (R310). -/
def execCompress (s : State) : Host.Outcome State Fault Refusal :=
  if s.flt.isSome then .next s else .next (finishStage s 10 (compressStage (freeNaN s) s.ps s.buf))

end Sys2Proof.Machine
end

