-- ==== Sys2Proof/Machine/Envelope.lean ====
section
/-! DEFINITION. The stage operations ENV and DIGIT (48_envelope_digitizer.md). -/

namespace Sys2Proof.Machine

/-! ENV. -/

/-- `gain = EXP(sound_vol) - 1.0` (R320). -/
def envGain (c : Config.Choices) (ps : ParamSet) : F64 := fsub (c.exp ps.soundVol) lit1

/-- The envelope value at index `i` (R320): attack, sustain with punch, decay; `t` counts from 0 in each phase. -/
def envValue (punch gain : F64) (la ls ld i : Int) : F64 :=
  if i < la then fmul gain (fdiv (toF i) (toF la))
  else if i < la + ls then
    fmul gain (fadd lit1 (fmul (fmul (fsub lit1 (fdiv (toF (i - la)) (toF ls))) lit2) punch))
  else fmul gain (fsub lit1 (fdiv (toF (i - la - ls)) (toF ld)))

/-- The elements multiplied by the envelope, from index `i` on (R320, R321). -/
def envRun (punch gain : F64) (la ls ld : Int) : Int → List F64 → List F64
  | _, [] => []
  | i, x :: xs => fmul x (envValue punch gain la ls ld i) :: envRun punch gain la ls ld (i + 1) xs

/-- ENV's result (R320): the lengths at the target rate, the check of R322, the envelope. -/
def envStage (c : Config.Choices) (nan : Nat → F64) (ps : ParamSet) (buf : Buf) : Except StageFault Buf :=
  match phaseLen ps.sampleRate ps.envAttack with
  | .error e => .error e
  | .ok la =>
    match phaseLen ps.sampleRate ps.envSustain with
    | .error e => .error e
    | .ok ls =>
      match phaseLen ps.sampleRate ps.envDecay with
      | .error e => .error e
      | .ok ld =>
        if la + ls + ld < ((realElems buf).length : Int) then .error (.envelopeOverrun, 0)
        else .ok (.signal (storeFrom nan 0 (envRun ps.envPunch (envGain c ps) la ls ld 0 (realElems buf))))

/-- ENV (R320). -/
def execEnv (s : State) : Host.Outcome State Fault Refusal :=
  if s.flt.isSome then .next s else .next (finishStage s 11 (envStage Config.choices (freeNaN s) s.ps s.buf))

/-! DIGIT. -/

/-- One sample from a scaled value (R330): a NaN raises, a value outside `[lo, hi + 1)` clamps, else its floor. -/
def digitClamp (v : F64) (lo hi : Int) : Except StageFault Int :=
  if isNaN v then .error (.badFloatToInt, 0)
  else if flt v (toF lo) then .ok lo
  else if fge v (toF (hi + 1)) then .ok hi
  else floorOrRaise v

/-- One sample (R330): 8-bit unsigned around 128, or 16-bit signed.
DESIGN CHOICE (log 26): `x + 1.0` rounds as R121 says, so for -2^-53 < x < -2^-54 it is 1 - 2^-53 and the 8-bit sample is 127,
where R331 (d) says 128. -/
def digitSample (sampleSize : Nat) (x : F64) : Except StageFault Int :=
  if sampleSize = 8 then digitClamp (fmul (fadd x lit1) lit128) 0 255
  else digitClamp (fmul x lit32768) (-32768) 32767

/-- The samples, or the fault of the first NaN (R330). -/
def digitRun (sampleSize : Nat) : List F64 → Except StageFault (List Int)
  | [] => .ok []
  | x :: xs =>
    match digitSample sampleSize x with
    | .error e => .error e
    | .ok v =>
      match digitRun sampleSize xs with
      | .error e => .error e
      | .ok q => .ok (v :: q)

/-- DIGIT's result (R330). -/
def digitStage (ps : ParamSet) (buf : Buf) : Except StageFault Buf :=
  match digitRun ps.sampleSize (realElems buf) with
  | .error e => .error e
  | .ok q => .ok (.pcm q)

/-- DIGIT (R330). -/
def execDigit (s : State) : Host.Outcome State Fault Refusal :=
  if s.flt.isSome then .next s else .next (finishStage s 12 (digitStage s.ps s.buf))

end Sys2Proof.Machine
end

