-- ==== Sys2Proof/Machine/FilterPair.lean ====
section
/-! DEFINITION. The stage operation FILT, the IIR filter pair (45_filter_pair.md). -/

namespace Sys2Proof.Machine

/-- `dmp` of R251: `(5.0 / (1.0 + sq(lpf_resonance) * 20.0)) * (0.01 + fltw)` with the start value of `fltw`. -/
def filtDmp (ps : ParamSet) : F64 :=
  fmul (fdiv lit5 (fadd lit1 (fmul (sq ps.lpfResonance) lit20))) (fadd lit0_01 (fmul (cube ps.lpfFreq) lit0_1))

/-- The constants and the initial registers of FILT (R251). -/
def filtInit (c : Config.Choices) (ps : ParamSet) : FiltRegs where
  fltp := lit0
  fltdp := lit0
  yOut := lit0
  fltw := fmul (cube ps.lpfFreq) lit0_1
  fltwD := fadd lit1 (fmul ps.lpfRamp lit0_0001)
  fltdmp := if fgt (filtDmp ps) lit0_8 then lit0_8 else filtDmp ps
  bypass := !fne ps.lpfFreq lit1
  flthp := fmul (sq ps.hpfFreq) lit0_1
  flthd := c.powr (fadd lit1 (fmul ps.hpfRamp lit0_0003)) (fdiv lit1 (toF (Config.supersample : Int)))
  prevFltp := lit0

/-- Lines (1) and (2) of R252: remember the low-pass output, advance the low-pass coefficient. -/
def filtAdvance (r : FiltRegs) : FiltRegs :=
  { r with prevFltp := r.fltp, fltw := clamp (fmul r.fltw r.fltwD) lit0 lit0_1 }

/-- Line (3) of R252: the low-pass recurrence, or the bypass. -/
def filtLowPass (r : FiltRegs) (x : F64) : FiltRegs :=
  if r.bypass then { r with fltp := x, fltdp := lit0 }
  else
    let pulled := fadd r.fltdp (fmul (fsub x r.fltp) r.fltw)
    let fltdp := fsub pulled (fmul pulled r.fltdmp)
    { r with fltdp := fltdp, fltp := fadd r.fltp fltdp }

/-- Lines (4) and (5) of R252: advance the high-pass coefficient, then the high-pass recurrence. -/
def filtHighPass (r : FiltRegs) : FiltRegs :=
  let flthp := clamp (fmul r.flthp r.flthd) lit1em5 lit0_1
  let summed := fadd r.yOut (fsub r.fltp r.prevFltp)
  { r with flthp := flthp, yOut := fsub summed (fmul summed flthp) }

/-- `filtStep(x)` (R252): the registers after the element; the output is their `y_out`. -/
def filtStep (r : FiltRegs) (x : F64) : FiltRegs := filtHighPass (filtLowPass (filtAdvance r) x)

/-- The elements of FILT in ascending order (R250). -/
def filtRun : FiltRegs → List F64 → List F64
  | _, [] => []
  | r, x :: xs => (filtStep r x).yOut :: filtRun (filtStep r x) xs

/-- FILT's result (R250). -/
def filtStage (c : Config.Choices) (nan : Nat → F64) (ps : ParamSet) (buf : Buf) : Except StageFault Buf :=
  .ok (.signal (storeFrom nan 0 (filtRun (filtInit c ps) (realElems buf))))

/-- FILT (R250). -/
def execFilt (s : State) : Host.Outcome State Fault Refusal :=
  if s.flt.isSome then .next s else .next (finishStage s 8 (filtStage Config.choices (freeNaN s) s.ps s.buf))

end Sys2Proof.Machine
end

