-- ==== Sys2Proof/Machine/Oscillator.lean ====
section
/-! DEFINITION. The stage operation OSC (44_oscillator.md). -/

namespace Sys2Proof.Machine

/-- 32 draws into the noise table, entry 0 first, from position `pos` of the entropy port (R222). -/
def fillNoise (draw : Nat → F64) (pos : Nat) : Vector F64 32 := Vector.ofFn (fun i => draw (pos + i.val))

/-- The table is filled only for the Noise shape (R222); the position moves by the 32 draws made. -/
def refreshNoise (draw : Nat → F64) (shape : WaveShape) (pos : Nat) (table : Vector F64 32) : Vector F64 32 × Nat :=
  match shape with
  | .noise => (fillNoise draw pos, pos + Config.noiseLen)
  | .square => (table, pos)
  | .sawtooth => (table, pos)
  | .sine => (table, pos)
  | .triangle => (table, pos)
  | .breaker => (table, pos)

/-- The registers of OSC on entry (R220), and the position after the initial fill.
`NOISE` is neither read nor written for the other shapes: it is what the register held (R35). -/
def oscInit (c : Config.Choices) (draw : Nat → F64) (ps : ParamSet) (shape : WaveShape) (pos : Nat) (table : Vector F64 32) :
    OscRegs × Nat :=
  ({ ophase := 0
     sqDuty := c.dutyInit ps.duty
     dslide := fdiv (fmul (fsub lit0 ps.dutyRamp) lit0_00005) (toF (Config.supersample : Int))
     noise := (refreshNoise draw shape pos table).1 },
   (refreshNoise draw shape pos table).2)

/-- The noise entry for a normalized phase, `NOISE[floorI(fp * 32.0)]` (R229); the index is 0 to 31 for every phase OSC makes (R61).
DESIGN CHOICE (log 20): where no run gets, an index below 0 reads entry 0, an index above 31 or an undefined floor gives `+0`. -/
def noiseEntry (table : Vector F64 32) (fp : F64) : F64 :=
  match floorI (fmul fp lit32) with
  | some i => if h : i.toNat < 32 then table[i.toNat] else lit0
  | none => lit0

/-- The output of a shape at normalized phase `fp`, `sq_duty` as it is after this element's ramp (R223 to R229). -/
def shapeOut (sin : F64 → F64) (shape : WaveShape) (sqDuty : F64) (table : Vector F64 32) (fp : F64) : F64 :=
  match shape with
  | .square => if flt fp sqDuty then litHalf else litNegHalf
  | .sawtooth => fsub lit1 (fmul lit2 fp)
  | .sine => sin (fmul (fmul lit2 litPI) fp)
  | .noise => noiseEntry table fp
  | .triangle => fsub (fabs (fsub lit1 (fmul lit2 fp))) lit1
  | .breaker => fsub (fabs (fsub lit1 (fmul (fmul fp fp) lit2))) lit1

/-- The duty ramp of an element: only the Square shape has one (R223). -/
def rampDuty (shape : WaveShape) (r : OscRegs) : F64 :=
  match shape with
  | .square => clamp (fadd r.sqDuty r.dslide) lit0 litHalf
  | .sawtooth => r.sqDuty
  | .sine => r.sqDuty
  | .noise => r.sqDuty
  | .triangle => r.sqDuty
  | .breaker => r.sqDuty

/-- One element (R220): increment, wrap and refresh, normalized phase, output. -/
def oscStep (c : Config.Choices) (draw : Nat → F64) (shape : WaveShape) (r : OscRegs) (pos : Nat) (period : Int) :
    OscRegs × Nat × F64 :=
  let wraps := decide (period ≤ r.ophase + 1)
  let ophase := if wraps then (r.ophase + 1) % period else r.ophase + 1
  let refreshed := if wraps then refreshNoise draw shape pos r.noise else (r.noise, pos)
  let fp := fdiv (toF ophase) (toF period)
  let sqDuty := rampDuty shape r
  ({ r with ophase := ophase, sqDuty := sqDuty, noise := refreshed.1 }, refreshed.2,
    shapeOut c.sin shape sqDuty refreshed.1 fp)

/-- The elements of OSC and the position of the entropy source after them (R220). -/
def oscRun (c : Config.Choices) (draw : Nat → F64) (shape : WaveShape) : OscRegs → Nat → List Int → List F64 × Nat
  | _, pos, [] => ([], pos)
  | r, pos, period :: rest =>
    match oscStep c draw shape r pos period with
    | (r', pos', y) =>
      match oscRun c draw shape r' pos' rest with
      | (ys, last) => (y :: ys, last)

/-- OSC's result and the position of the entropy source after it (R220): the wave type is tested first, whatever the length (R230). -/
def oscStage (c : Config.Choices) (nan draw : Nat → F64) (ps : ParamSet) (table : Vector F64 32) (pos : Nat) (buf : Buf) :
    Except StageFault (Buf × Nat) :=
  match waveShape ps.waveType with
  | none => .error (.badWaveType, BitVec.ofNat 8 ps.waveType)
  | some shape =>
    let init := oscInit c draw ps shape pos table
    let out := oscRun c draw shape init.1 init.2 (intElems buf)
    .ok (.signal (storeFrom nan 0 out.1), out.2)

/-- OSC (R220): the only stage that moves the position of the entropy source (R38). -/
def execOsc (s : State) : Host.Outcome State Fault Refusal :=
  if s.flt.isSome then .next s
  else
    match oscStage Config.choices (freeNaN s) drawAt s.ps s.loc.osc.noise s.entropyPos s.buf with
    | .ok (b, pos) => .next (finishStage { s with entropyPos := pos } 7 (.ok b))
    | .error e => .next (finishStage s 7 (.error e))

end Sys2Proof.Machine
end

