-- ==== Sys2Proof/Machine/Periods.lean ====
section
/-! DEFINITION. The stage operations on integer periods: QUANT and SUPER (43_quantize_supersample.md). -/

namespace Sys2Proof.Machine

/-- The quantized periods, or the fault of the first element that cannot be converted (R200).
DESIGN CHOICE (log 27): an element of exactly -2^63 converts, as R124 says, and gives 8; R200's line of exceptions would fault on
it. -/
def quantRun : List F64 → Except StageFault (List Int)
  | [] => .ok []
  | x :: xs =>
    match truncOrRaise x with
    | .error e => .error e
    | .ok i =>
      match quantRun xs with
      | .error e => .error e
      | .ok q => .ok (max Config.minPeriod i :: q)

/-- QUANT's result (R200). -/
def quantStage (buf : Buf) : Except StageFault Buf :=
  match quantRun (realElems buf) with
  | .error e => .error e
  | .ok q => .ok (.itrack q)

/-- QUANT (R200). -/
def execQuant (s : State) : Host.Outcome State Fault Refusal :=
  if s.flt.isSome then .next s else .next (finishStage s 5 (quantStage s.buf))

/-- Each entry replicated `S` times, values unchanged (R203, R204). -/
def superRun : List Int → List Int
  | [] => []
  | x :: xs => List.replicate Config.supersample x ++ superRun xs

/-- SUPER's result (R203). -/
def superStage (buf : Buf) : Except StageFault Buf := .ok (.itrack (superRun (intElems buf)))

/-- SUPER (R203). -/
def execSuper (s : State) : Host.Outcome State Fault Refusal :=
  if s.flt.isSome then .next s else .next (finishStage s 6 (superStage s.buf))

end Sys2Proof.Machine
end

