-- ==== Sys2Proof/Machine/Phaser.lean ====
section
/-! DEFINITION. The stage operation PHASER (46_phaser.md). -/

namespace Sys2Proof.Machine

/-- The registers of PHASER on entry (R290): the accumulator, the write position 0, the buffer all `+0`. -/
def phaserInit (c : Config.Choices) (ps : ParamSet) : PhaserRegs where
  fphase := c.phaFphase0 ps.phaOffset
  fdphase := c.phaFdphase ps.phaRamp
  ipp := 0
  pbuf := Vector.replicate 1024 lit0

/-- `phaserOffset(f)` (R293): truncated, clamped to `PHASER_LEN - 1`, in absolute value.
DESIGN CHOICE (log 27): an accumulator of exactly -2^63 converts, as R293 and R124 say, and gives 1023; R290's line of exceptions
would fault on it. -/
def phaserOffset (f : F64) : Except StageFault Nat :=
  match truncOrRaise f with
  | .error e => .error e
  | .ok i =>
    if (Config.phaserLen : Int) - 1 < i ∨ i < -((Config.phaserLen : Int) - 1) then .ok (Config.phaserLen - 1)
    else .ok i.natAbs

/-- `(ipp - iphase) mod PHASER_LEN` with the floor `mod` (R294, R128). -/
def phaserReadIndex (ipp iphase : Nat) : Nat := (((ipp : Int) - (iphase : Int)) % (Config.phaserLen : Int)).toNat

/-- `MemRead(PBUF, i)`; every index the rules make is below 1024 (R61, R294). -/
def pbufRead (b : Vector F64 1024) (i : Nat) : F64 := if h : i < 1024 then b[i] else lit0

/-- `MemWrite(PBUF, i, v)` (R61). -/
def pbufWrite (b : Vector F64 1024) (i : Nat) (v : F64) : Vector F64 1024 := if h : i < 1024 then b.set i v else b

/-- One element (R290): advance the accumulator, derive the offset, write, read, move the write position. -/
def phaserStep (r : PhaserRegs) (x : F64) : Except StageFault (PhaserRegs × F64) :=
  let fphase := fadd r.fphase r.fdphase
  match phaserOffset fphase with
  | .error e => .error e
  | .ok iphase =>
    let pbuf := pbufWrite r.pbuf r.ipp x
    .ok
      ({ r with fphase := fphase, pbuf := pbuf, ipp := (r.ipp + 1) % Config.phaserLen },
        fadd x (pbufRead pbuf (phaserReadIndex r.ipp iphase)))

/-- The elements of PHASER, or the fault of the first offset that cannot be formed (R290). -/
def phaserRun : PhaserRegs → List F64 → Except StageFault (List F64)
  | _, [] => .ok []
  | r, x :: xs =>
    match phaserStep r x with
    | .error e => .error e
    | .ok (r', y) =>
      match phaserRun r' xs with
      | .error e => .error e
      | .ok ys => .ok (y :: ys)

/-- PHASER's result (R290). -/
def phaserStage (c : Config.Choices) (nan : Nat → F64) (ps : ParamSet) (buf : Buf) : Except StageFault Buf :=
  match phaserRun (phaserInit c ps) (realElems buf) with
  | .error e => .error e
  | .ok ys => .ok (.signal (storeFrom nan 0 ys))

/-- PHASER (R290). -/
def execPhaser (s : State) : Host.Outcome State Fault Refusal :=
  if s.flt.isSome then .next s else .next (finishStage s 9 (phaserStage Config.choices (freeNaN s) s.ps s.buf))

end Sys2Proof.Machine
end

