-- ==== Sys2Proof/Machine/Track.lean ====
section
/-! DEFINITION. The stage operations on the frequency track: FREQ (41_frequency_track.md), ARP and VIB (42_pitch_modulators.md). -/

namespace Sys2Proof.Machine

/-! FREQ. -/

/-- `R = floorI(sq(1.0 - repeat_speed) * 20000.0 + 32.0)` if `repeat_speed != 0`, else none (R161). -/
def repeatPeriod (ps : ParamSet) : Except StageFault (Option Nat) :=
  if fne ps.repeatSpeed lit0 then
    match floorOrRaise (fadd (fmul (sq (fsub lit1 ps.repeatSpeed)) lit20000) lit32) with
    | .ok r => .ok (some r.toNat)
    | .error e => .error e
  else .ok none

/-- The constants and the initial registers of FREQ (R161), once the length and `R` are known. -/
def freqInit (ps : ParamSet) (len : Nat) (rep : Option Nat) : FreqRegs where
  period := fdiv lit100 (fadd (sq ps.baseFreq) lit0_001)
  fslide := fsub lit1 (fmul (cube ps.freqRamp) lit0_01)
  fdslide := fmul (fsub lit0 (cube ps.freqDramp)) lit1em6
  maxperiod := fdiv lit100 (fadd (sq ps.freqLimit) lit0_001)
  len := len
  rep := rep

/-- One element of the recurrence (R163): slide, period, limit, emit; `none` is the truncation of R164. -/
def freqStep (ps : ParamSet) (r : FreqRegs) : FreqRegs × Option F64 :=
  let fslide := fadd r.fslide r.fdslide
  let period := fmul r.period fslide
  if fgt period r.maxperiod then
    if fgt ps.freqLimit lit0 then ({ r with fslide := fslide, period := period }, none)
    else ({ r with fslide := fslide, period := r.maxperiod }, some r.maxperiod)
  else ({ r with fslide := fslide, period := period }, some period)

/-- The elements the recurrence gives, at most the number asked for; fewer where the track is truncated (R163, R164). -/
def freqPrefix (ps : ParamSet) : Nat → FreqRegs → List F64
  | 0, _ => []
  | n + 1, r =>
    match freqStep ps r with
    | (_, none) => []
    | (r', some v) => v :: freqPrefix ps n r'

/-- `n` elements that repeat `whole` over and over, the first of them those of `rest`: the tiling `track[t] = track[t - R]` (R165). -/
def tile (whole : List F64) : List F64 → Nat → List F64
  | _, 0 => []
  | x :: xs, n + 1 => x :: tile whole xs n
  | [], n + 1 =>
    match whole with
    | [] => []
    | x :: xs => x :: tile whole xs n

/-- How many elements the recurrence is asked for: `min(R, L)` (R165). -/
def freqSpan (r : FreqRegs) : Nat :=
  match r.rep with
  | some rep => min rep r.len
  | none => r.len

/-- The track: the recurrence runs for `t < min(R, L)`; a truncation in it ends the track; else the prefix is tiled (R163 to R165). -/
def freqTrack (nan : Nat → F64) (ps : ParamSet) (r : FreqRegs) : List F64 :=
  let pre := storeFrom nan 0 (freqPrefix ps (freqSpan r) r)
  if pre.length < freqSpan r then pre else pre ++ tile pre pre (r.len - freqSpan r)

/-- FREQ's result (R160): the three lengths, the length check of R162, then `R` (the order of R415), then the track. -/
def freqStage (maxLen : Nat) (nan : Nat → F64) (ps : ParamSet) : Except StageFault Buf :=
  match phaseLen Config.nominalRate ps.envAttack with
  | .error e => .error e
  | .ok la =>
    match phaseLen Config.nominalRate ps.envSustain with
    | .error e => .error e
    | .ok ls =>
      match phaseLen Config.nominalRate ps.envDecay with
      | .error e => .error e
      | .ok ld =>
        if (maxLen : Int) < (Config.supersample : Int) * (la + ls + ld) then .error (.lengthOverflow, 0)
        else
          match repeatPeriod ps with
          | .error e => .error e
          | .ok rep => .ok (.track (freqTrack nan ps (freqInit ps (la + ls + ld).toNat rep)))

/-- FREQ (R160). While `FLT != none` the block executes nothing (R411). -/
def execFreq (s : State) : Host.Outcome State Fault Refusal :=
  if s.flt.isSome then .next s else .next (finishStage s 2 (freqStage s.maxLen (freeNaN s) s.ps))

/-! ARP. -/

/-- The constants of ARP (R180): `artime` may raise; `factor` by the sign of `arp_mod`. -/
def arpInit (ps : ParamSet) : Except StageFault ArpRegs :=
  match floorOrRaise (fadd (fmul (sq (fsub lit1 ps.arpSpeed)) lit20000) lit32) with
  | .error e => .error e
  | .ok artime =>
    .ok
      { artime := artime
        factor :=
          if fge ps.arpMod lit0 then fsub lit1 (fmul (sq ps.arpMod) lit0_9)
          else fadd lit1 (fmul (sq ps.arpMod) lit10) }

/-- Elements from `artime` on are multiplied by the factor; the ones before are untouched (R180). -/
def arpApply (nan : Nat → F64) (r : ArpRegs) (l : List F64) : List F64 :=
  l.take r.artime.toNat ++ storeFrom nan r.artime.toNat ((l.drop r.artime.toNat).map (fun x => fmul x r.factor))

/-- ARP's result (R180): `arp_mod = 0` is tested first, and then `artime` is not computed. -/
def arpStage (nan : Nat → F64) (ps : ParamSet) (buf : Buf) : Except StageFault Buf :=
  if feq ps.arpMod lit0 then .ok buf
  else
    match arpInit ps with
    | .error e => .error e
    | .ok r =>
      if ((realElems buf).length : Int) ≤ r.artime then .ok buf
      else .ok (.track (arpApply nan r (realElems buf)))

/-- ARP (R180). -/
def execArp (s : State) : Host.Outcome State Fault Refusal :=
  if s.flt.isSome then .next s else .next (finishStage s 3 (arpStage (freeNaN s) s.ps s.buf))

/-! VIB. -/

/-- The constants of VIB and `vphase = 0.0` (R183). -/
def vibInit (ps : ParamSet) : VibRegs where
  vphase := lit0
  vspeed := fmul (sq ps.vibSpeed) lit0_01
  vamp := fmul ps.vibStrength litHalf

/-- The vibrato over the elements: the phase advances before it is used (R183, R184). -/
def vibRun (sin : F64 → F64) : VibRegs → List F64 → List F64
  | _, [] => []
  | r, x :: xs =>
    let vphase := fadd r.vphase r.vspeed
    fmul x (fadd lit1 (fmul r.vamp (sin vphase))) :: vibRun sin { r with vphase := vphase } xs

/-- VIB's result (R183): the identity if `vib_speed = 0` or `vib_strength = 0`. -/
def vibStage (c : Config.Choices) (nan : Nat → F64) (ps : ParamSet) (buf : Buf) : Except StageFault Buf :=
  if feq ps.vibSpeed lit0 || feq ps.vibStrength lit0 then .ok buf
  else .ok (.track (storeFrom nan 0 (vibRun c.sin (vibInit ps) (realElems buf))))

/-- VIB (R183). -/
def execVib (s : State) : Host.Outcome State Fault Refusal :=
  if s.flt.isSome then .next s else .next (finishStage s 4 (vibStage Config.choices (freeNaN s) s.ps s.buf))

end Sys2Proof.Machine
end

