-- ==== Sys2Proof/Machine/Commands.lean ====
section
/-! DEFINITION. The sequencer and the six commands (49_host_commands.md R351 to R358). -/

namespace Sys2Proof.Machine

/-- `execStage(n)`: the stage operation of code `n` (R358).
Codes 0 and 12 are excluded by the callers (R356, R357); 13 to 15 are never held (R27, log 12). -/
def execStage (n : StageCode) (s : State) : Host.Outcome State Fault Refusal :=
  match n.toNat with
  | 1 => execFreq s
  | 2 => execArp s
  | 3 => execVib s
  | 4 => execQuant s
  | 5 => execSuper s
  | 6 => execOsc s
  | 7 => execFilt s
  | 8 => execPhaser s
  | 9 => execCompress s
  | 10 => execEnv s
  | 11 => execDigit s
  | _ => .fault (.noSuchStage n)

/-- `while 1 <= SP <= 11 and FLT = none: execStage(SP)` (R357), at most `k` times. -/
def runStages : Nat → State → Host.Outcome State Fault Refusal
  | 0, s => .next s
  | k + 1, s =>
    if flagArmed s then
      match execStage s.sp s with
      | .next s' => runStages k s'
      | .fault f => .fault f
      | .refused r => .refused r
    else .next s

/-- STEP and RUN where `SP` is 0 or 12 raise BadSequence(SP) (R409). -/
def badSequence (s : State) : Bool := decide (s.sp.toNat = 0) || decide (s.sp.toNat = 12)

/-- STEP when `FLT = none` (R356): one stage operation. -/
def stepCommand (s : State) : Host.Outcome State Fault Refusal :=
  if badSequence s then .next (raiseFault s .badSequence (s.sp.setWidth 8)) else execStage s.sp s

/-- RUN when `FLT = none` (R357): each completed stage moves `SP` up by one, so eleven rounds are enough. -/
def runCommand (s : State) : Host.Outcome State Fault Refusal :=
  if badSequence s then .next (raiseFault s .badSequence (s.sp.setWidth 8)) else runStages 11 s

/-- NOP (R351): no state changes. -/
def execNop (s : State) : Host.Outcome State Fault Refusal := .next s

/-- RESET (R352): accepted in every state, the way out of the fault state (R412). -/
def execReset (s : State) : Host.Outcome State Fault Refusal := .next (resetBlock s)

/-- LOADDEF (R353), ignored while `FLT != none` (R361). -/
def execLoaddef (s : State) : Host.Outcome State Fault Refusal :=
  if s.flt.isSome then .next s else .next (loadDefaults s)

/-- ARM (R354), ignored while `FLT != none` (R361). -/
def execArm (s : State) : Host.Outcome State Fault Refusal :=
  if s.flt.isSome then .next s else .next (armBlock s)

/-- STEP (R356), ignored while `FLT != none` (R361). -/
def execStep (s : State) : Host.Outcome State Fault Refusal :=
  if s.flt.isSome then .next s else stepCommand s

/-- RUN (R357), ignored while `FLT != none` (R361). -/
def execRun (s : State) : Host.Outcome State Fault Refusal :=
  if s.flt.isSome then .next s else runCommand s

end Sys2Proof.Machine
end

