-- ==== Sys2Proof/Machine/Transactions.lean ====
section
/-! DEFINITION. The two generic transactions RD and WR (49_host_commands.md R359 to R362). -/

namespace Sys2Proof.Machine

/-- What a read of a register gives: the word returned, and whether the read raises BadRegisterAccess (R360).
A read of an unwritten parameter register returns a free word (R21, log 7). -/
def readValue (s : State) (r : HostReg) : Word × Bool :=
  match r with
  | .param i =>
    match s.p[i] with
    | .written w => (w, false)
    | .unwritten => (Config.freeWord s.freeReads, false)
  | .cmd => (0, false)
  | .status => (statusWord s, false)
  | .cause => (causeWord s, false)
  | .stage => (stageWord s, false)
  | .buflen => (bufLenWord s, false)
  | .bufkind => (bufKindWord s, false)
  | .bufidx => (s.bufIdx, false)
  | .bufdata =>
    if s.flt.isSome then (0, false)
    else
      match bufWindow s.buf s.ps.sampleSize s.bufIdx.toNat with
      | some w => (w, false)
      | none => (0, true)
  | .unmapped => (0, s.flt.isNone)

/-- The counter of free words moves when an unwritten parameter register is read, so that two reads need not agree (R21, log 7). -/
def readCount (s : State) (r : HostReg) : Nat :=
  match r with
  | .param i => if cellUnwritten s.p[i] then s.freeReads + 1 else s.freeReads
  | .cmd => s.freeReads
  | .status => s.freeReads
  | .cause => s.freeReads
  | .stage => s.freeReads
  | .buflen => s.freeReads
  | .bufkind => s.freeReads
  | .bufidx => s.freeReads
  | .bufdata => s.freeReads
  | .unmapped => s.freeReads

/-- RD (R360, R361): the word goes to the port; no read changes the block, except that a faulting read sets `FLT`. -/
def execRd (addr : RegAddr) (s : State) : Host.Outcome State Fault Refusal :=
  let v := readValue s (hostReg addr)
  let answered := { s with answer := some v.1, freeReads := readCount s (hostReg addr) }
  if v.2 then .next (raiseFault answered .badRegisterAccess addr) else .next answered

/-- A WR to `CMD` when `FLT = none` (R359, R362): the command of format K, or IllegalCommand(data[7:0]) (R407). -/
def writeCommand (data : Word) (s : State) : Host.Outcome State Fault Refusal :=
  match data.toNat with
  | 0 => .next s
  | 1 => .next (resetBlock s)
  | 2 => .next (loadDefaults s)
  | 3 => .next (armBlock s)
  | 4 => stepCommand s
  | 5 => runCommand s
  | _ => .next (raiseFault s .illegalCommand (data.setWidth 8))

/-- WR when `FLT = none`, by register (R359): read-only and unmapped addresses raise BadRegisterAccess (R408). -/
def writeRegister (addr : RegAddr) (data : Word) (s : State) : Host.Outcome State Fault Refusal :=
  match hostReg addr with
  | .param i => .next { s with p := writeParam s.p i data }
  | .cmd => writeCommand data s
  | .bufidx => .next { s with bufIdx := data }
  | .status => .next (raiseFault s .badRegisterAccess addr)
  | .cause => .next (raiseFault s .badRegisterAccess addr)
  | .stage => .next (raiseFault s .badRegisterAccess addr)
  | .buflen => .next (raiseFault s .badRegisterAccess addr)
  | .bufkind => .next (raiseFault s .badRegisterAccess addr)
  | .bufdata => .next (raiseFault s .badRegisterAccess addr)
  | .unmapped => .next (raiseFault s .badRegisterAccess addr)

/-- WR (R359); while `FLT != none` every write but RESET's own word is ignored (R361). -/
def execWr (addr : RegAddr) (data : Word) (s : State) : Host.Outcome State Fault Refusal :=
  if s.flt.isSome then
    (if addr = 0x20#8 ∧ data = 1 then .next (resetBlock s) else .next s)
  else writeRegister addr data s

end Sys2Proof.Machine
end

