-- ==== Sys2Proof/Machine/Dispatch.lean ====
section
/-! DEFINITION. What each instruction does: one arm per constructor of Instr. -/

namespace Sys2Proof.Machine

def exec (i : Instr) (s : State) : Host.Outcome State Fault Refusal :=
  match i with
  | .rd addr => Sys2Proof.Machine.execRd addr s
  | .wr addr data => Sys2Proof.Machine.execWr addr data s
  | .nop => Sys2Proof.Machine.execNop s
  | .reset => Sys2Proof.Machine.execReset s
  | .loaddef => Sys2Proof.Machine.execLoaddef s
  | .arm => Sys2Proof.Machine.execArm s
  | .step => Sys2Proof.Machine.execStep s
  | .run => Sys2Proof.Machine.execRun s
  | .freq => Sys2Proof.Machine.execFreq s
  | .arp => Sys2Proof.Machine.execArp s
  | .vib => Sys2Proof.Machine.execVib s
  | .quant => Sys2Proof.Machine.execQuant s
  | .super => Sys2Proof.Machine.execSuper s
  | .osc => Sys2Proof.Machine.execOsc s
  | .filt => Sys2Proof.Machine.execFilt s
  | .phaser => Sys2Proof.Machine.execPhaser s
  | .compress => Sys2Proof.Machine.execCompress s
  | .env => Sys2Proof.Machine.execEnv s
  | .digit => Sys2Proof.Machine.execDigit s

end Sys2Proof.Machine
end

