-- ==== Sys2Proof/Machine/Fetch.lean ====
section
/-! DEFINITION. How a step finds its next instruction: the host's transactions at the port, and the hardwired program of stage words (10_state.md R27; 49_host_commands.md R350). -/

namespace Sys2Proof.Machine

/-- The hardwired program: at position `SP = n` stands the stage operation word `n` (R27, R92). -/
def programWord (sp : StageCode) : FetchWord := .stage sp

/-- One input taken from the port: a transaction is decoded and executed whole (R350), power-on reset is R450's. -/
def takeInput (i : HostInput) (s : State) : Host.Outcome State Fault Refusal :=
  match i with
  | .transaction t => exec (decodeHost t) s
  | .powerOn => .next (powerOnReset s)

/-- Put an instruction's word where the next step fetches it.
A transaction goes to the head of the port's list.
A stage operation word is selected as the sequencer does it: `SP` at its code, no fault pending, and a STEP at the port (log 16). -/
def placeFetchWord (s : State) (nbits w : Nat) : State :=
  if nbits = 4 ∨ nbits = 8 then
    { s with
      sp := BitVec.ofNat 4 w
      flt := none
      pending := .transaction (commandWord 0x04) :: s.pending }
  else { s with pending := .transaction (BitVec.ofNat 73 w) :: s.pending }

end Sys2Proof.Machine
end

