-- ==== Sys2Proof/Machine/Step.lean ====
section
/-! DEFINITION. One step: the next input at the port, executed whole (49_host_commands.md R350; 70_reset_and_hazards.md R462). -/

namespace Sys2Proof.Machine

/-- One step of the machine.
With no input waiting the block is idle and no state changes (R350, R438); else the next input is taken off the port and executed. -/
def step (s : State) : Host.Outcome State Fault Refusal :=
  match s.pending with
  | [] => .next s
  | i :: rest => takeInput i { s with pending := rest }

/-- `s` with an opcode table word stored where `step` fetches its next instruction. -/
def State.withFetchWord (s : State) (nbits w : Nat) : State := placeFetchWord s nbits w

end Sys2Proof.Machine
end

