-- ==== Sys2Proof/Machine/Defaults.lean ====
section
/-! DEFINITION. The defaults that the spec fixes for its OPEN functions (R129, R223, R292). The machine uses none of them: its configuration is opaque (log 10). They are here for claims and tests that name the choice. -/

namespace Sys2Proof.Machine

/-- The default of `DUTY_INIT`: `0.5 - duty * 0.5` (R223). -/
def dutyInitDefault (duty : F64) : F64 := fsub litHalf (fmul duty litHalf)

/-- The signed square of R292. -/
def ssq (x : F64) : F64 := if flt x lit0 then fsub lit0 (sq x) else sq x

/-- The default of `PHA_FPHASE0`: `ssq(o) * 1020.0` (R292). -/
def phaFphase0Default (o : F64) : F64 := fmul (ssq o) lit1020

/-- The default of `PHA_FDPHASE`: `ssq(r) / toF(S)` (R292). -/
def phaFdphaseDefault (r : F64) : F64 := fdiv (ssq r) (toF (Config.supersample : Int))

/-- The value of a finite datum. -/
def ratValue (x : F64) : ℚ := (scaled x : ℚ) / 2 ^ 1074

/-- `y` is the correctly rounded value of the real number `r`: the nearest binary64, ties to even, overflow to infinity. -/
def CorrectlyRounded (y : F64) (r : ℝ) : Prop :=
  if (2 : ℝ) ^ 1024 - 2 ^ 970 ≤ |r| then y = infinity (signBit y) ∧ (signBit y = true ↔ r < 0)
  else
    isFinite y = true ∧ (signBit y = true → r ≤ 0) ∧ (signBit y = false → 0 ≤ r) ∧
      ∀ z : F64, isFinite z = true →
        |(ratValue y : ℝ) - r| ≤ |(ratValue z : ℝ) - r| ∧
          (|(ratValue y : ℝ) - r| = |(ratValue z : ℝ) - r| → ratValue y ≠ ratValue z → y.getLsbD 0 = false)

/-- The default of `SIN`, `EXP` and `POWR`: correctly rounded, with the special values R129 lists.
DESIGN CHOICE (log 25): R129 gives `POWR(1.0, NaN)` twice, as a NaN and as 1.0; here it is 1.0, so `powr_one` holds for
every `y` and `powr_nan` only for a base other than 1.0. -/
structure DefaultMath (c : Config.Choices) : Prop where
  sin_finite : ∀ x, isFinite x = true → magnitude x ≠ 0 → CorrectlyRounded (c.sin x) (Real.sin (ratValue x))
  sin_zero : ∀ x, isFinite x = true → magnitude x = 0 → c.sin x = x
  sin_else : ∀ x, isFinite x = false → isNaN (c.sin x) = true
  exp_finite : ∀ x, isFinite x = true → CorrectlyRounded (c.exp x) (Real.exp (ratValue x))
  exp_inf : c.exp (infinity false) = infinity false ∧ c.exp (infinity true) = lit0
  exp_nan : ∀ x, isNaN x = true → isNaN (c.exp x) = true
  powr_one : ∀ y, c.powr lit1 y = lit1
  powr_finite : ∀ x y, isFinite x = true → isFinite y = true →
    (0 < scaled x ∨ (scaled x = 0 ∧ 0 < scaled y)) →
    CorrectlyRounded (c.powr x y) ((ratValue x : ℝ) ^ (ratValue y : ℝ))
  powr_integer : ∀ x y, isFinite x = true → isFinite y = true → scaled x < 0 →
    scaled y % (unitScale : Int) = 0 →
    CorrectlyRounded (c.powr x y) ((ratValue x : ℝ) ^ (scaled y / (unitScale : Int)))
  powr_negative : ∀ x y, isFinite x = true → isFinite y = true → scaled x < 0 →
    scaled y % (unitScale : Int) ≠ 0 → isNaN (c.powr x y) = true
  powr_nan : ∀ x y, x ≠ lit1 → (isNaN x = true ∨ isNaN y = true) → isNaN (c.powr x y) = true

end Sys2Proof.Machine
end

