-- ==== Sys2Proof/Machine/HostProgram.lean ====
section
/-! DEFINITION. The host's side: the pseudo-instructions of 30_encoding.md R100 and how a program is put at the port, and the serialisation of words and PCM (20_memory.md R62, R63, R66). -/

namespace Sys2Proof.Machine

/-- `SYNTH` = ARM ; RUN (R100). -/
def pseudoSynth : List Instr := [.arm, .run]

/-- `STEPN n` = STEP, `n` times (R100). -/
def pseudoStepn (n : Nat) : List Instr := List.replicate n .step

/-- `RDBUF i` = WR BUFIDX, i ; RD BUFDATA (R100). -/
def pseudoRdbuf (i : Word) : List Instr := [.wr 0x26 i, .rd 0x27]

/-- `SETDEF` = LOADDEF ; WR sample_rate, 44100 ; WR sample_size, 8 ; WR sound_vol, 0.0 (R100). -/
def pseudoSetdef : List Instr := [.loaddef, .wr 0x18 44100, .wr 0x19 8, .wr 0x16 lit0]

/-- The transaction of an instruction; stage operations are no transactions (R92). -/
def transactionOf (i : Instr) : Option HostWord :=
  match encode i with
  | .host t => some t
  | .stage _ => none

/-- The host issues a program: its transactions go to the end of the port's list, in order. -/
def issue (program : List Instr) (s : State) : State :=
  { s with pending := s.pending ++ (program.filterMap transactionOf).map .transaction }

/-- A 64-bit word as bytes, little-endian (R63). -/
def wordBytes (w : Word) : List (BitVec 8) := (List.range 8).map (fun k => w.extractLsb' (8 * k) 8)

/-- A PCM element as bytes: one unsigned byte, or two bytes of two's complement, low byte first (R62). -/
def sampleBytes (sampleSize : Nat) (v : Int) : List (BitVec 8) :=
  if sampleSize = 8 then [BitVec.ofInt 8 v] else [BitVec.ofInt 8 v, BitVec.ofInt 8 (v / 256)]

/-- The raw PCM bytes of the buffer, in index order (R62, R66). -/
def pcmBytes (s : State) : List (BitVec 8) :=
  match s.buf with
  | .pcm l => l.flatMap (sampleBytes s.ps.sampleSize)
  | .none => []
  | .track _ => []
  | .itrack _ => []
  | .signal _ => []

/-- `dataLen = BUF.len * PS.sample_size / 8` (R66). -/
def pcmDataLen (s : State) : Nat := bufLen s.buf * s.ps.sampleSize / 8

end Sys2Proof.Machine
end

