-- ==== Sys2Proof/Safety.lean ====
section
/-! DEFINITION. The terms in which claims speak of runs: the invariant of the machine, frames, when a stage completes, and the closed forms of the stages' sequences, each written from its rule without the stage's own loop. -/

namespace Sys2Proof.Safety

open Machine

/-! The invariant. -/

/-- The 23 real fields of `PS` (R24). -/
def realFields (ps : ParamSet) : List F64 :=
  [ps.envAttack, ps.envSustain, ps.envDecay, ps.envPunch, ps.baseFreq, ps.freqLimit, ps.freqRamp, ps.freqDramp,
   ps.vibStrength, ps.vibSpeed, ps.arpMod, ps.arpSpeed, ps.duty, ps.dutyRamp, ps.repeatSpeed, ps.phaOffset, ps.phaRamp,
   ps.lpfFreq, ps.lpfRamp, ps.lpfResonance, ps.hpfFreq, ps.hpfRamp, ps.soundVol]

/-- What the ARM checks leave of a latched set: real fields finite, a legal rate, a legal size (R401, R403, R404). -/
def latchOk (ps : ParamSet) : Bool :=
  (realFields ps).all isFinite && decide (1 ≤ ps.sampleRate) && decide (ps.sampleRate ≤ 44100) &&
    (decide (ps.sampleSize = 8) || decide (ps.sampleSize = 16))

/-- The kind of `BUF` at each value of `SP` (R31), with the least period of an ITRACK (R30, R201). -/
def bufMatches (sp : StageCode) (buf : Buf) : Bool :=
  match buf with
  | .none => decide (sp.toNat ≤ 1)
  | .track _ => decide (2 ≤ sp.toNat) && decide (sp.toNat ≤ 4)
  | .itrack l => decide (5 ≤ sp.toNat) && decide (sp.toNat ≤ 6) && l.all (fun p => decide (8 ≤ p))
  | .signal _ => decide (7 ≤ sp.toNat) && decide (sp.toNat ≤ 11)
  | .pcm _ => decide (sp.toNat = 12)

/-- `BUF.len <= MAX_LEN`, and before SUPER has run `S` times the length (R30, R162, R413). -/
def lengthFits (s : State) : Bool :=
  if s.sp.toNat ≤ 5 then decide (Config.supersample * bufLen s.buf ≤ s.maxLen) else decide (bufLen s.buf ≤ s.maxLen)

/-- The stage field of a latched fault is `SP`: no rule moves `SP` while a fault is latched (R410, R411). -/
def faultStageIsSp (s : State) : Bool :=
  match s.flt with
  | none => true
  | some f => decide (f.stage = s.sp)

/-- The samples of a PCM buffer lie in the range of the latched sample size (R30, R131). -/
def pcmInRange (s : State) : Bool :=
  match s.buf with
  | .pcm l =>
    l.all (fun v => if s.ps.sampleSize = 8 then decide (0 ≤ v) && decide (v ≤ 255)
      else decide (-32768 ≤ v) && decide (v ≤ 32767))
  | .none => true
  | .track _ => true
  | .itrack _ => true
  | .signal _ => true

/-- The invariant that every step keeps. -/
structure Inv (s : State) : Prop where
  /-- `SP` is 0 to 12 (R27). -/
  sp_legal : s.sp.toNat ≤ 12
  /-- The buffer's kind is the one of `SP` (R31). -/
  kind : bufMatches s.sp s.buf = true
  /-- The buffer fits (R413). -/
  fits : lengthFits s = true
  /-- Once armed, the latched parameters have passed the checks (R354, R403). -/
  latched : 1 ≤ s.sp.toNat → latchOk s.ps = true
  /-- A latched fault names the stage pointer (R410). -/
  fault_stage : faultStageIsSp s = true
  /-- PCM samples are in range (R131). -/
  pcm : pcmInRange s = true

/-! Frames. -/

/-- What no stage operation changes: `P`, `PS`, `BUFIDX`, the port, and the model's constants and read counter. -/
structure StageFrame (s t : State) : Prop where
  p : t.p = s.p
  ps : t.ps = s.ps
  bufIdx : t.bufIdx = s.bufIdx
  maxLen : t.maxLen = s.maxLen
  pending : t.pending = s.pending
  answer : t.answer = s.answer
  freeReads : t.freeReads = s.freeReads

/-- A stage completed: `BUF` and `SP` as given, no fault, everything else as before.
The stage-local registers are dead afterwards and say nothing (R32). -/
structure Completes (s t : State) (sp : StageCode) (buf : Buf) : Prop where
  sp : t.sp = sp
  buf : t.buf = buf
  flt : t.flt = none
  frame : StageFrame s t

/-- A fault was taken: `FLT` is (cause, SP, info) and `SP`, `BUF`, the entropy position and everything else are as before (R410). -/
structure Faults (s t : State) (c : Cause) (info : InfoByte) : Prop where
  flt : t.flt = some { cause := c, stage := s.sp, info := info }
  sp : t.sp = s.sp
  buf : t.buf = s.buf
  entropyPos : t.entropyPos = s.entropyPos
  frame : StageFrame s t

/-- A computed element as it is stored: a NaN's pattern is free (log 8). -/
def stored (s : State) (u : Nat) (y : F64) : F64 := if isNaN y then freeNaN s u else y

/-- The code of every fault cause, as R400's table numbers them. -/
def causeTable : Prop :=
  causeCode .paramUnwritten = 1 ∧ causeCode .nonFiniteParam = 2 ∧ causeCode .badSampleRate = 3 ∧
    causeCode .badSampleSize = 4 ∧ causeCode .badWaveType = 5 ∧ causeCode .lengthOverflow = 6 ∧
    causeCode .badFloatToInt = 7 ∧ causeCode .envelopeOverrun = 10 ∧ causeCode .illegalCommand = 11 ∧
    causeCode .badSequence = 12 ∧ causeCode .badRegisterAccess = 13

/-! Addresses, and the instructions by group. -/

/-- An address that no register has (R25). -/
def unmappedAddr (a : RegAddr) : Prop := (0x1A ≤ a.toNat ∧ a.toNat ≤ 0x1F) ∨ 0x28 ≤ a.toNat

/-- An address whose register is read only (R25). -/
def readOnlyAddr (a : RegAddr) : Prop := (0x21 ≤ a.toNat ∧ a.toNat ≤ 0x25) ∨ a.toNat = 0x27

/-- The state with `FLT` latched and nothing else changed (R410). -/
def faulted (s : State) (c : Cause) (info : InfoByte) : State :=
  { s with flt := some { cause := c, stage := s.sp, info := info } }

/-- The eleven stage operations in the order of their codes (R92). -/
def stageOps : List Instr := [.freq, .arp, .vib, .quant, .super, .osc, .filt, .phaser, .compress, .env, .digit]

/-- The instruction is the command with opcode `k`, by its name or as the WR of its word. -/
def isCommand (i : Instr) (named : Instr) (k : Word) : Prop := i = named ∨ i = .wr 0x20 k

/-! When a stage completes. -/

/-- `((toF(rate) * 100000.0) / 44100.0) * sq(p)`, the argument of a phase length (R161, R320). -/
def phaseArg (rate : Nat) (p : F64) : F64 := fmul (fdiv (fmul (toF rate) lit100000) lit44100) (fmul p p)

/-- The lengths of the three phases at a rate, the floors of their arguments, where all are defined (R161, R320).
Written from the rule, not from the machine's `phaseLen`. -/
def phaseLens (rate : Nat) (ps : ParamSet) : Option (Int × Int × Int) :=
  match floorI (phaseArg rate ps.envAttack), floorI (phaseArg rate ps.envSustain), floorI (phaseArg rate ps.envDecay) with
  | some la, some ls, some ld => some (la, ls, ld)
  | _, _, _ => none

/-- `sq(1.0 - x) * 20000.0 + 32.0`, the argument of FREQ's `R` and of ARP's `artime` (R161, R180). -/
def delayArg (x : F64) : F64 := fadd (fmul (sq (fsub lit1 x)) lit20000) lit32

/-- FREQ's conversions are defined and the track fits (R161, R162). -/
def freqReady (s : State) : Bool :=
  match phaseLens Config.nominalRate s.ps with
  | some (la, ls, ld) =>
    decide ((Config.supersample : Int) * (la + ls + ld) ≤ (s.maxLen : Int)) &&
      (feq s.ps.repeatSpeed lit0 || (floorI (delayArg s.ps.repeatSpeed)).isSome)
  | none => false

/-- ARP's `artime` is defined, or not needed (R180). -/
def arpReady (s : State) : Bool := feq s.ps.arpMod lit0 || (floorI (delayArg s.ps.arpSpeed)).isSome

/-- Every element converts to an integer (R200). -/
def quantReady (s : State) : Bool := (realElems s.buf).all (fun x => (truncI x).isSome)

/-- PHASER's accumulator at element `u`, advanced before its use (R290). -/
def phaserPhase (c : Config.Choices) (ps : ParamSet) (u : Nat) : F64 :=
  Nat.repeat (fun p => fadd p (c.phaFdphase ps.phaRamp)) (u + 1) (c.phaFphase0 ps.phaOffset)

/-- Every offset of PHASER is defined (R293). -/
def phaserReady (c : Config.Choices) (ps : ParamSet) (n : Nat) : Bool :=
  (List.range n).all (fun u => (truncI (phaserPhase c ps u)).isSome)

/-- ENV's lengths are defined and not less than the signal's (R320, R322). -/
def envReady (s : State) : Bool :=
  match phaseLens s.ps.sampleRate s.ps with
  | some (la, ls, ld) => decide (((realElems s.buf).length : Int) ≤ la + ls + ld)
  | none => false

/-- No element of the signal is a NaN (R330, R332). -/
def digitReady (s : State) : Bool := (realElems s.buf).all (fun x => !isNaN x)

/-- The stage at `SP` has what it needs to complete. -/
def stageReady (s : State) : Bool :=
  match s.sp.toNat with
  | 1 => freqReady s
  | 2 => arpReady s
  | 3 => true
  | 4 => quantReady s
  | 5 => true
  | 6 => decide (s.ps.waveType ≤ 5)
  | 7 => true
  | 8 => phaserReady Config.choices s.ps (realElems s.buf).length
  | 9 => true
  | 10 => envReady s
  | 11 => digitReady s
  | _ => false

/-- `k` STEP commands one after the other. -/
def steps : Nat → State → Host.Outcome State Fault Refusal
  | 0, s => .next s
  | k + 1, s =>
    match exec .step s with
    | .next t => steps k t
    | .fault f => .fault f
    | .refused r => .refused r

/-! FREQ in closed form (R161, R163, R164). -/

/-- The start period (R161). -/
def startPeriod (ps : ParamSet) : F64 := fdiv lit100 (fadd (sq ps.baseFreq) lit0_001)

/-- `maxperiod` (R161). -/
def maxPeriod (ps : ParamSet) : F64 := fdiv lit100 (fadd (sq ps.freqLimit) lit0_001)

/-- `fslide` after `t` elements: `fdslide` added `t` times, one rounding each (R161, R163). -/
def slideAt (ps : ParamSet) (t : Nat) : F64 :=
  Nat.repeat (fun f => fadd f (fmul (fsub lit0 (cube ps.freqDramp)) lit1em6)) t
    (fsub lit1 (fmul (cube ps.freqRamp) lit0_01))

/-- `period` after `t` elements of a track that was not truncated (R163). -/
def periodAt (ps : ParamSet) : Nat → F64
  | 0 => startPeriod ps
  | t + 1 =>
    let next := fmul (periodAt ps t) (slideAt ps (t + 1))
    if fgt next (maxPeriod ps) then maxPeriod ps else next

/-- The limit truncates the track at element `t` (R164). -/
def truncatesAt (ps : ParamSet) (t : Nat) : Bool :=
  fgt (fmul (periodAt ps t) (slideAt ps (t + 1))) (maxPeriod ps) && fgt ps.freqLimit lit0

/-! OSC in closed form (R220 to R229). -/

/-- The phase counter after `u` elements (R221). -/
def phaseAt (l : List Int) (u : Nat) : Int :=
  (l.take u).foldl (fun ph p => if p ≤ ph + 1 then (ph + 1) % p else ph + 1) 0

/-- The counter wraps at element `u` (R221). -/
def wrapsAt (l : List Int) (u : Nat) : Bool := decide (l.getD u 0 ≤ phaseAt l u + 1)

/-- How many of the first `u` elements wrap (R222). -/
def wrapCount (l : List Int) (u : Nat) : Nat := ((List.range u).filter (fun k => wrapsAt l k)).length

/-- The normalized phase of element `u` (R220). -/
def normPhase (l : List Int) (u : Nat) : F64 := fdiv (toF (phaseAt l (u + 1))) (toF (l.getD u 0))

/-- The duty state after `u` elements of the Square shape (R223). -/
def dutyAt (c : Config.Choices) (ps : ParamSet) (u : Nat) : F64 :=
  Nat.repeat
    (fun d => clamp (fadd d (fdiv (fmul (fsub lit0 ps.dutyRamp) lit0_00005) (toF 8))) lit0 litHalf) u
    (c.dutyInit ps.duty)

/-! The other sequences in closed form. -/

/-- VIB's phase at element `t`, advanced before its use (R183, R184). -/
def vibPhase (ps : ParamSet) (t : Nat) : F64 :=
  Nat.repeat (fun p => fadd p (fmul (sq ps.vibSpeed) lit0_01)) (t + 1) lit0

/-- FILT's registers after the first `u` elements (R250). -/
def filtAfter (c : Config.Choices) (ps : ParamSet) (l : List F64) (u : Nat) : FiltRegs :=
  (l.take u).foldl filtStep (filtInit c ps)

/-- The delayed element PHASER adds at element `u` with offset `k`: the input `k` elements ago, `+0` before the first (R294). -/
def delayed (l : List F64) (u k : Nat) : F64 := if k ≤ u then l.getD (u - k) lit0 else lit0

/-- The offset of PHASER from a truncated accumulator: `min(|i|, PHASER_LEN - 1)` (R293). -/
def offsetOf (i : Int) : Nat := min i.natAbs 1023

/-- The value of a binary64 pattern without sign, in units of 2^-1074. -/
def patternValue (p : Nat) : Nat := magnitude (BitVec.ofNat 64 p)

end Sys2Proof.Safety
end

