-- ==== Sys2Proof/Certificates/Slice0/Obligations.lean ====
section
/-! DEFINITION. The statements for the provers, grouped as the spec is: encoding, the machine, host transactions, commands, the stage operations, whole-machine rules, numerics. -/

section Statements

open Sys2Proof Sys2Proof.Machine Sys2Proof.Safety

/-! Encoding. -/

/-- Decoding the encoder's word of a well-formed instruction gives the instruction back, every operand at every value. -/
def Obligations.DecodeEncodeRoundTrip : Prop :=
  ∀ i : Instr, i.wellFormed = true → decode (encode i) = .ok i

/-- Every transaction is the word of the instruction it decodes to, but for the ignored data bits of a read (R90);
every stage operation word likewise (R92). -/
def Obligations.EncodeDecodeWord : Prop :=
  (∀ t : HostWord, (decodeHost t).wellFormed = true ∧
      encode (decodeHost t) = .host (if t.getLsbD 72 then t else hostWord false (t.extractLsb' 64 8) 0)) ∧
    ∀ (u : StageCode) (i : Instr), decode (.stage u) = .ok i → encode i = .stage u

/-- The decoder reads a transaction as R101's prose says, by its slices, and a stage word by its code (R92). -/
def Obligations.DecodesByFormat : Prop :=
  (∀ t : HostWord, t.getLsbD 72 = false → decode (.host t) = .ok (.rd (t.extractLsb' 64 8))) ∧
    (∀ t : HostWord, t.getLsbD 72 = true → t.extractLsb' 64 8 ≠ 0x20#8 →
      decode (.host t) = .ok (.wr (t.extractLsb' 64 8) (t.extractLsb' 0 64))) ∧
    (∀ t : HostWord, t.getLsbD 72 = true → t.extractLsb' 64 8 = 0x20#8 → t.extractLsb' 8 56 = 0#56 →
      (t.extractLsb' 0 8).toNat ≤ 5 →
      [Instr.nop, .reset, .loaddef, .arm, .step, .run][(t.extractLsb' 0 8).toNat]? = some (decodeHost t)) ∧
    (∀ t : HostWord, t.getLsbD 72 = true → t.extractLsb' 64 8 = 0x20#8 →
      (t.extractLsb' 8 56 ≠ 0#56 ∨ 5 < (t.extractLsb' 0 8).toNat) →
      decode (.host t) = .ok (.wr 0x20 (t.extractLsb' 0 64))) ∧
    (∀ u : StageCode, 1 ≤ u.toNat → u.toNat ≤ 11 → ∃ i, decode (.stage u) = .ok i ∧ stageOps[u.toNat - 1]? = some i) ∧
    ∀ u : StageCode, u.toNat = 0 ∨ 12 ≤ u.toNat → decode (.stage u) = .error (.notAnOperation u)

/-- A few words written out from the formats of R90 to R93, and what they are. -/
def Obligations.DecodeSpecWords : Prop :=
  decode (.host 0x01700000000000000AB) = .ok (.rd 0x17) ∧
    decode (.host 0x1013FD3333333333333) = .ok (.wr 0x01 0x3FD3333333333333) ∧
    decode (.host 0x1200000000000000003) = .ok .arm ∧
    decode (.host 0x1200000000000000006) = .ok (.wr 0x20 6) ∧
    decode (.host 0x1200000000000000105) = .ok (.wr 0x20 0x105) ∧
    decode (.stage 0x7) = .ok .filt ∧
    decode (.stage 0xC) = .error (.notAnOperation 0xC)

/-! The machine. -/

/-- A step with a transaction at the port executes the instruction the transaction decodes to, and takes it off the port.
The list of waiting inputs is the model's (log 1). -/
def Obligations.StepRunsTransaction : Prop :=
  ∀ (s : State) (t : HostWord) (rest : List HostInput) (i : Instr),
    s.pending = .transaction t :: rest → decode (.host t) = .ok i → i.wellFormed = true →
      step s = exec i { s with pending := rest }

/-- A step with STEP's transaction at the port and no fault latched executes the stage operation whose word stands in the
hardwired program at `SP` (R27, R356; the port is log 1's). -/
def Obligations.StepRunsStageWord : Prop :=
  ∀ (s : State) (rest : List HostInput) (i : Instr),
    s.pending = .transaction (hostWord true 0x20 4) :: rest → s.flt = none → decode (programWord s.sp) = .ok i →
      step s = exec i { s with pending := rest }

/-- With nothing at the port no state changes (R350); power-on reset leaves what R40 says (logs 1 and 3: the port). -/
def Obligations.IdleAndPowerOn : Prop :=
  (∀ s : State, s.pending = [] → step s = .next s) ∧
    ∀ (s : State) (rest : List HostInput), s.pending = .powerOn :: rest →
      ∃ t, step s = .next t ∧ (∀ k : Fin 26, t.p[k] = .unwritten) ∧ t.sp = 0 ∧ t.flt = none ∧ t.buf = .none ∧
        t.bufIdx = 0 ∧ t.entropyPos = s.entropyPos ∧ t.maxLen = s.maxLen ∧ t.pending = rest ∧
        statusWord t = 0 ∧ causeWord t = 0 ∧ stageWord t = 0 ∧ bufLenWord t = 0 ∧ bufKindWord t = 0

/-! Host transactions. -/

/-- While a fault is latched: every write but RESET's own word changes nothing, every command but RESET changes nothing,
reads of mapped registers work, and a read of `BUFDATA` or of an unmapped address returns 0 and raises nothing (R361).
That a stage operation executed as an instruction of its own does nothing there is the model's reading (log 13, DEDUCED) of
R411's "the block executes nothing"; a stage operation is no transaction. -/
def Obligations.FaultedBlock : Prop :=
  causeTable ∧ ∀ (s : State) (f : FaultRecord), s.flt = some f →
    (∀ (addr : RegAddr) (data : Word), ¬(addr = 0x20 ∧ data = 1) → exec (.wr addr data) s = .next s) ∧
      (exec (.wr 0x20 1) s = exec .reset s) ∧
      (∀ i ∈ [Instr.nop, .loaddef, .arm, .step, .run] ++ stageOps, exec i s = .next s) ∧
      ∀ addr : RegAddr, ∃ (t : State) (w : Word), exec (.rd addr) s = .next t ∧
        t = { s with answer := some w, freeReads := t.freeReads } ∧
        (∀ (k : Fin 26) (v : Word), addr.toNat = k.val → s.p[k] = .written v → w = v) ∧
        (addr = 0x20 → w = 0) ∧
        (addr = 0x21 → w = 4) ∧
        (addr = 0x22 → w.extractLsb' 0 8 = causeCode f.cause ∧ w.extractLsb' 8 8 = f.stage.setWidth 8 ∧
          w.extractLsb' 16 8 = f.info ∧ w.extractLsb' 24 40 = 0) ∧
        (addr = 0x23 → w.toNat = s.sp.toNat) ∧
        (addr = 0x24 → w = BitVec.ofNat 64 (bufLen s.buf)) ∧
        (addr = 0x25 → w = (bufKindCode s.buf).setWidth 64) ∧
        (addr = 0x26 → w = s.bufIdx) ∧
        (addr = 0x27 ∨ unmappedAddr addr → w = 0)

/-- The word each read returns when no fault is latched, and that only a faulting read changes the block (R360).
`answer` is where the port holds the word (log 2); `freeReads` counts the free words of unwritten registers (log 7). -/
def Obligations.ReadTable : Prop :=
  ∀ (s : State) (addr : RegAddr), s.flt = none →
    ∃ (t : State) (w : Word), exec (.rd addr) s = .next t ∧
      t = { s with answer := some w, freeReads := t.freeReads, flt := t.flt } ∧
      (∀ k : Fin 26, addr.toNat = k.val → t.flt = none ∧ ∀ v, s.p[k] = .written v → w = v) ∧
      (addr = 0x20 → t.flt = none ∧ w = 0) ∧
      (addr = 0x21 → t.flt = none ∧
        w.toNat = (if 1 ≤ s.sp.toNat ∧ s.sp.toNat ≤ 11 then 1 else 0) + (if s.sp.toNat = 12 then 2 else 0)) ∧
      (addr = 0x22 → t.flt = none ∧ w = 0) ∧
      (addr = 0x23 → t.flt = none ∧ w.toNat = s.sp.toNat) ∧
      (addr = 0x24 → t.flt = none ∧ w = BitVec.ofNat 64 (bufLen s.buf)) ∧
      (addr = 0x25 → t.flt = none ∧
        w = (match s.buf with | .none => 0 | .track _ => 1 | .itrack _ => 2 | .signal _ => 3 | .pcm _ => 4)) ∧
      (addr = 0x26 → t.flt = none ∧ w = s.bufIdx) ∧
      (addr = 0x27 → bufWindow s.buf s.ps.sampleSize s.bufIdx.toNat = none →
        t.flt = some ⟨.badRegisterAccess, s.sp, 0x27⟩ ∧ w = 0) ∧
      (addr = 0x27 → ∀ v, bufWindow s.buf s.ps.sampleSize s.bufIdx.toNat = some v → t.flt = none ∧ w = v) ∧
      (unmappedAddr addr → t.flt = some ⟨.badRegisterAccess, s.sp, addr⟩ ∧ w = 0)

/-- The buffer read window (R65): what a read of `BUFDATA` returns for each kind, as numbers; the read has no side effect
and repeating it returns the same word; a write to `BUFIDX` stores any word and nothing else. -/
def Obligations.BufferWindow : Prop :=
  (∀ s : State, s.flt = none →
    ∃ (t : State) (w : Word), exec (.rd 0x27) s = .next t ∧ t = { s with answer := some w, flt := t.flt } ∧
      (s.buf = .none ∨ bufLen s.buf ≤ s.bufIdx.toNat → t.flt = some ⟨.badRegisterAccess, s.sp, 0x27⟩ ∧ w = 0) ∧
      (∀ (l : List F64) (x : F64), s.buf = .track l ∨ s.buf = .signal l → l[s.bufIdx.toNat]? = some x →
        t.flt = none ∧ w = x) ∧
      (∀ (l : List Int) (x : Int), s.buf = .itrack l → l[s.bufIdx.toNat]? = some x →
        t.flt = none ∧ (-(2 : Int) ^ 63 ≤ x → x < (2 : Int) ^ 63 → w.toInt = x)) ∧
      (∀ (l : List Int) (x : Int), s.buf = .pcm l → l[s.bufIdx.toNat]? = some x → s.ps.sampleSize = 8 →
        t.flt = none ∧ (0 ≤ x → x ≤ 255 → (w.toNat : Int) = x)) ∧
      (∀ (l : List Int) (x : Int), s.buf = .pcm l → l[s.bufIdx.toNat]? = some x → s.ps.sampleSize = 16 →
        t.flt = none ∧ (-32768 ≤ x → x ≤ 32767 → w.toInt = x)) ∧
      (t.flt = none → exec (.rd 0x27) t = .next t)) ∧
    ∀ (s : State) (data : Word), s.flt = none → exec (.wr 0x26 data) s = .next { s with bufIdx := data }

/-- What a write does when no fault is latched, by address (R359). -/
def Obligations.WriteTable : Prop :=
  ∀ (s : State) (addr : RegAddr) (data : Word), s.flt = none →
    (∀ k : Fin 26, addr.toNat = k.val → ∃ t, exec (.wr addr data) s = .next t ∧ t = { s with p := t.p } ∧
      t.p[k] = .written data ∧ ∀ j : Fin 26, j ≠ k → t.p[j] = s.p[j]) ∧
    (addr = 0x20 → ∀ i, [Instr.nop, .reset, .loaddef, .arm, .step, .run][data.toNat]? = some i →
      exec (.wr addr data) s = exec i s) ∧
    (addr = 0x20 → 5 < data.toNat → exec (.wr addr data) s = .next (faulted s .illegalCommand (data.extractLsb' 0 8))) ∧
    (addr = 0x26 → exec (.wr addr data) s = .next { s with bufIdx := data }) ∧
    (unmappedAddr addr ∨ readOnlyAddr addr → exec (.wr addr data) s = .next (faulted s .badRegisterAccess addr))

/-- An illegal command raises IllegalCommand with its low byte and executes no part of any command (R407). -/
def Obligations.IllegalCommand : Prop :=
  ∀ (s : State) (data : Word), s.flt = none → (6 ≤ (data.extractLsb' 0 8).toNat ∨ data.extractLsb' 8 56 ≠ 0#56) →
    exec (.wr 0x20 data) s = .next { s with flt := some ⟨.illegalCommand, s.sp, data.extractLsb' 0 8⟩ }

/-! Commands. -/

/-- NOP changes no state, faulted or not, and its word is opcode 0x00 (R351). -/
def Obligations.NopChangesNothing : Prop :=
  decode (.host (hostWord true 0x20 0)) = .ok .nop ∧ ∀ s : State, exec .nop s = .next s

/-- RESET in every state (R352): `SP`, `FLT`, `BUF`, `BUFIDX` cleared, the parameter registers kept, the status views 0;
and no other transaction clears `FLT`. `PS` and the stage-local state become unspecified, so nothing is said of them. -/
def Obligations.ResetCommand : Prop :=
  decode (.host (hostWord true 0x20 1)) = .ok .reset ∧
    (∀ s : State, ∃ t, exec .reset s = .next t ∧ t.sp = 0 ∧ t.flt = none ∧ t.buf = .none ∧ t.bufIdx = 0 ∧ t.p = s.p ∧
      t.entropyPos = s.entropyPos ∧ t.maxLen = s.maxLen ∧ t.pending = s.pending ∧ t.answer = s.answer ∧
      t.freeReads = s.freeReads ∧ statusWord t = 0 ∧ causeWord t = 0) ∧
    ∀ (i : Instr) (s t : State), s.flt ≠ none → exec i s = .next t → t.flt = none → isCommand i .reset 1

/-- LOADDEF (R353): the table, written out, and nothing else: not the three registers it leaves, not `PS`, `SP`, `BUF`. -/
def Obligations.LoaddefTable : Prop :=
  decode (.host (hostWord true 0x20 2)) = .ok .loaddef ∧
    ∀ s : State, s.flt = none → ∃ t, exec .loaddef s = .next t ∧ t = { s with p := t.p } ∧
      (∀ k : Fin 26, k.val = 0x00 ∨ k.val = 0x03 ∨ (0x05 ≤ k.val ∧ k.val ≤ 0x10) ∨ (0x12 ≤ k.val ∧ k.val ≤ 0x15) ∨
        k.val = 0x17 → t.p[k] = .written 0) ∧
      t.p[(0x01 : Fin 26)] = .written 0x3FD3333333333333 ∧
      t.p[(0x02 : Fin 26)] = .written 0x3FD999999999999A ∧
      t.p[(0x04 : Fin 26)] = .written 0x3FD3333333333333 ∧
      t.p[(0x11 : Fin 26)] = .written 0x3FF0000000000000 ∧
      ∀ k : Fin 26, k.val = 0x16 ∨ k.val = 0x18 ∨ k.val = 0x19 → t.p[k] = s.p[k]

/-- ARM (R354) with its checks in their order (R401): the lowest unwritten register, then the lowest non-finite one of the
first 23, then the rate, then the size; if all pass, every field is latched, the buffer is discarded, `SP` is 1 and
`STATUS` reads ARMED. -/
def Obligations.ArmCommand : Prop :=
  decode (.host (hostWord true 0x20 3)) = .ok .arm ∧ ∀ s : State, s.flt = none →
    (∀ k : Fin 26, s.p[k] = .unwritten → (∀ j : Fin 26, j < k → s.p[j] ≠ .unwritten) →
      exec .arm s = .next (faulted s .paramUnwritten (BitVec.ofNat 8 k.val))) ∧
    ∀ w : Fin 26 → Word, (∀ k : Fin 26, s.p[k] = .written (w k)) →
      (∀ k : Fin 26, k.val < 23 → isFinite (w k) = false → (∀ j : Fin 26, j < k → isFinite (w j) = true) →
        exec .arm s = .next (faulted s .nonFiniteParam (BitVec.ofNat 8 k.val))) ∧
      ((∀ k : Fin 26, k.val < 23 → isFinite (w k) = true) →
        ((w 0x18).toNat = 0 ∨ 44100 < (w 0x18).toNat → exec .arm s = .next (faulted s .badSampleRate 0x18)) ∧
        (1 ≤ (w 0x18).toNat → (w 0x18).toNat ≤ 44100 →
          ((w 0x19).toNat ≠ 8 → (w 0x19).toNat ≠ 16 → exec .arm s = .next (faulted s .badSampleSize 0x19)) ∧
          ((w 0x19).toNat = 8 ∨ (w 0x19).toNat = 16 →
            ∃ t, exec .arm s = .next t ∧ statusWord t = 1 ∧ t =
              { s with
                sp := 1
                buf := .none
                ps :=
                  { envAttack := w 0x00, envSustain := w 0x01, envDecay := w 0x02, envPunch := w 0x03,
                    baseFreq := w 0x04, freqLimit := w 0x05, freqRamp := w 0x06, freqDramp := w 0x07,
                    vibStrength := w 0x08, vibSpeed := w 0x09, arpMod := w 0x0A, arpSpeed := w 0x0B,
                    duty := w 0x0C, dutyRamp := w 0x0D, repeatSpeed := w 0x0E, phaOffset := w 0x0F,
                    phaRamp := w 0x10, lpfFreq := w 0x11, lpfRamp := w 0x12, lpfResonance := w 0x13,
                    hpfFreq := w 0x14, hpfRamp := w 0x15, soundVol := w 0x16, waveType := (w 0x17).toNat,
                    sampleRate := (w 0x18).toNat, sampleSize := (w 0x19).toNat } })))

/-- STEP and RUN where nothing is armed or the run is complete raise BadSequence(SP); the other commands never do (R409). -/
def Obligations.BadSequence : Prop :=
  (∀ s : State, s.flt = none → s.sp.toNat = 0 ∨ s.sp.toNat = 12 →
    exec .step s = .next (faulted s .badSequence (s.sp.setWidth 8)) ∧
      exec .run s = .next (faulted s .badSequence (s.sp.setWidth 8))) ∧
    ∀ (s : State) (i : Instr), s.flt = none → i ∈ [Instr.arm, .reset, .loaddef, .nop] →
      ∃ t, exec i s = .next t ∧ ∀ f, t.flt = some f → f.cause ≠ .badSequence

/-- STEP executes the one stage operation at `SP`: the instruction of the hardwired program there (R356, R358, R27). -/
def Obligations.StepExecutesStage : Prop :=
  decode (.host (hostWord true 0x20 4)) = .ok .step ∧
    ∀ (s : State) (i : Instr), s.flt = none → 1 ≤ s.sp.toNat → s.sp.toNat ≤ 11 → decode (programWord s.sp) = .ok i →
      exec .step s = exec i s

/-- STEP where the stage at `SP` has what it needs: the stage completes, `SP` moves up by one, and nothing but `BUF`,
the dead stage-local registers and, for Noise in OSC, the entropy position changes (R28, R356). -/
def Obligations.StepCompletes : Prop :=
  ∀ s : State, s.flt = none → stageReady s = true →
    ∃ t, exec .step s = .next t ∧ t.sp = s.sp + 1 ∧ t.flt = none ∧ StageFrame s t ∧
      (s.sp ≠ 6 ∨ s.ps.waveType ≠ 3 → t.entropyPos = s.entropyPos)

/-- The kind and the length each stage leaves, from the kind it requires (R31). -/
def Obligations.StageKinds : Prop :=
  ∀ s t : State, s.flt = none → 1 ≤ s.sp.toNat → s.sp.toNat ≤ 11 → bufMatches s.sp s.buf = true →
    exec .step s = .next t → t.flt = none →
    bufMatches t.sp t.buf = true ∧
      (s.sp = 1 → ∀ la ls ld : Int, phaseLens 44100 s.ps = some (la, ls, ld) → bufLen t.buf ≤ (la + ls + ld).toNat) ∧
      (s.sp ≠ 1 → s.sp ≠ 5 → s.sp ≠ 9 → bufLen t.buf = bufLen s.buf) ∧
      (s.sp = 5 → bufLen t.buf = 8 * bufLen s.buf) ∧
      (s.sp = 9 → bufLen t.buf = bufLen s.buf / (8 * (44100 / s.ps.sampleRate)))

/-- RUN is some number of STEPs, at most one for each stage left, and it ends complete at `SP` 12 or faulted (R357, R364:
how a run is divided into STEP and RUN commands does not matter). -/
def Obligations.RunIsSteps : Prop :=
  decode (.host (hostWord true 0x20 5)) = .ok .run ∧ ∀ s : State, s.flt = none → 1 ≤ s.sp.toNat → s.sp.toNat ≤ 11 →
    ∃ (k : Nat) (t : State), 1 ≤ k ∧ k ≤ 12 - s.sp.toNat ∧ exec .run s = .next t ∧ steps k s = .next t ∧
      ((t.sp = 12 ∧ t.flt = none) ∨ t.flt.isSome = true)

/-- RUN completes, at `SP` 12 and with DONE, where every stage it comes to has what it needs (R357). -/
def Obligations.RunCompletes : Prop :=
  ∀ s : State, s.flt = none → 1 ≤ s.sp.toNat → s.sp.toNat ≤ 11 →
    (∀ (k : Nat) (u : State), k < 12 - s.sp.toNat → steps k s = .next u → stageReady u = true) →
    ∃ t, exec .run s = .next t ∧ t.sp = 12 ∧ t.flt = none ∧ statusWord t = 2 ∧ StageFrame s t ∧
      (s.ps.waveType ≠ 3 → t.entropyPos = s.entropyPos)

/-- A whole RUN of a sound of length 0: it completes with an empty PCM buffer (R166 (a)).
The Noise shape makes its 32 initial draws also then (R231 (a)). -/
def Obligations.RunEmptySound : Prop :=
  ∀ s : State, s.flt = none → s.sp = 1 →
    phaseLens 44100 s.ps = some (0, 0, 0) → phaseLens s.ps.sampleRate s.ps = some (0, 0, 0) →
    (feq s.ps.repeatSpeed lit0 = true ∨ ∃ r, floorI (delayArg s.ps.repeatSpeed) = some r) →
    (feq s.ps.arpMod lit0 = true ∨ ∃ a, floorI (delayArg s.ps.arpSpeed) = some a) →
    s.ps.waveType ≤ 5 →
    ∃ t, exec .run s = .next t ∧ t.sp = 12 ∧ t.flt = none ∧ t.buf = .pcm [] ∧ StageFrame s t ∧
      t.entropyPos = s.entropyPos + (if s.ps.waveType = 3 then 32 else 0)

/-! Faults. -/

/-- Faults are precise (R410): what raised it left `P`, `PS`, `BUF`, `BUFIDX`, `SP` and the entropy position as they were,
`STATUS` reads 4 and `CAUSE` reads {info, SP, code} with the codes of R400's table; a RUN that faults has completed its
earlier stages and is otherwise its last STEP. -/
def Obligations.FaultsPrecise : Prop :=
  causeTable ∧
  (∀ (i : Instr) (s t : State) (f : FaultRecord), ¬ isCommand i .run 5 → s.flt = none → exec i s = .next t →
    t.flt = some f →
    f.stage = s.sp ∧ t.p = s.p ∧ t.ps = s.ps ∧ t.buf = s.buf ∧ t.bufIdx = s.bufIdx ∧ t.sp = s.sp ∧
      t.entropyPos = s.entropyPos ∧ statusWord t = 4 ∧
      causeWord t = (f.info ++ (f.stage.setWidth 8 : BitVec 8) ++ causeCode f.cause).setWidth 64) ∧
    ∀ (s t : State), s.flt = none → exec .run s = .next t → t.flt.isSome = true →
      ∃ (k : Nat) (u : State), steps k s = .next u ∧ u.flt = none ∧ exec .step u = .next t

/-! FREQ. -/

/-- FREQ's track in closed form (R161, R163 to R165): element `k` is the period after `k + 1` steps of the recurrence, or
with a repeat period `R` the one of `k mod R`; the track ends at the first element, below `min(R, L)`, where the limit
truncates it. A computed NaN is stored with a free pattern (log 8). -/
def Obligations.FreqTrack : Prop :=
  ∀ (s : State) (la ls ld : Int) (rep : Option Nat), s.flt = none →
    phaseLens 44100 s.ps = some (la, ls, ld) → 8 * (la + ls + ld) ≤ (s.maxLen : Int) →
    ((feq s.ps.repeatSpeed lit0 = true ∧ rep = none) ∨
      (feq s.ps.repeatSpeed lit0 = false ∧
        ∃ r, floorI (delayArg s.ps.repeatSpeed) = some r ∧ 0 < r ∧ rep = some r.toNat)) →
    ∃ (t : State) (l : List F64), exec .freq s = .next t ∧ Completes s t 2 (.track l) ∧ t.entropyPos = s.entropyPos ∧
      ((∀ k, k < (rep.getD (la + ls + ld).toNat) → k < (la + ls + ld).toNat → truncatesAt s.ps k = false) →
        l.length = (la + ls + ld).toNat ∧
          ∀ k, k < (la + ls + ld).toNat →
            l[k]? = some (stored s (match rep with | none => k | some r => k % r)
              (periodAt s.ps ((match rep with | none => k | some r => k % r) + 1)))) ∧
      ∀ k, k < (rep.getD (la + ls + ld).toNat) → k < (la + ls + ld).toNat → truncatesAt s.ps k = true →
        (∀ j, j < k → truncatesAt s.ps j = false) →
        l.length = k ∧ ∀ j, j < k → l[j]? = some (stored s j (periodAt s.ps (j + 1)))

/-- The length property the source states for FREQ, for every repeat speed when `freq_limit` is not above 0, and the
worked example of the same rule (R167). -/
def Obligations.FreqLength : Prop :=
  (∀ (s : State) (la ls ld : Int), s.flt = none →
    phaseLens 44100 s.ps = some (la, ls, ld) → 8 * (la + ls + ld) ≤ (s.maxLen : Int) →
    fgt s.ps.freqLimit lit0 = false →
    (feq s.ps.repeatSpeed lit0 = true ∨ ∃ r, floorI (delayArg s.ps.repeatSpeed) = some r ∧ 0 < r) →
    ∃ (t : State) (l : List F64), exec .freq s = .next t ∧ Completes s t 2 (.track l) ∧
      (l.length : Int) = max 0 (la + ls + ld)) ∧
    ∀ s : State, s.flt = none → 200000 ≤ s.maxLen →
      s.ps.envAttack = 0 → s.ps.envSustain = 0x3FD3333333333333 → s.ps.envDecay = 0x3FD999999999999A →
      s.ps.baseFreq = 0x3FD3333333333333 → s.ps.freqLimit = 0 → s.ps.freqRamp = 0 → s.ps.freqDramp = 0 →
      s.ps.repeatSpeed = 0 →
      Machine.sq s.ps.envSustain = 0x3FB70A3D70A3D70A ∧ fmul lit100000 (Machine.sq s.ps.envSustain) = 0x40C1940000000000 ∧
        fmul lit100000 (Machine.sq s.ps.envDecay) = 0x40CF400000000002 ∧
        phaseLens 44100 s.ps = some (0, 9000, 16000) ∧
        ∃ t, exec .freq s = .next t ∧ Completes s t 2 (.track (List.replicate 25000 0x40912B9AB9AB9ABA))

/-- Where FREQ faults (R161, R162, R415): an undefined length, then a track that does not fit, then an undefined `R`;
and `phaseLen` at every rate is R161's expression, with BadFloatToInt(0) where its floor is not defined. -/
def Obligations.FreqFaults : Prop :=
  (∀ (rate : Nat) (p : F64),
    phaseLen rate p =
      match floorI (fmul (fdiv (fmul (toF rate) lit100000) lit44100) (fmul p p)) with
      | some n => .ok n
      | none => .error (.badFloatToInt, 0)) ∧
  ∀ s : State, s.flt = none →
    (phaseLens 44100 s.ps = none → ∃ t, exec .freq s = .next t ∧ Faults s t .badFloatToInt 0) ∧
    ∀ la ls ld : Int, phaseLens 44100 s.ps = some (la, ls, ld) →
      ((s.maxLen : Int) < 8 * (la + ls + ld) → ∃ t, exec .freq s = .next t ∧ Faults s t .lengthOverflow 0) ∧
      (8 * (la + ls + ld) ≤ (s.maxLen : Int) → feq s.ps.repeatSpeed lit0 = false →
        floorI (delayArg s.ps.repeatSpeed) = none → ∃ t, exec .freq s = .next t ∧ Faults s t .badFloatToInt 0)

/-- The repeat period of FREQ and the cutoff index of ARP are at least 32 wherever they are defined (R161, R181 (b)). -/
def Obligations.DelayAtLeast32 : Prop :=
  ∀ (x : F64) (r : Int), floorI (delayArg x) = some r → 32 ≤ r

/-! ARP and VIB. -/

/-- ARP (R180): the two identities, the multiplication of every element from `artime` on by the factor of the sign of
`arp_mod`, and the fault where `artime` is not defined. -/
def Obligations.ArpFactor : Prop :=
  decode (.stage 0x2) = .ok .arp ∧ ∀ (s : State) (l : List F64), s.flt = none → s.buf = .track l →
    (feq s.ps.arpMod lit0 = true →
      ∃ t, exec .arp s = .next t ∧ Completes s t 3 (.track l) ∧ t.entropyPos = s.entropyPos) ∧
    (feq s.ps.arpMod lit0 = false → floorI (delayArg s.ps.arpSpeed) = none →
      ∃ t, exec .arp s = .next t ∧ Faults s t .badFloatToInt 0) ∧
    ∀ artime : Int, feq s.ps.arpMod lit0 = false → floorI (delayArg s.ps.arpSpeed) = some artime →
      ∃ (t : State) (y : List F64), exec .arp s = .next t ∧ Completes s t 3 (.track y) ∧ t.entropyPos = s.entropyPos ∧
        y.length = l.length ∧ ((l.length : Int) ≤ artime → y = l) ∧
        ∀ (i : Nat) (x : F64), l[i]? = some x →
          y[i]? = some (if (i : Int) < artime then x
            else stored s i (fmul x
              (if fge s.ps.arpMod lit0 then fsub lit1 (fmul (Machine.sq s.ps.arpMod) lit0_9)
               else fadd lit1 (fmul (Machine.sq s.ps.arpMod) lit10))))

/-- VIB (R183): the identity, or every element times `1 + vamp * SIN(vphase)`, the phase advanced before it is used. -/
def Obligations.VibModulates : Prop :=
  decode (.stage 0x3) = .ok .vib ∧ ∀ (s : State) (l : List F64), s.flt = none → s.buf = .track l →
    ∃ (t : State) (y : List F64), exec .vib s = .next t ∧ Completes s t 4 (.track y) ∧ t.entropyPos = s.entropyPos ∧
      y.length = l.length ∧
      (feq s.ps.vibSpeed lit0 = true ∨ feq s.ps.vibStrength lit0 = true → y = l) ∧
      (feq s.ps.vibSpeed lit0 = false → feq s.ps.vibStrength lit0 = false →
        ∀ (i : Nat) (x : F64), l[i]? = some x →
          y[i]? = some (stored s i (fmul x (fadd lit1
            (fmul (fmul s.ps.vibStrength litHalf) (Config.choices.sin (vibPhase s.ps i)))))))

/-! QUANT and SUPER. -/

/-- QUANT (R200): every element truncated and raised to at least 8, or the fault where one cannot be converted.
That an element of exactly -2^63 converts (R124) is the model's choice (log 27): R200's line of exceptions would fault on it. -/
def Obligations.QuantTruncates : Prop :=
  decode (.stage 0x4) = .ok .quant ∧ ∀ (s : State) (l : List F64), s.flt = none → s.buf = .track l →
    ((∀ x ∈ l, (truncI x).isSome = true) →
      ∃ (t : State) (q : List Int), exec .quant s = .next t ∧ Completes s t 5 (.itrack q) ∧
        t.entropyPos = s.entropyPos ∧ q.length = l.length ∧
        ∀ (i : Nat) (x : F64) (v : Int), l[i]? = some x → truncI x = some v → q[i]? = some (max 8 v)) ∧
    ((∃ x ∈ l, truncI x = none) → ∃ t, exec .quant s = .next t ∧ Faults s t .badFloatToInt 0)

/-- SUPER (R203): `S` = 8 times the length, element `u` the entry `u div 8`, values unchanged. -/
def Obligations.SuperReplicates : Prop :=
  decode (.stage 0x5) = .ok .super ∧ ∀ (s : State) (l : List Int), s.flt = none → s.buf = .itrack l →
    ∃ (t : State) (e : List Int), exec .super s = .next t ∧ Completes s t 6 (.itrack e) ∧
      t.entropyPos = s.entropyPos ∧ e.length = 8 * l.length ∧ ∀ u : Nat, u < 8 * l.length → e[u]? = l[u / 8]?

/-! OSC. -/

/-- An unrecognised wave shape faults at OSC, whatever the buffer, with its low byte as info and no draw made (R230, R405). -/
def Obligations.OscBadWaveType : Prop :=
  ∀ s : State, s.flt = none → 5 < s.ps.waveType →
    ∃ t, exec .osc s = .next t ∧ Faults s t .badWaveType (BitVec.ofNat 8 (s.ps.waveType % 256))

/-- The shapes that are functions of the normalized phase alone (R224, R225, R227, R228), over the phase counter's own
recurrence (R220, R221); no draw is made (R222). -/
def Obligations.OscShapes : Prop :=
  ∀ (s : State) (l : List Int), s.flt = none → s.buf = .itrack l →
    s.ps.waveType = 1 ∨ s.ps.waveType = 2 ∨ s.ps.waveType = 4 ∨ s.ps.waveType = 5 →
    ∃ (t : State) (y : List F64), exec .osc s = .next t ∧ Completes s t 7 (.signal y) ∧ t.entropyPos = s.entropyPos ∧
      y.length = l.length ∧ ∀ u : Nat, u < l.length →
        (s.ps.waveType = 1 → y[u]? = some (stored s u (fsub lit1 (fmul lit2 (normPhase l u))))) ∧
        (s.ps.waveType = 2 →
          y[u]? = some (stored s u (Config.choices.sin (fmul 0x401921FB54442D18 (normPhase l u))))) ∧
        (s.ps.waveType = 4 → y[u]? = some (stored s u (fsub (fabs (fsub lit1 (fmul lit2 (normPhase l u)))) lit1))) ∧
        (s.ps.waveType = 5 → y[u]? = some (stored s u
          (fsub (fabs (fsub lit1 (fmul (fmul (normPhase l u) (normPhase l u)) lit2))) lit1)))

/-- The Square shape (R223): 0.5 while the normalized phase is below the duty state, which is ramped and clamped before
each comparison and never reset (R226), else -0.5. -/
def Obligations.OscSquare : Prop :=
  ∀ (s : State) (l : List Int), s.flt = none → s.buf = .itrack l → s.ps.waveType = 0 →
    ∃ (t : State) (y : List F64), exec .osc s = .next t ∧ Completes s t 7 (.signal y) ∧ t.entropyPos = s.entropyPos ∧
      y.length = l.length ∧ ∀ u : Nat, u < l.length →
        y[u]? = some (if flt (normPhase l u) (dutyAt Config.choices s.ps (u + 1)) then 0x3FE0000000000000
          else 0xBFE0000000000000)

/-- The Noise shape (R222, R229): 32 draws on entry and 32 more at every wrap, before the element's output is read; the
output of element `u` is the draw of the latest fill at the index `floorI(fp * 32.0)`. -/
def Obligations.OscNoise : Prop :=
  ∀ (s : State) (l : List Int), s.flt = none → s.buf = .itrack l → s.ps.waveType = 3 →
    ∃ (t : State) (y : List F64), exec .osc s = .next t ∧ Completes s t 7 (.signal y) ∧
      t.entropyPos = s.entropyPos + 32 * (1 + wrapCount l l.length) ∧
      y.length = l.length ∧ ∀ (u : Nat) (i : Int), u < l.length →
        floorI (fmul (normPhase l u) lit32) = some i → 0 ≤ i → i < 32 →
        y[u]? = some (drawAt (s.entropyPos + 32 * wrapCount l (u + 1) + i.toNat))

/-- The phase counter (R221): incremented, reduced modulo the current period when it reaches it, and so below the period;
for periods from 8 to 2^53 (R125, R201) the noise index of every element is 0 to 31 (R229). -/
def Obligations.OscPhase : Prop :=
  (∀ (c : Config.Choices) (draw : Nat → F64) (shape : WaveShape) (r : OscRegs) (pos : Nat) (period : Int),
    0 ≤ r.ophase → 1 ≤ period →
    (oscStep c draw shape r pos period).1.ophase = (if period ≤ r.ophase + 1 then (r.ophase + 1) % period else r.ophase + 1) ∧
      0 ≤ (oscStep c draw shape r pos period).1.ophase ∧ (oscStep c draw shape r pos period).1.ophase < period) ∧
    ∀ (l : List Int) (u : Nat), u < l.length → (∀ p ∈ l, 8 ≤ p ∧ p < 2 ^ 53) →
      ∃ i : Int, floorI (fmul (normPhase l u) lit32) = some i ∧ 0 ≤ i ∧ i < 32

/-! FILT. -/

/-- FILT as R250 to R252 write it: the constants and start values, the five lines of the step in their order, and the
element-by-element output. -/
def Obligations.FiltRecurrence : Prop :=
  decode (.stage 0x7) = .ok .filt ∧ (∀ (c : Config.Choices) (ps : ParamSet),
    let r := filtInit c ps
    let w := fmul (fmul (fmul ps.lpfFreq ps.lpfFreq) ps.lpfFreq) lit0_1
    let dmp := fmul (fdiv lit5 (fadd lit1 (fmul (fmul ps.lpfResonance ps.lpfResonance) lit20))) (fadd lit0_01 w)
    r.fltp = 0 ∧ r.fltdp = 0 ∧ r.yOut = 0 ∧ r.fltw = w ∧ r.fltwD = fadd lit1 (fmul ps.lpfRamp lit0_0001) ∧
      r.fltdmp = (if fgt dmp lit0_8 then lit0_8 else dmp) ∧ r.bypass = !fne ps.lpfFreq lit1 ∧
      r.flthp = fmul (fmul ps.hpfFreq ps.hpfFreq) lit0_1 ∧
      r.flthd = c.powr (fadd lit1 (fmul ps.hpfRamp lit0_0003)) 0x3FC0000000000000) ∧
    (∀ (r : FiltRegs) (x : F64),
      let w := clamp (fmul r.fltw r.fltwD) lit0 lit0_1
      let v := fadd r.fltdp (fmul (fsub x r.fltp) w)
      let dp := if r.bypass then lit0 else fsub v (fmul v r.fltdmp)
      let p := if r.bypass then x else fadd r.fltp dp
      let h := clamp (fmul r.flthp r.flthd) lit1em5 lit0_1
      let q := fadd r.yOut (fsub p r.fltp)
      filtStep r x =
        { r with prevFltp := r.fltp, fltw := w, fltdp := dp, fltp := p, flthp := h, yOut := fsub q (fmul q h) }) ∧
    ∀ (s : State) (l : List F64), s.flt = none → s.buf = .signal l →
      ∃ (t : State) (y : List F64), exec .filt s = .next t ∧ Completes s t 8 (.signal y) ∧
        t.entropyPos = s.entropyPos ∧ y.length = l.length ∧ ∀ u : Nat, u < l.length →
          y[u]? = some (stored s u (filtAfter Config.choices s.ps l (u + 1)).yOut)

/-- The bypass (R254): taken for the pattern of exactly 1.0 and for no other; the low-pass section is then the identity
and its velocity `+0`, while the low-pass coefficient still advances and is clamped. -/
def Obligations.FiltBypass : Prop :=
  (∀ (c : Config.Choices) (ps : ParamSet), (filtInit c ps).bypass = true ↔ ps.lpfFreq = 0x3FF0000000000000) ∧
    ∀ (c : Config.Choices) (ps : ParamSet) (l : List F64) (u : Nat) (x : F64), ps.lpfFreq = 0x3FF0000000000000 →
      l[u]? = some x →
      (filtAfter c ps l (u + 1)).fltp = x ∧ (filtAfter c ps l (u + 1)).fltdp = 0 ∧
        (filtAfter c ps l (u + 1)).prevFltp = (if u = 0 then 0 else l.getD (u - 1) 0) ∧
        (filtAfter c ps l (u + 1)).fltw =
          clamp (fmul (filtAfter c ps l u).fltw (filtInit c ps).fltwD) lit0 lit0_1

/-! PHASER. -/

/-- The offset of R293 is `min(|truncI(f)|, PHASER_LEN - 1)`, raised where the conversion is not defined; and the circular
buffer is a delay line (R294): element `u` is the input plus the input `offset` elements ago, `+0` before the first.
For every configuration of the two derivations of R292. An accumulator of exactly -2^63 converts, as R293 says (log 27). -/
def Obligations.PhaserDelay : Prop :=
  (∀ f : F64, phaserOffset f =
    match truncI f with
    | some i => .ok (min i.natAbs 1023)
    | none => .error (.badFloatToInt, 0)) ∧
    ∀ (c : Config.Choices) (nan : Nat → F64) (ps : ParamSet) (l : List F64),
      ((∀ u : Nat, u < l.length → (truncI (phaserPhase c ps u)).isSome = true) →
        ∃ y : List F64, phaserStage c nan ps (.signal l) = .ok (.signal y) ∧ y.length = l.length ∧
          ∀ (u : Nat) (x : F64) (i : Int), l[u]? = some x → truncI (phaserPhase c ps u) = some i →
            y[u]? = some (if isNaN (fadd x (delayed l u (offsetOf i))) then nan u
              else fadd x (delayed l u (offsetOf i)))) ∧
      ((∃ u : Nat, u < l.length ∧ truncI (phaserPhase c ps u) = none) →
        phaserStage c nan ps (.signal l) = .error (.badFloatToInt, 0))

/-- PHASER as the machine executes it (R290): the delay line of its own configuration where every offset is defined, and
where one is not the fault, with `BUF` and `SP` unchanged.
The configuration is opaque (log 10), so the second case is written as an alternative and not as a hypothesis.
That an accumulator of exactly -2^63 converts (R293, R124) is the model's choice (log 27): R290's line of exceptions would fault
on it. -/
def Obligations.PhaserExecutes : Prop :=
  decode (.stage 0x8) = .ok .phaser ∧ ∀ (s : State) (l : List F64), s.flt = none → s.buf = .signal l →
    (phaserReady Config.choices s.ps l.length = true →
      ∃ (t : State) (y : List F64), exec .phaser s = .next t ∧ Completes s t 9 (.signal y) ∧
        t.entropyPos = s.entropyPos ∧ y.length = l.length ∧
        ∀ (u : Nat) (x : F64), l[u]? = some x → ∃ i : Int, truncI (phaserPhase Config.choices s.ps u) = some i ∧
          y[u]? = some (stored s u (fadd x (delayed l u (offsetOf i))))) ∧
    (phaserReady Config.choices s.ps l.length = true ∨
      ∃ t, exec .phaser s = .next t ∧ Faults s t .badFloatToInt 0)

/-! COMPRESS, ENV and DIGIT. -/

/-- COMPRESS (R310): with `N = 8 * (44100 div sample_rate)`, `n div N` elements, each the sum of its group of `N` in
ascending order from `+0`, divided once by `toF(N)`; the incomplete group is discarded. -/
def Obligations.CompressMeans : Prop :=
  decode (.stage 0x9) = .ok .compress ∧
  ∀ (s : State) (l : List F64), s.flt = none → s.buf = .signal l → 1 ≤ s.ps.sampleRate → s.ps.sampleRate ≤ 44100 →
    let n := 8 * (44100 / s.ps.sampleRate)
    ∃ (t : State) (z : List F64), exec .compress s = .next t ∧ Completes s t 10 (.signal z) ∧
      t.entropyPos = s.entropyPos ∧ z.length = l.length / n ∧ ∀ j : Nat, j < l.length / n →
        z[j]? = some (stored s j (fdiv (((l.drop (j * n)).take n).foldl fadd lit0) (toF (n : Int))))

/-- ENV (R320, R322): attack, sustain with punch and decay at the target rate, multiplied onto the signal; the fault where
the signal is longer than the envelope, and where a length is not defined. -/
def Obligations.EnvShape : Prop :=
  decode (.stage 0xA) = .ok .env ∧ ∀ (s : State) (l : List F64), s.flt = none → s.buf = .signal l →
    (phaseLens s.ps.sampleRate s.ps = none → ∃ t, exec .env s = .next t ∧ Faults s t .badFloatToInt 0) ∧
    ∀ la ls ld : Int, phaseLens s.ps.sampleRate s.ps = some (la, ls, ld) →
      (la + ls + ld < (l.length : Int) → ∃ t, exec .env s = .next t ∧ Faults s t .envelopeOverrun 0) ∧
      ((l.length : Int) ≤ la + ls + ld →
        ∃ (t : State) (z : List F64), exec .env s = .next t ∧ Completes s t 11 (.signal z) ∧
          t.entropyPos = s.entropyPos ∧ z.length = l.length ∧
          ∀ (i : Nat) (x : F64), l[i]? = some x →
            let gain := fsub (Config.choices.exp s.ps.soundVol) lit1
            z[i]? = some (stored s i (fmul x
              (if (i : Int) < la then fmul gain (fdiv (toF i) (toF la))
               else if (i : Int) < la + ls then
                fmul gain (fadd lit1 (fmul (fmul (fsub lit1 (fdiv (toF (i - la)) (toF ls))) lit2) s.ps.envPunch))
               else fmul gain (fsub lit1 (fdiv (toF (i - la - ls)) (toF ld)))))))

/-- DIGIT (R330 with the rounding of R121, R332): the floor of the scaled value clamped to the range of the sample size, an
infinity at the end of its sign, the fault for a NaN; DONE reads 1 after it; and so every sample is in range (R131).
That an 8-bit `x` with -2^-53 < x < -2^-54 gives 127 is the model's choice (log 26, DESIGN CHOICE): R331 (d) says 128. -/
def Obligations.DigitFloorClamp : Prop :=
  decode (.stage 0xB) = .ok .digit ∧
  ∀ (s : State) (l : List F64), s.flt = none → s.buf = .signal l → s.ps.sampleSize = 8 ∨ s.ps.sampleSize = 16 →
    ((∀ x ∈ l, isNaN x = false) →
      ∃ (t : State) (q : List Int), exec .digit s = .next t ∧ Completes s t 12 (.pcm q) ∧
        t.entropyPos = s.entropyPos ∧ statusWord t = 2 ∧ q.length = l.length ∧ pcmInRange t = true ∧
        ∀ (i : Nat) (x : F64), l[i]? = some x →
          let v := if s.ps.sampleSize = 8 then fmul (fadd x lit1) lit128 else fmul x lit32768
          let lo : Int := if s.ps.sampleSize = 8 then 0 else -32768
          let hi : Int := if s.ps.sampleSize = 8 then 255 else 32767
          isNaN v = false ∧
            q[i]? = some (if isFinite v then max lo (min hi ⌊ratValue v⌋) else if signBit v then lo else hi)) ∧
    ((∃ x ∈ l, isNaN x = true) → ∃ t, exec .digit s = .next t ∧ Faults s t .badFloatToInt 0)

/-! Whole-machine rules. -/

/-- Every run starts from fresh stage state (R452): what the stage-local registers hold is immaterial to every stage. -/
def Obligations.StageLocalImmaterial : Prop :=
  ∀ (s : State) (loc : StageLocal) (i : Instr), s.flt = none → i ∈ stageOps → exec i { s with loc := loc } = exec i s

/-- What the host does between stages does not disturb a run (R24, R364): a stage, a STEP and a RUN have the same effect
whatever the parameter registers, `BUFIDX` and the port hold, and leave those as they are. -/
def Obligations.HostWritesDoNotDisturb : Prop :=
  ∀ (s t : State) (i : Instr) (p : Vector ParamCell 26) (idx : Word) (pending : List HostInput) (answer : Option Word)
    (reads : Nat), i ∈ [Instr.step, .run] ++ stageOps → exec i s = .next t →
    exec i { s with p := p, bufIdx := idx, pending := pending, answer := answer, freeReads := reads } =
      .next { t with p := p, bufIdx := idx, pending := pending, answer := answer, freeReads := reads }

/-- The entropy port is drawn from only by OSC, and only for the Noise shape, and every draw is in its range (R38). -/
def Obligations.EntropyOnlyForNoise : Prop :=
  (∀ n : Nat, fle 0xBFF0000000000000 (drawAt n) = true ∧ flt (drawAt n) 0x3FF0000000000000 = true) ∧
  ∀ (i : Instr) (s t : State), exec i s = .next t → t.entropyPos ≠ s.entropyPos →
    s.ps.waveType = 3 ∧ (i = .osc ∨ (isCommand i .step 4 ∧ s.sp = 6) ∨ (isCommand i .run 5 ∧ 1 ≤ s.sp.toNat ∧ s.sp.toNat ≤ 6))

/-- Who writes the parameters: the registers only a write to them or LOADDEF (R21), the latched set only ARM, and RESET
after which it is unspecified (R24). -/
def Obligations.WhoWritesParameters : Prop :=
  ∀ (i : Instr) (s t : State), exec i s = .next t →
    (t.p ≠ s.p → isCommand i .loaddef 2 ∨ ∃ addr data, i = .wr addr data ∧ addr.toNat < 26) ∧
      (t.ps ≠ s.ps → isCommand i .arm 3 ∨ isCommand i .reset 1)

/-- The only transaction that changes a latched fault is RESET, and it clears it (R412, R411). -/
def Obligations.OnlyResetClearsFault : Prop :=
  ∀ (i : Instr) (s t : State), s.flt ≠ none → exec i s = .next t → t.flt ≠ s.flt → isCommand i .reset 1 ∧ t.flt = none

/-- How `SP` moves (R28): to 1 by ARM, by plus one on a completed stage, to 0 by RESET, and by nothing else. -/
def Obligations.SpMoves : Prop :=
  ∀ (i : Instr) (s t : State), exec i s = .next t → t.sp ≠ s.sp → i ∉ stageOps →
    (isCommand i .arm 3 ∧ t.sp = 1) ∨ (isCommand i .reset 1 ∧ t.sp = 0) ∨
      (isCommand i .step 4 ∧ 1 ≤ s.sp.toNat ∧ s.sp.toNat ≤ 11 ∧ t.sp = s.sp + 1 ∧ t.flt = none) ∨
      (isCommand i .run 5 ∧ 1 ≤ s.sp.toNat ∧ s.sp.toNat < t.sp.toNat ∧ t.sp.toNat ≤ 12)

/-- The status flags (R26): functions of `SP` and `FLT`, at most one of them 1, all 0 exactly when idle. -/
def Obligations.StatusFlags : Prop :=
  ∀ s : State,
    ((statusWord s).getLsbD 0 = true ↔ 1 ≤ s.sp.toNat ∧ s.sp.toNat ≤ 11 ∧ s.flt = none) ∧
      ((statusWord s).getLsbD 1 = true ↔ s.sp.toNat = 12 ∧ s.flt = none) ∧
      ((statusWord s).getLsbD 2 = true ↔ s.flt ≠ none) ∧
      (statusWord s).extractLsb' 3 61 = 0 ∧
      (statusWord s = 0 ∨ statusWord s = 1 ∨ statusWord s = 2 ∨ statusWord s = 4) ∧
      (s.sp.toNat ≤ 12 → (statusWord s = 0 ↔ s.sp.toNat = 0 ∧ s.flt = none))

/-- The state after power-on reset as R40 and R451 give it, the reads of the control registers included.
What the rules leave unspecified (`PS`, the stage-local registers, the entropy position) is not stated. -/
def Obligations.ResetState : Prop :=
  (∀ k : Fin 26, State.reset.p[k] = .unwritten) ∧ State.reset.sp = 0 ∧ State.reset.flt = none ∧
    State.reset.buf = .none ∧ State.reset.bufIdx = 0 ∧
    (∀ addr ∈ [(0x20 : RegAddr), 0x21, 0x22, 0x23, 0x24, 0x25, 0x26],
      exec (.rd addr) State.reset = .next { State.reset with answer := some 0 }) ∧
    exec (.rd 0x27) State.reset =
      .next { State.reset with answer := some 0, flt := some ⟨.badRegisterAccess, 0, 0x27⟩ }

/-- The invariant holds after power-on reset. -/
def Obligations.ResetMeetsInv : Prop := Inv State.reset

/-- Every step keeps the invariant: `SP` is 0 to 12 (R27), the buffer has the kind of `SP` (R31) and fits (R413), the
latched parameters have passed the checks of ARM (R401), a latched fault names `SP` (R410), samples are in range (R131). -/
def Obligations.StepKeepsInv : Prop :=
  ∀ s t : State, Inv s → step s = .next t → Inv t

/-- From a state of the invariant a step never stops: it answers a next state, whatever stands at the port. -/
def Obligations.StepNeverStops : Prop :=
  ∀ s : State, Inv s → ∃ t, step s = .next t

/-! Numerics. -/

/-- The four operations are correctly rounded, once, to nearest with ties to even, with the special values of R121 and IEEE
754's signs of zero: an exact sum of zero is `+0` unless both operands are `-0`, a product or quotient has the sign of its
operands. `CorrectlyRounded` is the model's wording of the rounding (log 23). -/
def Obligations.FloatOpsRound : Prop :=
  (∀ x y : F64, isFinite x = true → isFinite y = true →
    CorrectlyRounded (fadd x y) ((ratValue x : ℝ) + ratValue y) ∧
      CorrectlyRounded (fsub x y) ((ratValue x : ℝ) - ratValue y) ∧
      CorrectlyRounded (fmul x y) ((ratValue x : ℝ) * ratValue y) ∧
      (ratValue y ≠ 0 → CorrectlyRounded (fdiv x y) ((ratValue x : ℝ) / ratValue y)) ∧
      ((ratValue x : ℚ) + ratValue y = 0 → fadd x y = zero (signBit x && signBit y)) ∧
      ((ratValue x : ℚ) - ratValue y = 0 → fsub x y = zero (signBit x && !signBit y)) ∧
      signBit (fmul x y) = (signBit x != signBit y) ∧
      (ratValue y ≠ 0 → signBit (fdiv x y) = (signBit x != signBit y)) ∧
      (ratValue x ≠ 0 → ratValue y = 0 → fdiv x y = infinity (signBit x != signBit y)) ∧
      (ratValue x = 0 → ratValue y = 0 → isNaN (fdiv x y) = true)) ∧
    (∀ x y : F64, isNaN x = true ∨ isNaN y = true →
      isNaN (fadd x y) = true ∧ isNaN (fsub x y) = true ∧ isNaN (fmul x y) = true ∧ isNaN (fdiv x y) = true) ∧
    (∀ a b : Bool, fadd (infinity a) (infinity a) = infinity a ∧ isNaN (fadd (infinity a) (infinity !a)) = true ∧
      isNaN (fsub (infinity a) (infinity a)) = true ∧ fsub (infinity a) (infinity !a) = infinity a ∧
      fmul (infinity a) (infinity b) = infinity (a != b) ∧ isNaN (fdiv (infinity a) (infinity b)) = true) ∧
    ∀ (x : F64) (a : Bool), isFinite x = true →
      fadd x (infinity a) = infinity a ∧ fadd (infinity a) x = infinity a ∧
        fsub x (infinity a) = infinity !a ∧ fsub (infinity a) x = infinity a ∧
        fdiv (infinity a) x = infinity (a != signBit x) ∧ fdiv x (infinity a) = zero (signBit x != a) ∧
        (ratValue x = 0 → isNaN (fmul x (infinity a)) = true ∧ isNaN (fmul (infinity a) x) = true) ∧
        (ratValue x ≠ 0 → fmul x (infinity a) = infinity (signBit x != a) ∧ fmul (infinity a) x = infinity (a != signBit x))

/-- The decimal literals of the rules: the binary64 nearest to each, with the pattern of R122's table; `0.0`, `-0.5` and
`-1.0` are exact; `2.0 * PI` is exact. The word for nearest is the model's `CorrectlyRounded` (log 23). -/
def Obligations.LiteralTable : Prop :=
  (∀ p ∈ [(lit0_001, (0x3F50624DD2F1A9FC : F64), (0.001 : ℝ)), (lit0_01, 0x3F847AE147AE147B, 0.01),
      (lit1em6, 0x3EB0C6F7A0B5ED8D, 1e-6), (lit0_9, 0x3FECCCCCCCCCCCCD, 0.9), (lit10, 0x4024000000000000, 10),
      (litHalf, 0x3FE0000000000000, 0.5), (lit0_00005, 0x3F0A36E2EB1C432D, 0.00005), (lit0_1, 0x3FB999999999999A, 0.1),
      (lit0_0001, 0x3F1A36E2EB1C432D, 0.0001), (lit0_8, 0x3FE999999999999A, 0.8), (lit5, 0x4014000000000000, 5),
      (lit20, 0x4034000000000000, 20), (lit0_0003, 0x3F33A92A30553261, 0.0003), (lit1em5, 0x3EE4F8B588E368F1, 1e-5),
      (lit100, 0x4059000000000000, 100), (lit20000, 0x40D3880000000000, 20000), (lit32, 0x4040000000000000, 32),
      (lit100000, 0x40F86A0000000000, 100000), (lit44100, 0x40E5888000000000, 44100), (lit128, 0x4060000000000000, 128),
      (lit32768, 0x40E0000000000000, 32768), (lit2, 0x4000000000000000, 2), (lit1, 0x3FF0000000000000, 1),
      (lit1020, 0x408FE00000000000, 1020), (litPI, 0x400921FB54442D18, Real.pi), (lit0, 0, 0),
      (litNegHalf, 0xBFE0000000000000, -0.5), (litNeg1, 0xBFF0000000000000, -1)],
    p.1 = p.2.1 ∧ CorrectlyRounded p.1 p.2.2) ∧
    fmul lit2 litPI = 0x401921FB54442D18 ∧ ratValue (fmul lit2 litPI) = 2 * ratValue litPI

/-- Conversions: `floorI` and `truncI` are the exact floor and truncation where the result fits, and raise elsewhere (R124);
`toF` is the nearest binary64 (log 23), exact below 2^53 (R125). -/
def Obligations.Conversions : Prop :=
  (∀ (x : F64) (r : Int), floorI x = some r ↔ isFinite x = true ∧ r = ⌊ratValue x⌋ ∧ -(2 : Int) ^ 63 ≤ r ∧ r < (2 : Int) ^ 63) ∧
    (∀ (x : F64) (r : Int), truncI x = some r ↔
      isFinite x = true ∧ r = (if 0 ≤ ratValue x then ⌊ratValue x⌋ else ⌈ratValue x⌉) ∧
        -(2 : Int) ^ 63 ≤ r ∧ r < (2 : Int) ^ 63) ∧
    (∀ x : F64, floorI x = none → floorOrRaise x = .error (.badFloatToInt, 0)) ∧
    (∀ x : F64, truncI x = none → truncOrRaise x = .error (.badFloatToInt, 0)) ∧
    (∀ i : Int, CorrectlyRounded (toF i) (i : ℝ)) ∧
    ∀ i : Int, |i| < 2 ^ 53 → ratValue (toF i) = (i : ℚ)

/-- Comparisons are IEEE 754's on finite data, infinities and NaNs (R127); `clamp` is R126's choice among its bounds and its
operand, with the consequences the rule lists; `|x|` clears the sign bit and keeps a NaN a NaN (R126). -/
def Obligations.ComparisonsAndClamp : Prop :=
  (∀ x y : F64, isFinite x = true → isFinite y = true →
    (flt x y = true ↔ ratValue x < ratValue y) ∧ (fle x y = true ↔ ratValue x ≤ ratValue y) ∧
      (feq x y = true ↔ ratValue x = ratValue y)) ∧
    (∀ x : F64, isFinite x = true ∨ isNaN x = true ∨ x = infinity false ∨ x = infinity true) ∧
    (∀ (x : F64) (a : Bool), isFinite x = true →
      flt x (infinity a) = !a ∧ flt (infinity a) x = a ∧ fle x (infinity a) = !a ∧ fle (infinity a) x = a ∧
        feq x (infinity a) = false ∧ feq (infinity a) x = false) ∧
    (∀ a b : Bool, flt (infinity a) (infinity b) = (a && !b) ∧ fle (infinity a) (infinity b) = (a || !b) ∧
      feq (infinity a) (infinity b) = (a == b)) ∧
    (∀ x y : F64, fgt x y = flt y x ∧ fge x y = fle y x ∧ fne x y = !feq x y) ∧
    (∀ x : F64, (fabs x).toNat = x.toNat % 2 ^ 63 ∧ isNaN (fabs x) = isNaN x) ∧
    (∀ x y : F64, isNaN x = true ∨ isNaN y = true →
      flt x y = false ∧ fgt x y = false ∧ fle x y = false ∧ fge x y = false ∧ feq x y = false ∧ fne x y = true) ∧
    (∀ x lo hi : F64, isNaN x = true → clamp x lo hi = x) ∧
    (∀ hi : F64, fle lit0 hi = true → clamp 0x8000000000000000 lit0 hi = 0x8000000000000000) ∧
    ∀ x lo hi : F64, isNaN x = false → fle lo hi = true →
      (flt x lo = true → clamp x lo hi = lo) ∧ (flt hi x = true → clamp x lo hi = hi) ∧
        fle lo (clamp x lo hi) = true ∧ fle (clamp x lo hi) hi = true ∧
        (fle lo x = true → fle x hi = true → clamp x lo hi = x)

/-- How a PCM element becomes bytes (R62), and the number of bytes of the raw data (R66). -/
def Obligations.PcmBytes : Prop :=
  (∀ v : Int, (sampleBytes 16 v).map BitVec.toNat = [(v % 256).toNat, (v / 256 % 256).toNat]) ∧
    (∀ v : Int, 0 ≤ v → v ≤ 255 → (sampleBytes 8 v).map BitVec.toNat = [v.toNat]) ∧
    ∀ (s : State) (l : List Int), s.buf = .pcm l → s.ps.sampleSize = 8 ∨ s.ps.sampleSize = 16 →
      (pcmBytes s).length = pcmDataLen s

end Statements
end

