-- ==== Sys2Proof/Laws/Float.lean ====
section
/-! SUPPORT. The pattern arithmetic behind the binary64 operations: patterns without sign are ordered as their values, and rounding gives the nearest one, ties to the even pattern. -/

namespace Sys2Proof.Laws

open Machine Safety

/-- The value of a finite pattern, by its exponent and fraction fields. -/
theorem patternValue_eq (p : Nat) (h : p < 2047 * 2 ^ 52) :
    patternValue p = if p / 2 ^ 52 = 0 then p % 2 ^ 52 else 2 ^ (p / 2 ^ 52 - 1) * (2 ^ 52 + p % 2 ^ 52) := by
  have hp : (BitVec.ofNat 64 p).toNat = p := by
    rw [BitVec.toNat_ofNat]; exact Nat.mod_eq_of_lt (by omega)
  have he : expField (BitVec.ofNat 64 p) = p / 2 ^ 52 := by
    rw [expField, hp]; exact Nat.mod_eq_of_lt (by omega)
  have hf : fracField (BitVec.ofNat 64 p) = p % 2 ^ 52 := by
    rw [fracField, hp]
  rw [patternValue, magnitude, he, hf]

/-- The value of a pattern built from a number of dropped bits and a significand. -/
theorem patternValue_parts (k m : Nat) (hm : m < 2 ^ 53) (hk : k = 0 ∨ 2 ^ 52 ≤ m) (h : 2 ^ 52 * k + m < 2047 * 2 ^ 52) :
    patternValue (2 ^ 52 * k + m) = 2 ^ k * m := by
  rw [patternValue_eq _ h]
  by_cases h0 : m < 2 ^ 52
  · have hk0 : k = 0 := by omega
    subst hk0
    rw [if_pos (by omega), Nat.mul_zero, Nat.zero_add, pow_zero, Nat.one_mul, Nat.mod_eq_of_lt h0]
  · have e1 : (2 ^ 52 * k + m) / 2 ^ 52 = k + 1 := by omega
    have e2 : (2 ^ 52 * k + m) % 2 ^ 52 = m - 2 ^ 52 := by omega
    rw [e1, e2, if_neg (by omega), Nat.add_sub_cancel, Nat.add_sub_cancel' (by omega)]

theorem patternValue_lt_succ (p : Nat) (h : p + 1 < 2047 * 2 ^ 52) : patternValue p < patternValue (p + 1) := by
  rw [patternValue_eq _ (by omega), patternValue_eq _ h]
  by_cases hc : (p + 1) % 2 ^ 52 = 0
  · have e : (p + 1) / 2 ^ 52 = p / 2 ^ 52 + 1 := by omega
    have m : p % 2 ^ 52 = 2 ^ 52 - 1 := by omega
    rw [e, hc, m]
    generalize p / 2 ^ 52 = a
    cases a with
    | zero => norm_num
    | succ j =>
      rw [if_neg (by omega), if_neg (by omega)]
      simp only [Nat.add_sub_cancel, Nat.add_zero]
      have : 0 < 2 ^ j := by positivity
      rw [pow_succ 2 j]
      omega
  · have e : (p + 1) / 2 ^ 52 = p / 2 ^ 52 := by omega
    have m : (p + 1) % 2 ^ 52 = p % 2 ^ 52 + 1 := by omega
    rw [e, m]
    split
    · omega
    · have : 0 < 2 ^ (p / 2 ^ 52 - 1) := by positivity
      nlinarith

/-- Patterns without sign are ordered as their values. -/
theorem patternValue_strictMono (p q : Nat) (hq : q < 2047 * 2 ^ 52) (h : p < q) : patternValue p < patternValue q := by
  obtain ⟨n, rfl⟩ := Nat.exists_eq_add_of_lt h
  clear h
  induction n with
  | zero => exact patternValue_lt_succ p hq
  | succ n ih => exact (ih (by omega)).trans (patternValue_lt_succ _ hq)

theorem patternValue_mono (p q : Nat) (hq : q < 2047 * 2 ^ 52) (h : p ≤ q) : patternValue p ≤ patternValue q := by
  rcases Nat.eq_or_lt_of_le h with rfl | h
  · exact le_refl _
  · exact (patternValue_strictMono p q hq h).le

/-- The dropped bits of `roundPattern`. -/
def roundShift (num den : Nat) : Nat := Nat.log2 (num / den) - 52

theorem roundQuotient_bounds (num den : Nat) :
    num / (2 ^ roundShift num den * den) < 2 ^ 53 ∧
      (roundShift num den = 0 ∨ 2 ^ 52 ≤ num / (2 ^ roundShift num den * den)) := by
  have e : num / (2 ^ roundShift num den * den) = num / den / 2 ^ roundShift num den := by
    rw [Nat.mul_comm, Nat.div_div_eq_div_mul]
  rw [e]
  generalize hn : num / den = n
  simp only [roundShift, hn]
  by_cases h : n = 0
  · subst h; simp
  · have h1 : n < 2 ^ (Nat.log2 n + 1) := Nat.lt_log2_self
    have h2 : 2 ^ Nat.log2 n ≤ n := Nat.log2_self_le h
    by_cases h52 : Nat.log2 n ≤ 52
    · have : Nat.log2 n - 52 = 0 := by omega
      rw [this]
      refine ⟨?_, .inl rfl⟩
      have : (2 : Nat) ^ (Nat.log2 n + 1) ≤ 2 ^ 53 := Nat.pow_le_pow_right (by norm_num) (by omega)
      simp only [pow_zero, Nat.div_one]; omega
    · refine ⟨?_, .inr ?_⟩
      · rw [Nat.div_lt_iff_lt_mul (by positivity), ← pow_add]
        rwa [show 53 + (Nat.log2 n - 52) = Nat.log2 n + 1 by omega]
      · rw [Nat.le_div_iff_mul_le (by positivity), ← pow_add]
        rwa [show 52 + (Nat.log2 n - 52) = Nat.log2 n by omega]

/-- The pattern just below or at `num / den`. -/
def floorPattern (num den : Nat) : Nat := 2 ^ 52 * roundShift num den + num / (2 ^ roundShift num den * den)

/-- Rounding in terms of the floor pattern: it stays, or moves to the next pattern up. -/
theorem roundPattern_eq (num den : Nat) :
    roundPattern num den =
      min
        (if 2 ^ roundShift num den * den < 2 * (num % (2 ^ roundShift num den * den)) ∨
            (2 * (num % (2 ^ roundShift num den * den)) = 2 ^ roundShift num den * den ∧ floorPattern num den % 2 = 1)
          then floorPattern num den + 1 else floorPattern num den)
        (2047 * 2 ^ 52) := by
  have par : floorPattern num den % 2 = num / (2 ^ roundShift num den * den) % 2 := by
    unfold floorPattern; omega
  rw [par]
  have hr : ∀ (c : Prop) [Decidable c] (a q : Nat), a + (if c then q + 1 else q) = if c then a + q + 1 else a + q := by
    intro c _ a q; split <;> omega
  unfold roundPattern
  exact congrArg (fun v => min v (2047 * 2 ^ 52)) (hr _ _ _)

/-- The floor pattern and the next one bracket the exact value. -/
theorem floorPattern_bracket (num den : Nat) (h : floorPattern num den < 2047 * 2 ^ 52) :
    patternValue (floorPattern num den) = 2 ^ roundShift num den * (num / (2 ^ roundShift num den * den)) ∧
      (floorPattern num den + 1 < 2047 * 2 ^ 52 →
        patternValue (floorPattern num den + 1) =
          2 ^ roundShift num den * (num / (2 ^ roundShift num den * den) + 1)) := by
  obtain ⟨h1, h2⟩ := roundQuotient_bounds num den
  refine ⟨patternValue_parts _ _ h1 h2 h, fun h' => ?_⟩
  unfold floorPattern at h h' ⊢
  generalize num / (2 ^ roundShift num den * den) = q at *
  generalize roundShift num den = k at *
  by_cases hq : q + 1 < 2 ^ 53
  · exact patternValue_parts k (q + 1) hq (by omega) h'
  · have e : 2 ^ 52 * k + q + 1 = 2 ^ 52 * (k + 1) + 2 ^ 52 := by omega
    have e2 : q + 1 = 2 ^ 53 := by omega
    rw [e, e2, patternValue_parts (k + 1) (2 ^ 52) (by norm_num) (.inr (le_refl _)) (by omega), pow_succ 2 k]
    norm_num
    ring

/-- Rounding to the nearer of two neighbours of a rising sequence, ties to the even index, is nearest among all. -/
theorem nearest_of_neighbours (f : Nat → Nat) (B N w d r P q : Nat) (mono : ∀ p q, p < q → q < B → f p < f q)
    (hN : N = w + r) (hr : r < d) (hP : P < B) (fP : f P = w) (fP1 : P + 1 < B → f (P + 1) = w + d)
    (R : Nat) (hR : R = if d < 2 * r ∨ (2 * r = d ∧ P % 2 = 1) then P + 1 else P) (hRB : R < B) (hq : q < B) :
    |(N : Int) - f R| ≤ |(N : Int) - f q| ∧
      (|(N : Int) - f R| = |(N : Int) - f q| → q ≠ R → R % 2 = 0) := by
  have low : q < P → f q < w := fun h => fP ▸ mono q P h hP
  have high : P + 1 < q → w + d < f q := fun h => fP1 (by omega) ▸ mono (P + 1) q h hq
  have up : R = P + 1 → f R = w + d := fun h => by rw [h]; exact fP1 (by omega)
  have down : R = P → f R = w := fun h => by rw [h]; exact fP
  have atP : q = P → f q = w := fun h => by rw [h]; exact fP
  have atP1 : q = P + 1 → f q = w + d := fun h => by rw [h]; exact fP1 (by omega)
  clear mono fP fP1
  generalize f R = y at *
  generalize f q = x at *
  subst hN
  rcases abs_cases ((((w + r : Nat) : Int)) - (y : Int)) with ⟨e1, _⟩ | ⟨e1, _⟩ <;>
    rcases abs_cases ((((w + r : Nat) : Int)) - (x : Int)) with ⟨e2, _⟩ | ⟨e2, _⟩ <;>
    rw [e1, e2] <;> clear e1 e2 <;>
    (split at hR <;> rcases Nat.lt_trichotomy q P with h | h | h <;>
      (try rcases Nat.lt_or_ge (P + 1) q with h' | h') <;> push_cast at * <;> constructor <;> omega)

/-- A finite rounded pattern is nearest to the exact value among all finite patterns, and even in a tie. -/
theorem roundPattern_nearest (num den : Nat) (hd : 0 < den) (h : roundPattern num den < 2047 * 2 ^ 52) (q : Nat)
    (hq : q < 2047 * 2 ^ 52) :
    |(num : Int) - (den * patternValue (roundPattern num den) : Nat)| ≤ |(num : Int) - (den * patternValue q : Nat)| ∧
      (|(num : Int) - (den * patternValue (roundPattern num den) : Nat)| = |(num : Int) - (den * patternValue q : Nat)| →
        q ≠ roundPattern num den → roundPattern num den % 2 = 0) := by
  have hm : ∀ (c : Prop) [Decidable c] (a B : Nat), min (if c then a + 1 else a) B < B →
      min (if c then a + 1 else a) B = if c then a + 1 else a := by
    intro c _ a B; omega
  have hR := roundPattern_eq num den
  rw [hR] at h
  have hR' := hR.trans (hm _ _ _ h)
  have hf : floorPattern num den < 2047 * 2 ^ 52 := by
    rw [hm _ _ _ h] at h; revert h; split <;> omega
  obtain ⟨b1, b2⟩ := floorPattern_bracket num den hf
  have hdm := Nat.div_add_mod num (2 ^ roundShift num den * den)
  have hmod := Nat.mod_lt num (show 0 < 2 ^ roundShift num den * den by positivity)
  exact nearest_of_neighbours (fun p => den * patternValue p) (2047 * 2 ^ 52) num _ _ _ _ q
    (fun p q h1 h2 => Nat.mul_lt_mul_of_pos_left (patternValue_strictMono p q h2 h1) hd) hdm.symm hmod hf
    (by show den * patternValue _ = _; rw [b1]; ring)
    (fun h' => by show den * patternValue _ = _; rw [b2 h']; ring) _ hR' (by rw [hR]; exact h) hq

/-- The arithmetic of overflow, with `D` for `2^2044 * den` and `d` for `2^k * den`. -/
theorem overflow_core (k q d r D num : Nat) (hD : 0 < D) (hnum : d * q + r = num) (hr : r < d)
    (hq : q < 2 ^ 53) (hk : k = 0 ∨ 2 ^ 52 ≤ q) (h44 : k ≤ 2044 → d ≤ D) (h45 : k = 2045 → d = 2 * D)
    (h46 : 2046 ≤ k → 4 * D ≤ d) :
    min (if d < 2 * r ∨ (2 * r = d ∧ (2 ^ 52 * k + q) % 2 = 1) then 2 ^ 52 * k + q + 1 else 2 ^ 52 * k + q) (2047 * 2 ^ 52) =
        2047 * 2 ^ 52 ↔ (2 ^ 54 - 1) * D ≤ num := by
  rcases Nat.lt_trichotomy k 2045 with h | h | h
  · have hd := h44 (by omega)
    have : d * (q + 1) ≤ D * 2 ^ 53 := Nat.mul_le_mul hd (by omega)
    have : d * (q + 1) = d * q + d := by ring
    constructor
    · intro h'; exfalso; revert h'; split <;> omega
    · intro h'; omega
  · have hd := h45 h
    subst h hd
    rcases Nat.lt_or_ge q (2 ^ 53 - 1) with hlt | hge
    · have : 2 * D * (q + 1) ≤ 2 * D * (2 ^ 53 - 1) := Nat.mul_le_mul_left _ (by omega)
      have : 2 * D * (q + 1) = 2 * D * q + 2 * D := by ring
      constructor
      · intro h'; exfalso; revert h'; split <;> omega
      · intro h'; omega
    · have e : q = 2 ^ 53 - 1 := by omega
      subst e
      constructor
      · intro h'; revert h'; split <;> omega
      · intro h'; rw [if_pos (by omega)]; omega
  · have hd := h46 (by omega)
    have : 4 * D * 2 ^ 52 ≤ d * q := Nat.mul_le_mul hd (by omega)
    constructor
    · intro _; omega
    · intro _; split <;> omega

/-- Overflow: the rounded pattern is the infinity's exactly from half a unit above the greatest finite value on. -/
theorem roundPattern_overflow (num den : Nat) (hd : 0 < den) :
    roundPattern num den = 2047 * 2 ^ 52 ↔ (2 ^ 54 - 1) * (2 ^ 2044 * den) ≤ num := by
  rw [roundPattern_eq]
  obtain ⟨h1, h2⟩ := roundQuotient_bounds num den
  have key : ∀ A : Nat, A = 2 ^ 2044 → 0 < A * den ∧
      (∀ k : Nat, (k ≤ 2044 → 2 ^ k * den ≤ A * den) ∧ (k = 2045 → 2 ^ k * den = 2 * (A * den)) ∧
        (2046 ≤ k → 4 * (A * den) ≤ 2 ^ k * den)) := by
    intro A hA
    refine ⟨by rw [hA]; positivity, fun k => ⟨fun h => ?_, fun h => ?_, fun h => ?_⟩⟩
    · rw [hA]; exact Nat.mul_le_mul_right _ (Nat.pow_le_pow_right Nat.two_pos h)
    · rw [h, show 2045 = 2044 + 1 from rfl, pow_succ, ← hA]; ring
    · have e : 4 * A = 2 ^ (2044 + 2) := by rw [pow_add, ← hA]; ring
      rw [← Nat.mul_assoc, e]; exact Nat.mul_le_mul_right _ (Nat.pow_le_pow_right (by norm_num) h)
  obtain ⟨hD, hk⟩ := key _ rfl
  obtain ⟨k44, k45, k46⟩ := hk (roundShift num den)
  exact overflow_core _ _ _ _ _ num hD (Nat.div_add_mod num _) (Nat.mod_lt _ (by positivity)) h1 h2 k44 k45 k46

theorem roundPattern_le (num den : Nat) : roundPattern num den ≤ 2047 * 2 ^ 52 := by
  rw [roundPattern_eq]; exact Nat.min_le_right _ _

/-! Data as a sign and a pattern. -/

theorem withSign_toNat (neg : Bool) (p : Nat) (h : p < 2 ^ 63) :
    (withSign neg p).toNat = if neg then 2 ^ 63 + p else p := by
  cases neg <;> simp [withSign] <;> omega

theorem signBit_eq (x : F64) : signBit x = decide (2 ^ 63 ≤ x.toNat) := by
  rw [signBit, BitVec.msb_eq_decide]

theorem signBit_withSign (neg : Bool) (p : Nat) (h : p < 2 ^ 63) : signBit (withSign neg p) = neg := by
  rw [signBit_eq, withSign_toNat neg p h]
  cases neg
  · simp; omega
  · simp

theorem magnitude_eq (x : F64) : magnitude x = patternValue (x.toNat % 2 ^ 63) := by
  have hx := x.isLt
  have h : (BitVec.ofNat 64 (x.toNat % 2 ^ 63)).toNat = x.toNat % 2 ^ 63 := by
    rw [BitVec.toNat_ofNat]; omega
  have e : expField (BitVec.ofNat 64 (x.toNat % 2 ^ 63)) = expField x := by
    rw [expField, expField, h]; omega
  have f : fracField (BitVec.ofNat 64 (x.toNat % 2 ^ 63)) = fracField x := by
    rw [fracField, fracField, h]; omega
  rw [patternValue, magnitude, magnitude, e, f]

theorem isFinite_iff (x : F64) : isFinite x = true ↔ x.toNat % 2 ^ 63 < 2047 * 2 ^ 52 := by
  have hx := x.isLt
  simp only [isFinite, expField, bne_iff_ne]
  omega

theorem ratValue_withSign (neg : Bool) (p : Nat) (h : p < 2 ^ 63) :
    ratValue (withSign neg p) = (if neg then -(patternValue p : ℚ) else (patternValue p : ℚ)) / 2 ^ 1074 := by
  have hm : magnitude (withSign neg p) = patternValue p := by
    rw [magnitude_eq, withSign_toNat neg p h]
    congr 1
    cases neg <;> simp <;> omega
  rw [ratValue, scaled, signBit_withSign neg p h, hm]
  cases neg <;> simp

theorem isFinite_withSign (neg : Bool) (p : Nat) (h : p < 2 ^ 63) :
    isFinite (withSign neg p) = true ↔ p < 2047 * 2 ^ 52 := by
  rw [isFinite_iff, withSign_toNat neg p h]
  cases neg
  · simp only [Bool.false_eq_true, if_false]; omega
  · simp only [if_true]; omega

theorem ratValue_eq (x : F64) :
    ratValue x = (if signBit x then -(patternValue (x.toNat % 2 ^ 63) : ℚ) else (patternValue (x.toNat % 2 ^ 63) : ℚ)) / 2 ^ 1074 := by
  rw [ratValue, scaled, magnitude_eq]
  split <;> simp

theorem patternValue_zero : patternValue 0 = 0 := by
  rw [patternValue_eq 0 (by norm_num)]; norm_num

theorem withSign_bit0 (neg : Bool) (p : Nat) (h : p < 2 ^ 63) (he : p % 2 = 0) : (withSign neg p).getLsbD 0 = false := by
  have e := withSign_toNat neg p h
  rw [BitVec.getLsbD, e]
  cases neg <;> simp [Nat.testBit_zero] <;> omega

/-- `roundTo` is correct rounding of `± num / den` units of 2^-1074 (R121). -/
theorem roundTo_correct (neg : Bool) (num den : Nat) (hd : 0 < den) :
    CorrectlyRounded (roundTo neg num den) ((if neg then -((num : ℝ) / den) else (num : ℝ) / den) / 2 ^ 1074) := by
  have hle := roundPattern_le num den
  have hs : (0 : ℝ) < 2 ^ 1074 := by positivity
  have hdr : (0 : ℝ) < den := by exact_mod_cast hd
  have h63 : roundPattern num den < 2 ^ 63 := by omega
  have habs : |(if neg then -((num : ℝ) / den) else (num : ℝ) / den) / 2 ^ 1074| = (num : ℝ) / den / 2 ^ 1074 := by
    rw [abs_div, abs_of_pos hs]
    congr 1
    have : (0 : ℝ) ≤ (num : ℝ) / den := by positivity
    cases neg <;> simp [abs_of_nonneg this]
  have hthr : (2 : ℝ) ^ 1024 - 2 ^ 970 ≤ (num : ℝ) / den / 2 ^ 1074 ↔ roundPattern num den = 2047 * 2 ^ 52 := by
    rw [roundPattern_overflow num den hd, le_div_iff₀ hs, le_div_iff₀ hdr, ← Nat.cast_le (α := ℝ)]
    have e : ((2 : ℝ) ^ 1024 - 2 ^ 970) * 2 ^ 1074 * den = (((2 ^ 54 - 1) * (2 ^ 2044 * den) : Nat) : ℝ) := by
      have a : (2 : ℝ) ^ 1024 = 2 ^ 54 * 2 ^ 970 := by rw [← pow_add]
      have b : (2 : ℝ) ^ 2044 = 2 ^ 970 * 2 ^ 1074 := by rw [← pow_add]
      have c : ((2 ^ 54 - 1 : Nat) : ℝ) = 2 ^ 54 - 1 := by norm_num
      rw [Nat.cast_mul, Nat.cast_mul, c, Nat.cast_pow, Nat.cast_ofNat, a, b]
      ring
    rw [e]
  unfold CorrectlyRounded
  rw [habs]
  by_cases ho : roundPattern num den = 2047 * 2 ^ 52
  · rw [if_pos (hthr.mpr ho)]
    have hpos : 0 < (num : ℝ) / den := by
      have := (roundPattern_overflow num den hd).mp ho
      have : 0 < num := lt_of_lt_of_le (by positivity) this
      have : (0 : ℝ) < num := by exact_mod_cast this
      positivity
    rw [roundTo, signBit_withSign neg _ h63]
    refine ⟨by rw [ho]; rfl, ?_⟩
    cases neg
    · simp only [Bool.false_eq_true, if_false, false_iff, not_lt]; positivity
    · simp only [if_true, true_iff]
      exact div_neg_of_neg_of_pos (by linarith) hs
  · rw [if_neg (fun h => ho (hthr.mp h))]
    have hlt : roundPattern num den < 2047 * 2 ^ 52 := by omega
    rw [roundTo, signBit_withSign neg _ h63]
    refine ⟨(isFinite_withSign neg _ h63).mpr hlt, ?_, ?_, fun z hz => ?_⟩
    · intro hn; subst hn
      simp only [if_true]
      exact div_nonpos_of_nonpos_of_nonneg (by have : (0 : ℝ) ≤ (num : ℝ) / den := by positivity
                                               linarith) hs.le
    · intro hn; subst hn
      simp only [Bool.false_eq_true, if_false]; positivity
    · -- compare
      have hq := (isFinite_iff z).mp hz
      have hrv := ratValue_withSign neg _ h63
      have hzv := ratValue_eq z
      generalize hqq : z.toNat % 2 ^ 63 = q at *
      have near := roundPattern_nearest num den hd hlt
      -- distances in units
      have dist : ∀ (p : Nat), |(patternValue p : ℝ) / 2 ^ 1074 - (num : ℝ) / den / 2 ^ 1074| =
          ((|(num : Int) - (den * patternValue p : Nat)| : Int) : ℝ) / den / 2 ^ 1074 := by
        intro p
        rw [← sub_div, abs_div, abs_of_pos hs]
        congr 1
        have : (patternValue p : ℝ) - (num : ℝ) / den = ((den * patternValue p : ℝ) - num) / den := by
          field_simp
        rw [this, abs_div, abs_of_pos hdr, abs_sub_comm]
        push_cast
        rfl
      have hy : |(ratValue (withSign neg (roundPattern num den)) : ℝ) -
          (if neg then -((num : ℝ) / den) else (num : ℝ) / den) / 2 ^ 1074| =
          |(patternValue (roundPattern num den) : ℝ) / 2 ^ 1074 - (num : ℝ) / den / 2 ^ 1074| := by
        rw [hrv]
        cases neg
        · push_cast; simp
        · simp only [if_true]
          push_cast
          rw [← abs_neg]; congr 1; ring
      have hnn : (0 : ℝ) ≤ (num : ℝ) / den / 2 ^ 1074 := by positivity
      by_cases hsz : signBit z = neg
      · have hz' : |(ratValue z : ℝ) - (if neg then -((num : ℝ) / den) else (num : ℝ) / den) / 2 ^ 1074| =
            |(patternValue q : ℝ) / 2 ^ 1074 - (num : ℝ) / den / 2 ^ 1074| := by
          rw [hzv, hsz]
          cases neg
          · push_cast; simp
          · simp only [if_true]
            push_cast
            rw [← abs_neg]; congr 1; ring
        rw [hy, hz', dist, dist]
        obtain ⟨n1, n2⟩ := near q hq
        constructor
        · have : ((|(num : Int) - (den * patternValue (roundPattern num den) : Nat)| : Int) : ℝ) ≤
            ((|(num : Int) - (den * patternValue q : Nat)| : Int) : ℝ) := by exact_mod_cast n1
          gcongr
        · intro heq hne
          have h2 : ((|(num : Int) - (den * patternValue (roundPattern num den) : Nat)| : Int) : ℝ) =
            ((|(num : Int) - (den * patternValue q : Nat)| : Int) : ℝ) := by
            field_simp at heq; exact heq
          refine withSign_bit0 neg _ h63 (n2 (by exact_mod_cast h2) fun hqe => hne ?_)
          rw [hrv, hzv, hsz, hqe]
      · have hz' : |(ratValue z : ℝ) - (if neg then -((num : ℝ) / den) else (num : ℝ) / den) / 2 ^ 1074| =
            (patternValue q : ℝ) / 2 ^ 1074 + (num : ℝ) / den / 2 ^ 1074 := by
          have hpq : (0 : ℝ) ≤ (patternValue q : ℝ) / 2 ^ 1074 := by positivity
          rw [hzv]
          cases neg
          · have : signBit z = true := by simpa using hsz
            rw [this]
            simp only [if_true, Bool.false_eq_true, if_false]
            push_cast
            rw [← abs_neg, abs_of_nonneg] <;> (rw [neg_div]; linarith)
          · have : signBit z = false := by simpa using hsz
            rw [this]
            simp only [if_true, Bool.false_eq_true, if_false]
            push_cast
            rw [abs_of_nonneg] <;> (rw [neg_div]; linarith)
        have hpq : (0 : ℝ) ≤ (patternValue q : ℝ) / 2 ^ 1074 := by positivity
        have d0 := dist 0
        rw [patternValue_zero, Nat.cast_zero, zero_div, zero_sub, abs_neg, abs_of_nonneg hnn] at d0
        obtain ⟨n1, n2⟩ := near 0 (by norm_num)
        rw [patternValue_zero] at n1 n2
        have n1' : ((|(num : Int) - (den * patternValue (roundPattern num den) : Nat)| : Int) : ℝ) ≤
            ((|(num : Int) - (den * 0 : Nat)| : Int) : ℝ) := by exact_mod_cast n1
        have le0 : ((|(num : Int) - (den * patternValue (roundPattern num den) : Nat)| : Int) : ℝ) / den / 2 ^ 1074 ≤
            (num : ℝ) / den / 2 ^ 1074 := by
          rw [d0]; gcongr
        rw [hy, hz', dist]
        refine ⟨by linarith, fun heq hne => ?_⟩
        have hq0 : (patternValue q : ℝ) / 2 ^ 1074 = 0 := by linarith
        have heq' : ((|(num : Int) - (den * patternValue (roundPattern num den) : Nat)| : Int) : ℝ) / den / 2 ^ 1074 =
            (num : ℝ) / den / 2 ^ 1074 := by linarith
        have h2 : ((|(num : Int) - (den * patternValue (roundPattern num den) : Nat)| : Int) : ℝ) =
            ((|(num : Int) - (den * 0 : Nat)| : Int) : ℝ) := by
          rw [d0] at heq'
          field_simp at heq'
          exact heq'
        refine withSign_bit0 neg _ h63 (n2 (by exact_mod_cast h2) fun hqe => hne ?_)
        have hpv : patternValue q = 0 := by
          have : (patternValue q : ℝ) = 0 := by
            rcases div_eq_zero_iff.mp hq0 with h | h
            · exact h
            · exact absurd h hs.ne'
          exact_mod_cast this
        rw [hrv, hzv, ← hqe, patternValue_zero, hpv]
        cases neg <;> cases signBit z <;> simp

/-! The order of the data, and the range of a sample. -/

theorem patternValue_lt_iff (p q : Nat) (hp : p < 2047 * 2 ^ 52) (hq : q < 2047 * 2 ^ 52) :
    patternValue p < patternValue q ↔ p < q :=
  ⟨fun h => by
    by_contra hc
    exact absurd (patternValue_mono q p hp (by omega)) (by omega), patternValue_strictMono p q hq⟩

/-- On finite data the order of the keys is the order of the values (R127). -/
theorem orderKey_lt_iff (x y : F64) (hx : isFinite x = true) (hy : isFinite y = true) :
    orderKey x < orderKey y ↔ scaled x < scaled y := by
  rw [isFinite_iff] at hx hy
  rw [orderKey, orderKey, scaled, scaled, magnitude_eq, magnitude_eq]
  generalize x.toNat % 2 ^ 63 = p at *
  generalize y.toNat % 2 ^ 63 = q at *
  have h1 := patternValue_lt_iff p q hx hy
  have h2 := patternValue_lt_iff q p hy hx
  have h3 := patternValue_lt_iff 0 p (by norm_num) hx
  have h4 := patternValue_lt_iff 0 q (by norm_num) hy
  rw [patternValue_zero] at h3 h4
  split <;> split <;> omega

theorem isNaN_of_isFinite (x : F64) (h : isFinite x = true) : isNaN x = false := by
  simp only [isFinite, bne_iff_ne] at h
  simp [isNaN, h]

/-- A sample lies between its bounds, when the bounds are exact as f64 (R331). -/
theorem digitClamp_range (v : F64) (lo hi r : Int) (hle : lo ≤ hi)
    (h1 : isFinite (toF lo) = true ∧ scaled (toF lo) = lo * unitScale)
    (h2 : isFinite (toF (hi + 1)) = true ∧ scaled (toF (hi + 1)) = (hi + 1) * unitScale)
    (h : digitClamp v lo hi = .ok r) : lo ≤ r ∧ r ≤ hi := by
  have hu : (0 : Int) < (unitScale : Int) := by exact_mod_cast (by unfold unitScale; positivity : 0 < unitScale)
  unfold digitClamp at h
  split at h
  · cases h
  · rename_i hnan
    split at h
    · cases h; omega
    · rename_i hlo
      split at h
      · cases h; omega
      · rename_i hhi
        simp only [floorOrRaise, floorI] at h
        split at h
        · rename_i i hi'
          cases h
          split at hi'
          · rename_i hc
            simp only [Bool.and_eq_true] at hc
            cases hi'
            have n0 := isNaN_of_isFinite v hc.1
            have n1 := isNaN_of_isFinite _ h1.1
            have n2 := isNaN_of_isFinite _ h2.1
            have a : ¬ orderKey v < orderKey (toF lo) := by simpa [flt, n0, n1] using hlo
            have b : ¬ orderKey (toF (hi + 1)) ≤ orderKey v := by simpa [fge, fle, n0, n2] using hhi
            rw [orderKey_lt_iff v _ hc.1 h1.1, h1.2] at a
            rw [not_le, orderKey_lt_iff v _ hc.1 h2.1, h2.2] at b
            exact ⟨(Int.le_ediv_iff_mul_le hu).mpr (by omega), by
              have := (Int.ediv_lt_iff_lt_mul hu).mpr b; omega⟩
          · cases hi'
        · cases h

theorem toF_bounds : (isFinite (toF 0) = true ∧ scaled (toF 0) = 0 * unitScale) ∧
    (isFinite (toF (255 + 1)) = true ∧ scaled (toF (255 + 1)) = (255 + 1) * unitScale) ∧
    (isFinite (toF (-32768)) = true ∧ scaled (toF (-32768)) = (-32768) * unitScale) ∧
    (isFinite (toF (32767 + 1)) = true ∧ scaled (toF (32767 + 1)) = (32767 + 1) * unitScale) := by decide +kernel

/-- The samples of DIGIT are in the range of the sample size (R131). -/
theorem digitSample_range (size : Nat) (x : F64) (r : Int) (h : digitSample size x = .ok r) :
    if size = 8 then 0 ≤ r ∧ r ≤ 255 else -32768 ≤ r ∧ r ≤ 32767 := by
  obtain ⟨b0, b1, b2, b3⟩ := toF_bounds
  unfold digitSample at h
  split at h
  · rw [if_pos ‹_›]; exact digitClamp_range _ 0 255 r (by norm_num) b0 b1 h
  · rw [if_neg ‹_›]; exact digitClamp_range _ (-32768) 32767 r (by norm_num) b2 b3 h
end Sys2Proof.Laws
end

