-- ==== Sys2Proof/Laws/State.lean ====
section
/-! SUPPORT. One lemma per field of State per shared update, true by rfl, so that no proof unfolds a record update. -/

namespace Sys2Proof.Laws

open Machine

/-! `raiseFault`. -/

@[simp] theorem raiseFault_p (s : State) (c : Cause) (info : InfoByte) : (raiseFault s c info).p = s.p := rfl
@[simp] theorem raiseFault_ps (s : State) (c : Cause) (info : InfoByte) : (raiseFault s c info).ps = s.ps := rfl
@[simp] theorem raiseFault_sp (s : State) (c : Cause) (info : InfoByte) : (raiseFault s c info).sp = s.sp := rfl
@[simp] theorem raiseFault_flt (s : State) (c : Cause) (info : InfoByte) : (raiseFault s c info).flt = some { cause := c, stage := s.sp, info := info } := rfl
@[simp] theorem raiseFault_buf (s : State) (c : Cause) (info : InfoByte) : (raiseFault s c info).buf = s.buf := rfl
@[simp] theorem raiseFault_bufIdx (s : State) (c : Cause) (info : InfoByte) : (raiseFault s c info).bufIdx = s.bufIdx := rfl
@[simp] theorem raiseFault_loc (s : State) (c : Cause) (info : InfoByte) : (raiseFault s c info).loc = s.loc := rfl
@[simp] theorem raiseFault_entropyPos (s : State) (c : Cause) (info : InfoByte) : (raiseFault s c info).entropyPos = s.entropyPos := rfl
@[simp] theorem raiseFault_maxLen (s : State) (c : Cause) (info : InfoByte) : (raiseFault s c info).maxLen = s.maxLen := rfl
@[simp] theorem raiseFault_pending (s : State) (c : Cause) (info : InfoByte) : (raiseFault s c info).pending = s.pending := rfl
@[simp] theorem raiseFault_answer (s : State) (c : Cause) (info : InfoByte) : (raiseFault s c info).answer = s.answer := rfl
@[simp] theorem raiseFault_freeReads (s : State) (c : Cause) (info : InfoByte) : (raiseFault s c info).freeReads = s.freeReads := rfl
@[simp] theorem raiseFault_freeRuns (s : State) (c : Cause) (info : InfoByte) : (raiseFault s c info).freeRuns = s.freeRuns := rfl

/-! `resetBlock`. -/

@[simp] theorem resetBlock_p (s : State) : (resetBlock s).p = s.p := rfl
@[simp] theorem resetBlock_ps (s : State) : (resetBlock s).ps = Config.freeParamSet s.freeRuns := rfl
@[simp] theorem resetBlock_sp (s : State) : (resetBlock s).sp = 0 := rfl
@[simp] theorem resetBlock_flt (s : State) : (resetBlock s).flt = none := rfl
@[simp] theorem resetBlock_buf (s : State) : (resetBlock s).buf = .none := rfl
@[simp] theorem resetBlock_bufIdx (s : State) : (resetBlock s).bufIdx = 0 := rfl
@[simp] theorem resetBlock_loc (s : State) : (resetBlock s).loc = Config.freeStageLocal s.freeRuns := rfl
@[simp] theorem resetBlock_entropyPos (s : State) : (resetBlock s).entropyPos = s.entropyPos := rfl
@[simp] theorem resetBlock_maxLen (s : State) : (resetBlock s).maxLen = s.maxLen := rfl
@[simp] theorem resetBlock_pending (s : State) : (resetBlock s).pending = s.pending := rfl
@[simp] theorem resetBlock_answer (s : State) : (resetBlock s).answer = s.answer := rfl
@[simp] theorem resetBlock_freeReads (s : State) : (resetBlock s).freeReads = s.freeReads := rfl
@[simp] theorem resetBlock_freeRuns (s : State) : (resetBlock s).freeRuns = s.freeRuns + 1 := rfl

/-! `powerOnReset`. -/

@[simp] theorem powerOnReset_p (s : State) : (powerOnReset s).p = Vector.replicate 26 .unwritten := rfl
@[simp] theorem powerOnReset_ps (s : State) : (powerOnReset s).ps = Config.freeParamSet s.freeRuns := rfl
@[simp] theorem powerOnReset_sp (s : State) : (powerOnReset s).sp = 0 := rfl
@[simp] theorem powerOnReset_flt (s : State) : (powerOnReset s).flt = none := rfl
@[simp] theorem powerOnReset_buf (s : State) : (powerOnReset s).buf = .none := rfl
@[simp] theorem powerOnReset_bufIdx (s : State) : (powerOnReset s).bufIdx = 0 := rfl
@[simp] theorem powerOnReset_loc (s : State) : (powerOnReset s).loc = Config.freeStageLocal s.freeRuns := rfl
@[simp] theorem powerOnReset_entropyPos (s : State) : (powerOnReset s).entropyPos = s.entropyPos := rfl
@[simp] theorem powerOnReset_maxLen (s : State) : (powerOnReset s).maxLen = s.maxLen := rfl
@[simp] theorem powerOnReset_pending (s : State) : (powerOnReset s).pending = s.pending := rfl
@[simp] theorem powerOnReset_answer (s : State) : (powerOnReset s).answer = none := rfl
@[simp] theorem powerOnReset_freeReads (s : State) : (powerOnReset s).freeReads = s.freeReads := rfl
@[simp] theorem powerOnReset_freeRuns (s : State) : (powerOnReset s).freeRuns = s.freeRuns + 1 := rfl

/-! `retireStage`. -/

@[simp] theorem retireStage_p (s : State) : (retireStage s).p = s.p := rfl
@[simp] theorem retireStage_ps (s : State) : (retireStage s).ps = s.ps := rfl
@[simp] theorem retireStage_sp (s : State) : (retireStage s).sp = s.sp := rfl
@[simp] theorem retireStage_flt (s : State) : (retireStage s).flt = s.flt := rfl
@[simp] theorem retireStage_buf (s : State) : (retireStage s).buf = s.buf := rfl
@[simp] theorem retireStage_bufIdx (s : State) : (retireStage s).bufIdx = s.bufIdx := rfl
@[simp] theorem retireStage_loc (s : State) : (retireStage s).loc = Config.freeStageLocal s.freeRuns := rfl
@[simp] theorem retireStage_entropyPos (s : State) : (retireStage s).entropyPos = s.entropyPos := rfl
@[simp] theorem retireStage_maxLen (s : State) : (retireStage s).maxLen = s.maxLen := rfl
@[simp] theorem retireStage_pending (s : State) : (retireStage s).pending = s.pending := rfl
@[simp] theorem retireStage_answer (s : State) : (retireStage s).answer = s.answer := rfl
@[simp] theorem retireStage_freeReads (s : State) : (retireStage s).freeReads = s.freeReads := rfl
@[simp] theorem retireStage_freeRuns (s : State) : (retireStage s).freeRuns = s.freeRuns + 1 := rfl

/-! `loadDefaults`. -/

@[simp] theorem loadDefaults_p (s : State) : (loadDefaults s).p = writeRows s.p defaultRows := rfl
@[simp] theorem loadDefaults_ps (s : State) : (loadDefaults s).ps = s.ps := by simp only [loadDefaults]
@[simp] theorem loadDefaults_sp (s : State) : (loadDefaults s).sp = s.sp := by simp only [loadDefaults]
@[simp] theorem loadDefaults_flt (s : State) : (loadDefaults s).flt = s.flt := by simp only [loadDefaults]
@[simp] theorem loadDefaults_buf (s : State) : (loadDefaults s).buf = s.buf := by simp only [loadDefaults]
@[simp] theorem loadDefaults_bufIdx (s : State) : (loadDefaults s).bufIdx = s.bufIdx := by simp only [loadDefaults]
@[simp] theorem loadDefaults_loc (s : State) : (loadDefaults s).loc = s.loc := by simp only [loadDefaults]
@[simp] theorem loadDefaults_entropyPos (s : State) : (loadDefaults s).entropyPos = s.entropyPos := by simp only [loadDefaults]
@[simp] theorem loadDefaults_maxLen (s : State) : (loadDefaults s).maxLen = s.maxLen := by simp only [loadDefaults]
@[simp] theorem loadDefaults_pending (s : State) : (loadDefaults s).pending = s.pending := by simp only [loadDefaults]
@[simp] theorem loadDefaults_answer (s : State) : (loadDefaults s).answer = s.answer := by simp only [loadDefaults]
@[simp] theorem loadDefaults_freeReads (s : State) : (loadDefaults s).freeReads = s.freeReads := by simp only [loadDefaults]
@[simp] theorem loadDefaults_freeRuns (s : State) : (loadDefaults s).freeRuns = s.freeRuns := by simp only [loadDefaults]

/-! `finishStage_ok`. -/

@[simp] theorem finishStage_ok_p (s : State) (n : StageCode) (b : Buf) : (finishStage s n (.ok b)).p = s.p := rfl
@[simp] theorem finishStage_ok_ps (s : State) (n : StageCode) (b : Buf) : (finishStage s n (.ok b)).ps = s.ps := rfl
@[simp] theorem finishStage_ok_sp (s : State) (n : StageCode) (b : Buf) : (finishStage s n (.ok b)).sp = n := rfl
@[simp] theorem finishStage_ok_flt (s : State) (n : StageCode) (b : Buf) : (finishStage s n (.ok b)).flt = s.flt := rfl
@[simp] theorem finishStage_ok_buf (s : State) (n : StageCode) (b : Buf) : (finishStage s n (.ok b)).buf = b := rfl
@[simp] theorem finishStage_ok_bufIdx (s : State) (n : StageCode) (b : Buf) : (finishStage s n (.ok b)).bufIdx = s.bufIdx := rfl
@[simp] theorem finishStage_ok_loc (s : State) (n : StageCode) (b : Buf) : (finishStage s n (.ok b)).loc = Config.freeStageLocal s.freeRuns := rfl
@[simp] theorem finishStage_ok_entropyPos (s : State) (n : StageCode) (b : Buf) : (finishStage s n (.ok b)).entropyPos = s.entropyPos := rfl
@[simp] theorem finishStage_ok_maxLen (s : State) (n : StageCode) (b : Buf) : (finishStage s n (.ok b)).maxLen = s.maxLen := rfl
@[simp] theorem finishStage_ok_pending (s : State) (n : StageCode) (b : Buf) : (finishStage s n (.ok b)).pending = s.pending := rfl
@[simp] theorem finishStage_ok_answer (s : State) (n : StageCode) (b : Buf) : (finishStage s n (.ok b)).answer = s.answer := rfl
@[simp] theorem finishStage_ok_freeReads (s : State) (n : StageCode) (b : Buf) : (finishStage s n (.ok b)).freeReads = s.freeReads := rfl
@[simp] theorem finishStage_ok_freeRuns (s : State) (n : StageCode) (b : Buf) : (finishStage s n (.ok b)).freeRuns = s.freeRuns + 1 := rfl

/-! `finishStage_error`. -/

@[simp] theorem finishStage_error_p (s : State) (n : StageCode) (e : StageFault) : (finishStage s n (.error e)).p = s.p := rfl
@[simp] theorem finishStage_error_ps (s : State) (n : StageCode) (e : StageFault) : (finishStage s n (.error e)).ps = s.ps := rfl
@[simp] theorem finishStage_error_sp (s : State) (n : StageCode) (e : StageFault) : (finishStage s n (.error e)).sp = s.sp := rfl
@[simp] theorem finishStage_error_flt (s : State) (n : StageCode) (e : StageFault) : (finishStage s n (.error e)).flt = some { cause := e.1, stage := s.sp, info := e.2 } := rfl
@[simp] theorem finishStage_error_buf (s : State) (n : StageCode) (e : StageFault) : (finishStage s n (.error e)).buf = s.buf := rfl
@[simp] theorem finishStage_error_bufIdx (s : State) (n : StageCode) (e : StageFault) : (finishStage s n (.error e)).bufIdx = s.bufIdx := rfl
@[simp] theorem finishStage_error_loc (s : State) (n : StageCode) (e : StageFault) : (finishStage s n (.error e)).loc = Config.freeStageLocal s.freeRuns := rfl
@[simp] theorem finishStage_error_entropyPos (s : State) (n : StageCode) (e : StageFault) : (finishStage s n (.error e)).entropyPos = s.entropyPos := rfl
@[simp] theorem finishStage_error_maxLen (s : State) (n : StageCode) (e : StageFault) : (finishStage s n (.error e)).maxLen = s.maxLen := rfl
@[simp] theorem finishStage_error_pending (s : State) (n : StageCode) (e : StageFault) : (finishStage s n (.error e)).pending = s.pending := rfl
@[simp] theorem finishStage_error_answer (s : State) (n : StageCode) (e : StageFault) : (finishStage s n (.error e)).answer = s.answer := rfl
@[simp] theorem finishStage_error_freeReads (s : State) (n : StageCode) (e : StageFault) : (finishStage s n (.error e)).freeReads = s.freeReads := rfl
@[simp] theorem finishStage_error_freeRuns (s : State) (n : StageCode) (e : StageFault) : (finishStage s n (.error e)).freeRuns = s.freeRuns + 1 := rfl

/-! `reset`. -/

@[simp] theorem reset_p : (State.reset).p = Vector.replicate 26 .unwritten := rfl
@[simp] theorem reset_ps : (State.reset).ps = ParamSet.zero := rfl
@[simp] theorem reset_sp : (State.reset).sp = 0 := rfl
@[simp] theorem reset_flt : (State.reset).flt = none := rfl
@[simp] theorem reset_buf : (State.reset).buf = .none := rfl
@[simp] theorem reset_bufIdx : (State.reset).bufIdx = 0 := rfl
@[simp] theorem reset_loc : (State.reset).loc = StageLocal.zero := rfl
@[simp] theorem reset_entropyPos : (State.reset).entropyPos = 0 := rfl
@[simp] theorem reset_maxLen : (State.reset).maxLen = Config.suggestedMaxLen := rfl
@[simp] theorem reset_pending : (State.reset).pending = [] := rfl
@[simp] theorem reset_answer : (State.reset).answer = none := rfl
@[simp] theorem reset_freeReads : (State.reset).freeReads = 0 := rfl
@[simp] theorem reset_freeRuns : (State.reset).freeRuns = 0 := rfl

end Sys2Proof.Laws
end

