-- ==== Sys2Proof/Laws/Ops.lean ====
section
/-! SUPPORT. For each shared operation, what it can do, said once: taking a fault, ending a stage, storing computed elements, draws and free NaNs, the register map, the parameter cells, and the sequencer. -/

namespace Sys2Proof.Laws

open Machine Safety

/-! Taking a fault and ending a stage. -/

theorem raiseFault_faults (s : State) (c : Cause) (info : InfoByte) : Faults s (raiseFault s c info) c info :=
  ⟨rfl, rfl, rfl, rfl, ⟨rfl, rfl, rfl, rfl, rfl, rfl, rfl⟩⟩

theorem finishStage_frame (s : State) (n : StageCode) (r : Except StageFault Buf) :
    StageFrame s (finishStage s n r) := by
  cases r <;> exact ⟨rfl, rfl, rfl, rfl, rfl, rfl, rfl⟩

theorem finishStage_completes (s : State) (n : StageCode) (b : Buf) (h : s.flt = none) :
    Completes s (finishStage s n (.ok b)) n b :=
  ⟨rfl, rfl, h, finishStage_frame s n (.ok b)⟩

theorem finishStage_faults (s : State) (n : StageCode) (c : Cause) (info : InfoByte) :
    Faults s (finishStage s n (.error (c, info))) c info :=
  ⟨rfl, rfl, rfl, rfl, finishStage_frame s n _⟩

@[simp] theorem finishStage_entropyPos (s : State) (n : StageCode) (r : Except StageFault Buf) :
    (finishStage s n r).entropyPos = s.entropyPos := by
  cases r <;> rfl

/-- A stage ends in its completion or in its fault, and in nothing else. -/
theorem finishStage_cases (s : State) (n : StageCode) (r : Except StageFault Buf) (h : s.flt = none) :
    (∃ b, r = .ok b ∧ Completes s (finishStage s n r) n b) ∨
      (∃ c info, r = .error (c, info) ∧ Faults s (finishStage s n r) c info) := by
  rcases r with ⟨c, info⟩ | b
  · exact .inr ⟨c, info, rfl, finishStage_faults s n c info⟩
  · exact .inl ⟨b, rfl, finishStage_completes s n b h⟩

/-! Storing computed elements. -/

@[simp] theorem storeFrom_length (nan : Nat → F64) (u : Nat) (l : List F64) : (storeFrom nan u l).length = l.length := by
  induction l generalizing u with
  | nil => rfl
  | cons x xs ih => simp [storeFrom, ih]

theorem storeFrom_getElem? (nan : Nat → F64) (u : Nat) (l : List F64) (i : Nat) :
    (storeFrom nan u l)[i]? = l[i]?.map (fun x => if isNaN x then nan (u + i) else x) := by
  induction l generalizing u i with
  | nil => simp [storeFrom]
  | cons x xs ih =>
    cases i with
    | zero => simp [storeFrom]
    | succ i => simp [storeFrom, ih, Nat.add_comm, Nat.add_left_comm]

/-- Storing at index 0 in the state `s` is `stored`, element by element. -/
theorem storeFrom_stored (s : State) (l : List F64) (i : Nat) :
    (storeFrom (freeNaN s) 0 l)[i]? = l[i]?.map (stored s i) := by
  rw [storeFrom_getElem?]
  simp only [Nat.zero_add]
  rfl

/-! Free values keep the bounds the spec sets. -/

theorem nanOfBits_isNaN (w : Word) : isNaN (nanOfBits w) = true := by
  have key : ∀ v : BitVec 64, (v &&& 0x7FF0000000000000) = 0x7FF0000000000000 →
      (v &&& 0x000FFFFFFFFFFFFF) ≠ 0 → isNaN v = true := by
    intro v h1 h2
    have e1 : v.toNat &&& 0x7FF0000000000000 = 0x7FF0000000000000 := by
      simpa using congrArg BitVec.toNat h1
    have e2 : v.toNat &&& 0x000FFFFFFFFFFFFF ≠ 0 := by
      intro h; apply h2; apply BitVec.eq_of_toNat_eq; simpa using h
    have f2 : v.toNat % 2 ^ 52 ≠ 0 := by
      rw [← Nat.and_two_pow_sub_one_eq_mod]; exact e2
    have f1 : v.toNat / 2 ^ 52 % 2 ^ 11 = 2047 := by
      rw [← Nat.and_two_pow_sub_one_eq_mod, ← Nat.shiftRight_eq_div_pow]
      have := congrArg (fun n => n >>> 52) e1
      simpa [Nat.shiftRight_and_distrib] using this
    unfold isNaN expField fracField
    rw [f1]
    simp only [beq_self_eq_true, Bool.true_and, bne_iff_ne, ne_eq]
    exact f2
  have absorb : ∀ a k d : BitVec 64, ((a ||| k) ||| d) &&& k = k := by
    intro a k d; ext i hi; simp only [BitVec.getElem_and, BitVec.getElem_or]
    cases a[i] <;> cases k[i] <;> cases d[i] <;> rfl
  unfold nanOfBits
  split
  · apply key
    · exact absorb _ _ _
    · intro h
      have := congrArg (fun b : BitVec 64 => b.getLsbD 0) h
      simp at this
  · rename_i h
    apply key
    · simpa using absorb w 0x7FF0000000000000 0
    · intro h2; apply h; rw [← h2]
      have disjoint : ∀ a k m : BitVec 64, k &&& m = 0 → a &&& m = (a ||| k) &&& m := by
        intro a k m h0
        apply BitVec.eq_of_getLsbD_eq
        intro i _
        have hi0 := congrArg (fun v : BitVec 64 => v.getLsbD i) h0
        simp only [BitVec.getLsbD_and, BitVec.getLsbD_or] at hi0 ⊢
        revert hi0
        cases a.getLsbD i <;> cases k.getLsbD i <;> cases m.getLsbD i <;> simp
      exact disjoint w _ _ (by decide)

theorem freeNaN_isNaN (s : State) (u : Nat) : isNaN (freeNaN s u) = true := nanOfBits_isNaN _

/-- A stored element is a NaN exactly where the computed one is. -/
theorem stored_isNaN (s : State) (u : Nat) (y : F64) : isNaN (stored s u y) = isNaN y := by
  unfold stored
  split <;> simp_all [freeNaN_isNaN]

theorem inDrawRange_lit0 : inDrawRange lit0 = true := by decide +kernel

/-- Every draw lies in the range of the entropy port (R38). -/
theorem drawAt_inRange (n : Nat) : inDrawRange (drawAt n) = true := by
  unfold drawAt
  split
  · assumption
  · exact inDrawRange_lit0

/-! The register map and the parameter cells. -/

theorem hostReg_param (i : Fin 26) : hostReg (BitVec.ofNat 8 i.val) = .param i := by
  revert i; decide

theorem hostReg_lt (a : RegAddr) (h : a.toNat < 26) : hostReg a = .param ⟨a.toNat, h⟩ := by
  simp [hostReg, h]

theorem cellAt_val (p : Vector ParamCell 26) (i : Fin 26) : cellAt p i.val = p[i] := by
  simp [cellAt]

theorem writeParam_getElem (p : Vector ParamCell 26) (i j : Fin 26) (w : Word) :
    (writeParam p i w)[j] = if i = j then .written w else p[j] := by
  simp only [writeParam, Fin.getElem_fin, Vector.getElem_set, Fin.ext_iff]

/-! The sequencer. -/

/-- The stage operation of a code is the instruction its word decodes to (R92, R358). -/
theorem execStage_eq_exec (n : StageCode) (i : Instr) (s : State) (h : decode (.stage n) = .ok i) :
    execStage n s = exec i s := by
  revert h
  simp only [decode, decodeStage, execStage]
  split <;> intro h <;> cases h <;> simp_all [exec]

/-- The stage operations of the codes 1 to 11 are the only ones. -/
theorem decodeStage_ok (n : StageCode) (h1 : 1 ≤ n.toNat) (h2 : n.toNat ≤ 11) :
    ∃ i, decode (.stage n) = .ok i := by
  simp only [decode, decodeStage]
  split
  all_goals first
    | exact ⟨_, rfl⟩
    | (exfalso; simp_all; omega)

/-- With no fault latched a stage operation takes a next state: its completion or its fault, both by `finishStage`. -/
theorem execStage_next (n : StageCode) (s : State) (h : s.flt = none) (h1 : 1 ≤ n.toNat) (h2 : n.toNat ≤ 11) :
    ∃ pos r, execStage n s = .next (finishStage { s with entropyPos := pos } (n + 1) r) ∧
      ((∃ e, r = .error e) → pos = s.entropyPos) ∧ (n ≠ 6 → pos = s.entropyPos) := by
  have hf : s.flt.isSome = false := by simp [h]
  have code : ∀ k : Nat, n.toNat = k → k ≤ 11 → n = BitVec.ofNat 4 k := by
    intro k hk _; apply BitVec.eq_of_toNat_eq; simp [hk]; omega
  unfold execStage
  split
  case h_6 hn =>
    rw [code 6 hn (by omega)]
    simp only [execOsc, hf, Bool.false_eq_true, if_false]
    split
    · exact ⟨_, _, rfl, by simp, by simp⟩
    · exact ⟨s.entropyPos, _, rfl, by simp, by simp⟩
  all_goals first
    | (rename_i hn
       rw [code _ hn (by omega)]
       simp only [execFreq, execArp, execVib, execQuant, execSuper, execFilt, execPhaser, execCompress, execEnv, execDigit,
         hf, Bool.false_eq_true, if_false]
       exact ⟨s.entropyPos, _, rfl, by simp, by simp⟩)
    | (exfalso; simp only [imp_false] at *; omega)

end Sys2Proof.Laws
end

