-- ==== Sys2Proof/Laws/PerInstr.lean ====
section
/-! SUPPORT. The per-instruction family EncodesItsRow: the encoder's word of an instruction has the fixed bits that the instruction's row of spec/opcode_table.json gives (mask and match), in the row's width. -/

namespace Sys2Proof.Laws

/-- A row of the opcode table: the width of its word, its mask and its match value. -/
structure OpcodeRow where
  nbits : Nat
  mask : Nat
  bits : Nat
deriving DecidableEq, Repr

/-- The row of an instruction, copied from spec/opcode_table.json. -/
def opcodeRow : Instr → OpcodeRow
  | .rd _ => ⟨73, 0x1000000000000000000, 0x0000000000000000000⟩
  | .wr _ _ => ⟨73, 0x1000000000000000000, 0x1000000000000000000⟩
  | .nop => ⟨73, 0x1FFFFFFFFFFFFFFFFFF, 0x1200000000000000000⟩
  | .reset => ⟨73, 0x1FFFFFFFFFFFFFFFFFF, 0x1200000000000000001⟩
  | .loaddef => ⟨73, 0x1FFFFFFFFFFFFFFFFFF, 0x1200000000000000002⟩
  | .arm => ⟨73, 0x1FFFFFFFFFFFFFFFFFF, 0x1200000000000000003⟩
  | .step => ⟨73, 0x1FFFFFFFFFFFFFFFFFF, 0x1200000000000000004⟩
  | .run => ⟨73, 0x1FFFFFFFFFFFFFFFFFF, 0x1200000000000000005⟩
  | .freq => ⟨4, 0xF, 0x1⟩
  | .arp => ⟨4, 0xF, 0x2⟩
  | .vib => ⟨4, 0xF, 0x3⟩
  | .quant => ⟨4, 0xF, 0x4⟩
  | .super => ⟨4, 0xF, 0x5⟩
  | .osc => ⟨4, 0xF, 0x6⟩
  | .filt => ⟨4, 0xF, 0x7⟩
  | .phaser => ⟨4, 0xF, 0x8⟩
  | .compress => ⟨4, 0xF, 0x9⟩
  | .env => ⟨4, 0xF, 0xA⟩
  | .digit => ⟨4, 0xF, 0xB⟩

/-- The width and the bits of a word. -/
def wordBits : FetchWord → Nat × Nat
  | .host t => (73, t.toNat)
  | .stage u => (4, u.toNat)

/-- The encoder's word of the instruction matches the instruction's row. -/
def EncodesItsRow.Statement (i : Instr) : Prop :=
  (wordBits (encode i)).1 = (opcodeRow i).nbits ∧
    (wordBits (encode i)).2 &&& (opcodeRow i).mask = (opcodeRow i).bits

/-- Bit 72 of an assembled transaction is its write bit (R90). -/
theorem hostWord_writeBit (w : Bool) (addr : RegAddr) (data : Word) :
    (hostWord w addr data).toNat &&& 0x1000000000000000000 = if w then 0x1000000000000000000 else 0 := by
  have h : (0x1000000000000000000 : Nat) = 2 ^ 72 := by norm_num
  rw [h, Nat.and_two_pow, ← BitVec.getLsbD]
  have : (hostWord w addr data).getLsbD 72 = w := by
    rw [hostWord, BitVec.getLsbD_append, BitVec.getLsbD_append]
    simp
  rw [this]
  cases w <;> simp

theorem EncodesItsRow.rd (addr : RegAddr) : EncodesItsRow.Statement (.rd addr) :=
  ⟨rfl, hostWord_writeBit false addr 0⟩

theorem EncodesItsRow.wr (addr : RegAddr) (data : Word) : EncodesItsRow.Statement (.wr addr data) :=
  ⟨rfl, hostWord_writeBit true addr data⟩

theorem EncodesItsRow.nop : EncodesItsRow.Statement .nop := by
  unfold EncodesItsRow.Statement; decide

theorem EncodesItsRow.reset : EncodesItsRow.Statement .reset := by
  unfold EncodesItsRow.Statement; decide

theorem EncodesItsRow.loaddef : EncodesItsRow.Statement .loaddef := by
  unfold EncodesItsRow.Statement; decide

theorem EncodesItsRow.arm : EncodesItsRow.Statement .arm := by
  unfold EncodesItsRow.Statement; decide

theorem EncodesItsRow.step : EncodesItsRow.Statement .step := by
  unfold EncodesItsRow.Statement; decide

theorem EncodesItsRow.run : EncodesItsRow.Statement .run := by
  unfold EncodesItsRow.Statement; decide

theorem EncodesItsRow.freq : EncodesItsRow.Statement .freq := by
  unfold EncodesItsRow.Statement; decide

theorem EncodesItsRow.arp : EncodesItsRow.Statement .arp := by
  unfold EncodesItsRow.Statement; decide

theorem EncodesItsRow.vib : EncodesItsRow.Statement .vib := by
  unfold EncodesItsRow.Statement; decide

theorem EncodesItsRow.quant : EncodesItsRow.Statement .quant := by
  unfold EncodesItsRow.Statement; decide

theorem EncodesItsRow.super : EncodesItsRow.Statement .super := by
  unfold EncodesItsRow.Statement; decide

theorem EncodesItsRow.osc : EncodesItsRow.Statement .osc := by
  unfold EncodesItsRow.Statement; decide

theorem EncodesItsRow.filt : EncodesItsRow.Statement .filt := by
  unfold EncodesItsRow.Statement; decide

theorem EncodesItsRow.phaser : EncodesItsRow.Statement .phaser := by
  unfold EncodesItsRow.Statement; decide

theorem EncodesItsRow.compress : EncodesItsRow.Statement .compress := by
  unfold EncodesItsRow.Statement; decide

theorem EncodesItsRow.env : EncodesItsRow.Statement .env := by
  unfold EncodesItsRow.Statement; decide

theorem EncodesItsRow.digit : EncodesItsRow.Statement .digit := by
  unfold EncodesItsRow.Statement; decide

end Sys2Proof.Laws
end

