-- ==== Sys2Proof/Laws/Stages.lean ====
section
/-! SUPPORT. The lengths of the sequences the stage operations make, and the first facts about their element runs. -/

namespace Sys2Proof.Laws

open Machine Safety

@[simp] theorem tile_length (whole rest : List F64) (n : Nat) (h : whole ≠ []) : (tile whole rest n).length = n := by
  induction n generalizing rest with
  | zero => cases rest <;> rfl
  | succ n ih =>
    cases rest with
    | cons x xs => simp [tile, ih]
    | nil =>
      cases whole with
      | nil => exact absurd rfl h
      | cons x xs => simp [tile, ih]

theorem tile_nil (n : Nat) : tile [] [] n = [] := by cases n <;> rfl

theorem freqPrefix_length_le (ps : ParamSet) (n : Nat) (r : FreqRegs) : (freqPrefix ps n r).length ≤ n := by
  induction n generalizing r with
  | zero => simp [freqPrefix]
  | succ n ih =>
    unfold freqPrefix
    split
    · simp
    · simpa using ih _

/-- A track is never longer than its length register says (R163, R165). -/
theorem freqTrack_length_le (nan : Nat → F64) (ps : ParamSet) (r : FreqRegs) : (freqTrack nan ps r).length ≤ r.len := by
  have hspan : freqSpan r ≤ r.len := by
    unfold freqSpan; split <;> omega
  have hpre := freqPrefix_length_le ps (freqSpan r) r
  simp only [freqTrack, storeFrom_length]
  split
  · simp only [storeFrom_length]; omega
  · rename_i h
    by_cases hn : storeFrom nan 0 (freqPrefix ps (freqSpan r) r) = []
    · rw [hn, tile_nil]; simp
    · rw [List.length_append, tile_length _ _ _ hn, storeFrom_length]; omega

@[simp] theorem arpApply_length (nan : Nat → F64) (r : ArpRegs) (l : List F64) : (arpApply nan r l).length = l.length := by
  simp only [arpApply, List.length_append, List.length_take, storeFrom_length, List.length_map, List.length_drop]
  omega

@[simp] theorem vibRun_length (sin : F64 → F64) (r : VibRegs) (l : List F64) : (vibRun sin r l).length = l.length := by
  induction l generalizing r with
  | nil => rfl
  | cons x xs ih => simp [vibRun, ih]

theorem quantRun_length (l : List F64) (q : List Int) (h : quantRun l = .ok q) : q.length = l.length := by
  induction l generalizing q with
  | nil => cases h; rfl
  | cons x xs ih =>
    simp only [quantRun] at h
    split at h
    · cases h
    · split at h
      · cases h
      · rename_i hq; cases h; simp [ih _ hq]

@[simp] theorem superRun_length (l : List Int) : (superRun l).length = 8 * l.length := by
  induction l with
  | nil => rfl
  | cons x xs ih => simp [superRun, ih, Config.supersample]; omega

theorem superRun_mem (l : List Int) (p : Int) (h : p ∈ superRun l) : p ∈ l := by
  induction l with
  | nil => simp [superRun] at h
  | cons x xs ih =>
    simp only [superRun, List.mem_append, List.mem_replicate] at h
    rcases h with ⟨_, rfl⟩ | h
    · exact List.mem_cons_self
    · exact List.mem_cons_of_mem _ (ih h)

theorem oscRun_length (c : Config.Choices) (draw : Nat → F64) (shape : WaveShape) (r : OscRegs) (pos : Nat) (l : List Int) :
    (oscRun c draw shape r pos l).1.length = l.length := by
  induction l generalizing r pos with
  | nil => rfl
  | cons p ps ih => simp [oscRun, ih]

@[simp] theorem filtRun_length (r : FiltRegs) (l : List F64) : (filtRun r l).length = l.length := by
  induction l generalizing r with
  | nil => rfl
  | cons x xs ih => simp [filtRun, ih]

theorem phaserRun_length (r : PhaserRegs) (l ys : List F64) (h : phaserRun r l = .ok ys) : ys.length = l.length := by
  induction l generalizing r ys with
  | nil => cases h; rfl
  | cons x xs ih =>
    simp only [phaserRun] at h
    split at h
    · cases h
    · split at h
      · cases h
      · rename_i hq; cases h; simp [ih _ _ hq]

@[simp] theorem decimate_length (n m : Nat) (l : List F64) : (decimate n m l).length = m := by
  induction m generalizing l with
  | zero => rfl
  | succ m ih => simp [decimate, ih]

@[simp] theorem envRun_length (punch gain : F64) (la ls ld i : Int) (l : List F64) :
    (envRun punch gain la ls ld i l).length = l.length := by
  induction l generalizing i with
  | nil => rfl
  | cons x xs ih => simp [envRun, ih]

theorem digitRun_length (size : Nat) (l : List F64) (q : List Int) (h : digitRun size l = .ok q) : q.length = l.length := by
  induction l generalizing q with
  | nil => cases h; rfl
  | cons x xs ih =>
    simp only [digitRun] at h
    split at h
    · cases h
    · split at h
      · cases h
      · rename_i hq; cases h; simp [ih _ hq]

end Sys2Proof.Laws
end

