-- ==== Sys2Proof/Tests/Slice0.lean ====
section
/-! SUPPORT. The model's own tests: the WellFormed smoke test, decoding words written out from the formats, the worked examples of the rules on one stage each, and a witness for the hypotheses of every statement. -/

namespace Sys2Proof.Tests

open Machine Safety

/-! One theorem after another: many kernel evaluations side by side need more threads than the checker's memory limit allows. -/

set_option Elab.async false

/-! Helpers. -/

/-- A state armed with `ps` whose stage pointer and buffer are given. -/
def armed (sp : StageCode) (ps : ParamSet) (buf : Buf) : State := { State.reset with sp := sp, ps := ps, buf := buf }

/-- What the host can see of a next state: `SP`, `FLT` and `BUF`. -/
def view (i : Instr) (s : State) : Option (StageCode × Option FaultRecord × Buf) :=
  match exec i s with
  | .next t => some (t.sp, t.flt, t.buf)
  | .fault _ => none
  | .refused _ => none

/-- The word a read gives, and the fault latch after it. -/
def readView (addr : RegAddr) (s : State) : Option (Option Word × Option FaultRecord) :=
  match exec (.rd addr) s with
  | .next t => some (t.answer, t.flt)
  | .fault _ => none
  | .refused _ => none

/-- The outcome is a next state. -/
def isNext (o : Host.Outcome State Fault Refusal) (test : State → Bool) : Bool :=
  match o with
  | .next t => test t
  | .fault _ => false
  | .refused _ => false

/-- From an evaluated outcome to the next state it is. -/
theorem next_of {o : Host.Outcome State Fault Refusal} {test : State → Bool} (h : isNext o test = true) :
    ∃ t, o = .next t ∧ test t = true := by
  cases o with
  | next t => exact ⟨t, rfl, h⟩
  | fault f => exact Bool.noConfusion h
  | refused r => exact Bool.noConfusion h

/-- The defaults the spec fixes for the shapes that need no transcendental function (R223, R292). -/
def plainChoices : Config.Choices where
  sin := id
  exp := id
  powr := fun x _ => x
  dutyInit := dutyInitDefault
  phaFphase0 := phaFphase0Default
  phaFdphase := phaFdphaseDefault

/-- The draws of R232's example: the first 32 run from -1.0 by 1/32, the next 32 from 0.0. -/
def toNoise (n : Nat) : F64 := fdiv (toF ((n : Int) - 32)) lit32

/-- A parameter set the ARM checks pass: all real fields zero, 44100 Hz, 8 bits. -/
def quiet : ParamSet := { ParamSet.zero with sampleRate := 44100, sampleSize := 8 }

/-- The registers as ARM wants them: LOADDEF's rows, and the three LOADDEF leaves out. -/
def written (rate size : Word) : State :=
  { State.reset with p := writeParam (writeParam (writeParam (writeRows State.reset.p defaultRows) 0x18 rate) 0x19 size) 0x16 0 }

/-- A state with a fault latched. -/
def stuck : State := faulted State.reset .badSequence 0

/-! WellFormed: every ill-formed shape is refused, its neighbours are not (R101). -/

theorem test_wf_command_words :
    [0, 1, 2, 3, 4, 5].map (fun d => (Instr.wr 0x20 d).wellFormed) = List.replicate 6 false := by decide
theorem test_wf_illegal_commands :
    [(Instr.wr 0x20 6).wellFormed, (Instr.wr 0x20 0x105).wellFormed, (Instr.wr 0x21 5).wellFormed] = [true, true, true] := by
  decide

/-! Decoding: words written out bit by bit from R90, R92 and R93; `w`, then 8 bits of address, then the data. -/

theorem test_decode_rd : decode (.host (0b0#1 ++ 0b00010111#8 ++ 0xAB#64)) = .ok (.rd 0x17) := by decide
theorem test_decode_wr : decode (.host (0b1#1 ++ 0b00000001#8 ++ 0x3FD3333333333333#64)) =
      .ok (.wr 1 0x3FD3333333333333) := by
  decide
theorem test_decode_wr_illegal : decode (.host (0b1#1 ++ 0b00100000#8 ++ 0x100000000000005#64)) =
    .ok (.wr 0x20 0x100000000000005) := by decide
theorem test_decode_nop : decode (.host (0b1#1 ++ 0b00100000#8 ++ 0x0#64)) = .ok .nop := by decide
theorem test_decode_reset : decode (.host (0b1#1 ++ 0b00100000#8 ++ 0x1#64)) = .ok .reset := by decide
theorem test_decode_loaddef : decode (.host (0b1#1 ++ 0b00100000#8 ++ 0x2#64)) = .ok .loaddef := by decide
theorem test_decode_arm : decode (.host (0b1#1 ++ 0b00100000#8 ++ 0x3#64)) = .ok .arm := by decide
theorem test_decode_step : decode (.host (0b1#1 ++ 0b00100000#8 ++ 0x4#64)) = .ok .step := by decide
theorem test_decode_run : decode (.host (0b1#1 ++ 0b00100000#8 ++ 0x5#64)) = .ok .run := by decide
theorem test_decode_freq : decode (.stage 0b0001#4) = .ok .freq := by decide
theorem test_decode_arp : decode (.stage 0b0010#4) = .ok .arp := by decide
theorem test_decode_vib : decode (.stage 0b0011#4) = .ok .vib := by decide
theorem test_decode_quant : decode (.stage 0b0100#4) = .ok .quant := by decide
theorem test_decode_super : decode (.stage 0b0101#4) = .ok .super := by decide
theorem test_decode_osc : decode (.stage 0b0110#4) = .ok .osc := by decide
theorem test_decode_filt : decode (.stage 0b0111#4) = .ok .filt := by decide
theorem test_decode_phaser : decode (.stage 0b1000#4) = .ok .phaser := by decide
theorem test_decode_compress : decode (.stage 0b1001#4) = .ok .compress := by decide
theorem test_decode_env : decode (.stage 0b1010#4) = .ok .env := by decide
theorem test_decode_digit : decode (.stage 0b1011#4) = .ok .digit := by decide
theorem test_decode_refused : [0b0000#4, 0b1100#4, 0b1101#4, 0b1110#4, 0b1111#4].map (fun u => decode (.stage u)) =
    [0, 12, 13, 14, 15].map (fun u => .error (.notAnOperation u)) := by decide
theorem test_table_words : [decodeTableWord 80 0x1200000000000000005, decodeTableWord 80 0x1270000000000000000,
    decodeTableWord 8 0x9, decodeTableWord 8 0x0, decodeTableWord 8 0x11, decodeTableWord 16 0x9,
      decodeTableWord 80 (2 ^ 73)] =
    [some .run, some (.wr 0x27 0), some .compress, none, none, none, none] := by decide
theorem test_encode : [encode .run, encode (.rd 0x27), encode .digit] =
    [.host 0x1200000000000000005, .host 0x0270000000000000000, .stage 0xB] := by decide

/-! Literals: the pattern of a literal is the rounding of its decimal (R122). -/

/-- The binary64 nearest to `num / den`. -/
def nearest (num den : Nat) : F64 := roundTo false (unitScale * num) den

theorem test_literals : [lit0_9, lit0_8, lit0_1, lit0_01, lit0_001, lit0_0003, lit0_0001, lit0_00005, lit1em5, lit1em6,
      lit44100] =
    [nearest 9 10, nearest 8 10, nearest 1 10, nearest 1 100, nearest 1 1000, nearest 3 10000, nearest 1 10000,
      nearest 5 100000, nearest 1 100000, nearest 1 1000000, nearest 44100 1] := by decide +kernel
theorem test_overflow_and_underflow : fmul 0x7FEFFFFFFFFFFFFF lit2 = infinity false ∧
    fmul 0x0000000000000001 litHalf = 0 ∧ fmul 0x8000000000000001 lit0_9 = 0x8000000000000001 ∧
    fadd lit1 0x3CA0000000000000 = lit1 ∧ fadd 0x3FF0000000000001 0x3CA0000000000000 = 0x3FF0000000000002 :=
      by decide +kernel
theorem test_special : fdiv lit1 (zero true) = infinity true ∧ isNaN (fdiv lit0 lit0) = true ∧
    isNaN (fsub (infinity false) (infinity false)) = true ∧ isNaN (fmul lit0 (infinity true)) = true ∧
    fadd (zero true) lit0 = lit0 ∧ fsub lit1 lit1 = lit0 := by decide +kernel

/-! Host transactions (R359 to R361, R65, R451). -/

theorem test_reset_reads : [readView 0x20 .reset, readView 0x21 .reset, readView 0x26 .reset] =
    List.replicate 3 (some (some 0, none)) := by decide +kernel
theorem test_reset_bufdata : readView 0x27 .reset = some (some 0, some ⟨.badRegisterAccess, 0, 0x27⟩) := by decide +kernel
theorem test_wr_read_only : view (.wr 0x23 7) .reset = some (0, some ⟨.badRegisterAccess, 0, 0x23⟩, .none) :=
      by decide +kernel
theorem test_wr_illegal : view (.wr 0x20 0x1FF) .reset = some (0, some ⟨.illegalCommand, 0, 0xFF⟩, .none) :=
      by decide +kernel
theorem test_rd_pcm : readView 0x27 { armed 12 { quiet with sampleSize := 16 } (.pcm [5, -2]) with bufIdx := 1 } =
    some (some 0xFFFFFFFFFFFFFFFE, none) := by decide +kernel
theorem test_rd_itrack : readView 0x27 (armed 5 quiet (.itrack [1098])) = some (some 1098, none) := by decide +kernel

/-! Commands. -/

theorem test_reset_command : view .reset { stuck with sp := 7, buf := .signal [lit1] } = some (0, none, .none) :=
      by decide +kernel
theorem test_loaddef : isNext (exec .loaddef .reset) (fun t => t.p[(0x11 : Fin 26)] == .written 0x3FF0000000000000 &&
    t.p[(0x02 : Fin 26)] == .written 0x3FD999999999999A && t.p[(0x16 : Fin 26)] == .unwritten) = true := by decide +kernel
theorem test_arm_unwritten : view .arm { State.reset with p := writeRows State.reset.p defaultRows } =
    some (0, some ⟨.paramUnwritten, 0, 0x16⟩, .none) := by decide +kernel
theorem test_arm_ok : view .arm { written 44100 16 with sp := 12, buf := .pcm [1] } = some (1, none, .none) :=
      by decide +kernel
theorem test_step_idle : view .step .reset = some (0, some ⟨.badSequence, 0, 0⟩, .none) := by decide +kernel
theorem test_step_super : view .step (armed 5 quiet (.itrack [9])) = some (6, none, .itrack (List.replicate 8 9)) := by
  decide +kernel
theorem test_run_done : view .run (armed 12 quiet (.pcm [])) = some (12, some ⟨.badSequence, 12, 12⟩, .pcm []) :=
      by decide +kernel
theorem test_run_last : view .run (armed 11 quiet (.signal [lit1, 0x8000000000000000])) = some (12, none, .pcm [255,
      128]) := by
  decide +kernel

/-! Stage operations: the worked examples of the rules. -/

/-- Vector F1: two phases of ten elements at the constant period. -/
theorem test_freq_constant : view .freq (armed 1 { quiet with envSustain := 0x3F847AE147AE147B, envDecay := 0x3F847AE147AE147B, baseFreq := lit1 } .none) =
    some (2, none, .track (List.replicate 20 0x4058F99B3C9C83F8)) := by decide +kernel
/-- The parameters of vectors F3 and F4, with the repeat speed given. -/
def slides (r : F64) : ParamSet :=
  { quiet with
    envSustain := 0x3F9EB851EB851EB8
    baseFreq := 0x3FE3333333333333
    freqLimit := litHalf
    freqRamp := litNeg1
    repeatSpeed := r }
/-- Vectors F3 and F4: the tiling keeps the track at its length, the limit ends it after 36 elements. -/
theorem test_freq_limit : [lit1, lit0].map (fun r => isNext (exec .freq (armed 1 (slides r) .none)) (fun t =>
    bufLen t.buf == (if r = lit1 then 90 else 36) &&
      (realElems t.buf)[35]? == some (if r = lit1 then 0x4072041867E2E87F else 0x4078C55B847047B8))) = [true, true] :=
        by decide +kernel
/-- R182. -/
theorem test_arp : view .arp (armed 2 { quiet with arpMod := litHalf, arpSpeed := lit1 } (.track (List.replicate 34 lit100))) =
    some (3, none, .track (List.replicate 32 lit100 ++ [0x4053600000000000, 0x4053600000000000])) := by decide +kernel
theorem test_arp_down : view .arp (armed 2 { quiet with arpMod := litNegHalf, arpSpeed := lit1 } (.track (List.replicate 33 lit100))) =
    some (3, none, .track (List.replicate 32 lit100 ++ [0x4075E00000000000])) := by decide +kernel
theorem test_vib_identity : view .vib (armed 3 { quiet with vibStrength := lit1 } (.track [lit100])) = some (4, none,
      .track [lit100]) := by
  decide +kernel
/-- R186 with the sine replaced by the identity: the phase is advanced before it is used. -/
theorem test_vib_order : vibRun id (vibInit { quiet with vibSpeed := lit1, vibStrength := lit1 }) [lit100, lit100] =
    [0x40591FFFFFFFFFFF, 0x4059400000000000] := by decide +kernel
/-- R201. -/
theorem test_quant : view .quant (armed 4 quiet (.track [0x40912B9AB9AB9ABA, 0x4021FF7CED916873, 0x401E000000000000,
      0xC00999999999999A, 0x4028000000000000])) =
    some (5, none, .itrack [1098, 8, 8, 8, 12]) := by decide +kernel
theorem test_quant_fault : view .quant (armed 4 quiet (.track [lit10, 0x43E0000000000000])) =
    some (4, some ⟨.badFloatToInt, 4, 0⟩, .track [lit10, 0x43E0000000000000]) := by decide +kernel
/-- R204. -/
theorem test_super : view .super (armed 5 quiet (.itrack [1098, 8])) =
    some (6, none, .itrack (List.replicate 8 1098 ++ List.replicate 8 8)) := by decide +kernel
/-- R232, Sawtooth and its change of period. -/
theorem test_osc_sawtooth : view .osc (armed 6 { quiet with waveType := 1 } (.itrack [8, 8, 8, 20, 8])) =
    some (7, none, .signal [0x3FE8000000000000, 0x3FE0000000000000, 0x3FD0000000000000, 0x3FE3333333333333,
      0xBFD0000000000000]) := by decide +kernel
/-- R232, Square with `duty` 0.5 and the default DUTY_INIT, and Noise. -/
theorem test_osc_square_noise :
    (oscRun plainChoices drawAt .square (oscInit plainChoices drawAt { quiet with duty := litHalf } .square 0 (Vector.replicate 32 0)).1 0
      (List.replicate 10 8)).1 = [0x3FE0000000000000, 0xBFE0000000000000, 0xBFE0000000000000, 0xBFE0000000000000,
        0xBFE0000000000000, 0xBFE0000000000000, 0xBFE0000000000000, 0x3FE0000000000000, 0x3FE0000000000000,
          0xBFE0000000000000] ∧
    oscRun plainChoices toNoise .noise (oscInit plainChoices toNoise quiet .noise 0 (Vector.replicate 32 0)).1 32 (List.replicate 9 8) =
      ([0xBFEC000000000000, 0xBFE8000000000000, 0xBFE4000000000000, 0xBFE0000000000000, 0xBFD8000000000000,
        0xBFD0000000000000, 0xBFC0000000000000, 0x0000000000000000, 0x3FC0000000000000], 64) := by decide +kernel
/-- R261 (with POWR of 1.0) and R262. -/
theorem test_filt_bypass : filtRun (filtInit plainChoices { quiet with lpfFreq := lit1 }) [litHalf, litHalf, litNegHalf,
      litNegHalf] =
    [0x3FDFFFEB074A771D, 0x3FDFFFD60EA2ACAA, 0xBFE0000A7C4626CE, 0xBFDFFFFFFFC90664] := by decide +kernel
theorem test_filt_active : filtRun (filtInit plainChoices { quiet with lpfFreq := litHalf, lpfResonance := litHalf, hpfFreq := lit0_1 })
    [litHalf, litHalf, litHalf, litNegHalf, litNegHalf, litNegHalf] =
    [0x3F79184A0E410B63, 0x3F929ECC2C4B627F, 0x3FA262539C836000, 0x3FA7EA87D84BAEF0, 0x3FA9E8725FBE38DB,
      0x3FA8679E3B2C5395] := by
  decide +kernel
/-- R297 (1) and (3), from element 10 and from element 7. -/
theorem test_phaser : phaserStage plainChoices (fun _ => 0) { quiet with phaOffset := lit0_1 }
    (.signal [0x3FF0000000000000, 0x4000000000000000, 0x4008000000000000, 0x4010000000000000, 0x4014000000000000,
      0x4018000000000000, 0x401C000000000000, 0x4020000000000000, 0x4022000000000000, 0x4024000000000000,
        0x4026000000000000, 0x4028000000000000]) = .ok (.signal [0x3FF0000000000000, 0x4000000000000000,
          0x4008000000000000, 0x4010000000000000, 0x4014000000000000, 0x4018000000000000, 0x401C000000000000,
            0x4020000000000000, 0x4022000000000000, 0x4024000000000000, 0x4028000000000000, 0x402C000000000000]) :=
              by decide +kernel
theorem test_phaser_ramp : phaserStage plainChoices (fun _ => 0) { quiet with phaRamp := litNeg1 }
    (.signal [0x3FF0000000000000, 0x4000000000000000, 0x4008000000000000, 0x4010000000000000, 0x4014000000000000,
      0x4018000000000000, 0x401C000000000000, 0x4020000000000000, 0x4022000000000000]) =
        .ok (.signal [0x4000000000000000, 0x4010000000000000, 0x4018000000000000, 0x4020000000000000,
          0x4024000000000000, 0x4028000000000000, 0x402C000000000000, 0x402E000000000000, 0x4031000000000000]) :=
            by decide +kernel
/-- R315 (1) and (2). -/
theorem test_compress : view .compress (armed 9 quiet (.signal (List.replicate 8 lit0_1 ++ [lit1, litNeg1, lit1,
      litNeg1, lit1, litNeg1,
    lit1, litNeg1] ++ List.replicate 5 lit0_9))) = some (10, none, .signal [0x3FB9999999999999, 0]) := by decide +kernel
theorem test_compress_half : view .compress (armed 9 { quiet with sampleRate := 22050 } (.signal ((List.range 40).map (fun n => toF n)))) =
    some (10, none, .signal [0x401E000000000000, 0x4037800000000000]) := by decide +kernel
/-- R324 (1) by its gain: attack, sustain and decay. -/
theorem test_env : [1, 9, 10, 11, 30, 49, 50, 51,
      59].map (fun i => fmul lit1 (envValue litHalf 0x3FE4C2531C3C0D38 10 40 10 i)) =
    [0x3FB09B75B0300A93, 0x3FE2AEE466360BE6, 0x3FF4C2531C3C0D38, 0x3FF47FE5457B4D0E, 0x3FEF237CAA5A13D4, 0x3FE5472EC9BD8D8C,
      0x3FE4C2531C3C0D38, 0x3FE2AEE466360BE6, 0x3FB09B75B0300A92] := by decide +kernel
/-- R322: an envelope of 8328 elements and a signal of one element more are the rule's own; here 0 and 1. -/
theorem test_env_overrun : view .env (armed 10 quiet (.signal [lit1])) = some (10, some ⟨.envelopeOverrun, 10, 0⟩,
      .signal [lit1]) := by
  decide +kernel
/-- R333. -/
theorem test_digit8 : view .digit (armed 11 quiet (.signal ([0x0000000000000000, 0x8000000000000000, 0xBFF0000000000000,
      0x3FF0000000000000, 0x3FEFF7CED916872B, 0x3FE0000000000000, 0xBF6FF2E48E8A71DE, 0xBEE4F8B588E368F1,
        0x3FE4C215E404E74A, 0xBFF8000000000000, 0x7E37E43C8800759C] ++
    [infinity false, infinity true]))) = some (12, none, .pcm [128, 128, 0, 255, 255, 192, 127, 127, 211, 0, 255, 255,
      0]) := by decide +kernel
theorem test_digit16 : view .digit (armed 11 { quiet with sampleSize := 16 }
    (.signal ([0x0000000000000000, 0x8000000000000000, 0xBFF0000000000000, 0x3FF0000000000000, 0x3FEFF7CED916872B,
      0x3FE0000000000000, 0xBF6FF2E48E8A71DE, 0xBEE4F8B588E368F1, 0x3FE4C215E404E74A, 0xBFF8000000000000,
        0x7E37E43C8800759C] ++ [infinity false, infinity true]))) =
    some (12, none, .pcm [0, 0, -32768, 32767, 32735, 16384, -128, -1, 21256, -32768, 32767, 32767, -32768]) :=
      by decide +kernel

/-! Witnesses: concrete states and operands that meet the hypotheses of each statement together, each clause at a boundary. -/

/-- The transaction of STEP. -/
def stepWord : HostWord := hostWord true 0x20 4

/-- A state with one input at the port. -/
def waiting (i : HostInput) (s : State) : State := { s with pending := [i] }

/-- A buffer of the kind the stage at `sp` requires, with one element. -/
def bufFor (sp : StageCode) : Buf :=
  if sp.toNat ≤ 1 then .none
  else if sp.toNat ≤ 4 then .track [lit100]
  else if sp.toNat ≤ 6 then .itrack [8]
  else if sp.toNat ≤ 11 then .signal []
  else .pcm []

/-- Armed at `sp` with such a buffer. -/
def readyAt (sp : StageCode) : State := armed sp quiet (bufFor sp)

theorem witness_DecodeEncodeRoundTrip :
    (Instr.wr 0x20 6).wellFormed = true ∧ (Instr.wr 0xFF 0).wellFormed = true ∧ (Instr.rd 0x20).wellFormed = true ∧
      Instr.digit.wellFormed = true := by decide +kernel
theorem witness_EncodeDecodeWord : decode (.stage 1) = .ok .freq ∧ decode (.stage 11) = .ok .digit := by decide +kernel
theorem witness_DecodesByFormat :
    ((hostWord false 0x20 4).getLsbD 72 = false) ∧
      ((hostWord true 0x21 4).getLsbD 72 = true ∧ (hostWord true 0x21 4).extractLsb' 64 8 ≠ 0x20#8) ∧
      (stepWord.getLsbD 72 = true ∧ stepWord.extractLsb' 64 8 = 0x20#8 ∧ stepWord.extractLsb' 8 56 = 0#56 ∧
        (stepWord.extractLsb' 0 8).toNat ≤ 5) ∧
      ((hostWord true 0x20 0x101).extractLsb' 64 8 = 0x20#8 ∧ (hostWord true 0x20 0x101).extractLsb' 8 56 ≠ 0#56 ∧
        5 < ((hostWord true 0x20 6).extractLsb' 0 8).toNat) := by decide +kernel
theorem witness_StepRunsTransaction :
    (waiting (.transaction stepWord) .reset).pending = .transaction stepWord :: [] ∧ decode (.host stepWord) = .ok .step ∧
      Instr.step.wellFormed = true := by decide +kernel
theorem witness_StepRunsStageWord :
    (waiting (.transaction stepWord) (readyAt 1)).pending = .transaction (hostWord true 0x20 4) :: [] ∧
      (waiting (.transaction stepWord) (readyAt 1)).flt = none ∧ decode (programWord (readyAt 1).sp) = .ok .freq ∧
      decode (programWord (readyAt 11).sp) = .ok .digit := by decide +kernel
theorem witness_IdleAndPowerOn : State.reset.pending = [] ∧ (waiting .powerOn stuck).pending = .powerOn :: [] :=
      by decide +kernel
theorem witness_FaultedBlock :
    stuck.flt = some ⟨.badSequence, 0, 0⟩ ∧ ¬((0x20 : RegAddr) = 0x20 ∧ (4 : Word) = 1) ∧
      ({ stuck with p := (written 44100 8).p } : State).p[(0x18 : Fin 26)] = .written 44100 ∧ unmappedAddr 0x1A ∧
      unmappedAddr 0xFF := by
  unfold unmappedAddr; decide +kernel
theorem witness_ReadTable :
    (written 44100 8).flt = none ∧ (written 44100 8).p[(0x18 : Fin 26)] = .written 44100 ∧
      bufWindow (written 44100 8).buf (written 44100 8).ps.sampleSize (written 44100 8).bufIdx.toNat = none ∧
      bufWindow (readyAt 4).buf (readyAt 4).ps.sampleSize (readyAt 4).bufIdx.toNat = some lit100 ∧
      unmappedAddr 0x1F ∧ unmappedAddr 0x28 := by
  unfold unmappedAddr; decide +kernel
theorem witness_BufferWindow :
    (readyAt 4).flt = none ∧ bufLen (readyAt 1).buf ≤ (readyAt 1).bufIdx.toNat ∧
      ((readyAt 4).buf = .track [lit100] ∧ [lit100][(readyAt 4).bufIdx.toNat]? = some lit100) ∧
      ((readyAt 5).buf = .itrack [8] ∧ [(8 : Int)][(readyAt 5).bufIdx.toNat]? = some 8) ∧
      ((armed 12 quiet (.pcm [255])).ps.sampleSize = 8 ∧ [(255 : Int)][(armed 12 quiet (.pcm [255])).bufIdx.toNat]? =
        some 255) ∧
      ((armed 12 { quiet with sampleSize := 16 } (.pcm [-32768])).ps.sampleSize = 16) := by decide +kernel
theorem witness_WriteTable :
    State.reset.flt = none ∧ (0x19 : RegAddr).toNat = (25 : Fin 26).val ∧
      [Instr.nop, .reset, .loaddef, .arm, .step, .run][(5 : Word).toNat]? = some .run ∧ 5 < (6 : Word).toNat ∧
      unmappedAddr 0x1A ∧ unmappedAddr 0x28 ∧ readOnlyAddr 0x21 ∧ readOnlyAddr 0x25 ∧ readOnlyAddr 0x27 := by
  unfold unmappedAddr readOnlyAddr; decide +kernel
theorem witness_IllegalCommand :
    State.reset.flt = none ∧ 6 ≤ ((6 : Word).extractLsb' 0 8).toNat ∧ (0x100 : Word).extractLsb' 8 56 ≠ 0#56 :=
      by decide +kernel
theorem witness_ResetCommand : stuck.flt ≠ none ∧ ∃ t, exec .reset stuck = .next t ∧ t.flt = none :=
  ⟨by decide +kernel, _, rfl, rfl⟩
theorem witness_LoaddefTable : stuck.flt ≠ none ∧ State.reset.flt = none := by decide +kernel
theorem witness_ArmCommand_unwritten :
    State.reset.flt = none ∧ State.reset.p[(0 : Fin 26)] = .unwritten ∧
      ({ State.reset with p := writeRows State.reset.p defaultRows } : State).p[(0x16 : Fin 26)] = .unwritten ∧
      ∀ j : Fin 26, j < 0x16 → ({ State.reset with p := writeRows State.reset.p defaultRows } : State).p[j] ≠ .unwritten := by
  decide +kernel
/-- The words of `written rate size`. -/
def wordsOf (s : State) (k : Fin 26) : Word := cellWord s.p[k]
theorem witness_ArmCommand_checks :
    [written 0 8, written 44101 8, written 1 9, written 44100 16].all (fun s =>
      s.flt.isNone && (List.finRange 26).all (fun k => s.p[k] == .written (wordsOf s k)) &&
        (List.finRange 26).all (fun k => decide (k.val < 23) → isFinite (wordsOf s k))) = true ∧
      (wordsOf (written 0 8) 0x18).toNat = 0 ∧ 44100 < (wordsOf (written 44101 8) 0x18).toNat ∧
      (wordsOf (written 1 9) 0x18).toNat = 1 ∧ (wordsOf (written 1 9) 0x19).toNat = 9 ∧
      (wordsOf (written 44100 16) 0x18).toNat = 44100 ∧ (wordsOf (written 44100 16) 0x19).toNat = 16 := by decide +kernel
theorem witness_ArmCommand_nonfinite :
    isFinite (wordsOf { written 1 8 with p := writeParam (written 1 8).p 0x16 (infinity true) } 0x16) = false ∧
      ∀ j : Fin 26, j < 0x16 → isFinite (wordsOf { written 1 8 with p := writeParam (written 1 8).p 0x16 (infinity true) } j) = true := by
  decide +kernel
theorem witness_BadSequence :
    (readyAt 0).flt = none ∧ (readyAt 0).sp.toNat = 0 ∧ (readyAt 12).flt = none ∧ (readyAt 12).sp.toNat = 12 ∧
      Instr.arm ∈ [Instr.arm, .reset, .loaddef, .nop] := by decide +kernel
theorem witness_StepExecutesStage :
    (readyAt 11).flt = none ∧ 1 ≤ (readyAt 1).sp.toNat ∧ (readyAt 11).sp.toNat ≤ 11 ∧
      decode (programWord (readyAt 1).sp) = .ok .freq ∧ decode (programWord (readyAt 11).sp) = .ok .digit :=
        by decide +kernel
theorem witness_StepCompletes :
    ([1, 2, 3, 4, 5, 6, 7, 8, 9, 10, 11] : List StageCode).all (fun n => (readyAt n).flt.isNone &&
      stageReady (readyAt n)) = true ∧
      (readyAt 6).ps.waveType ≠ 3 := by decide +kernel
theorem witness_StageKinds :
    ([1, 2, 3, 4, 5, 6, 7, 8, 9, 10, 11] : List StageCode).all (fun n => bufMatches (readyAt n).sp (readyAt n).buf &&
      isNext (exec .step (readyAt n)) (fun t => t.flt.isNone)) = true ∧
      phaseLens 44100 (readyAt 1).ps = some (0, 0, 0) := by decide +kernel
theorem witness_RunIsSteps : (readyAt 1).flt = none ∧ 1 ≤ (readyAt 1).sp.toNat ∧ (readyAt 11).sp.toNat ≤ 11 :=
      by decide +kernel
theorem witness_RunCompletes :
    (readyAt 11).flt = none ∧ 1 ≤ (readyAt 11).sp.toNat ∧ (readyAt 11).sp.toNat ≤ 11 ∧
      ∀ (k : Nat) (u : State), k < 12 - (readyAt 11).sp.toNat → steps k (readyAt 11) = .next u → stageReady u = true := by
  refine ⟨by decide +kernel, by decide +kernel, by decide +kernel, fun k u hk hu => ?_⟩
  have h0 : k = 0 := by have : (readyAt 11).sp.toNat = 11 := by decide +kernel
                        omega
  subst h0
  cases hu
  decide +kernel
theorem witness_RunEmptySound :
    (armed 1 { quiet with waveType := 3 } .none).flt = none ∧ (armed 1 { quiet with waveType := 3 } .none).sp = 1 ∧
      phaseLens 44100 quiet = some (0, 0, 0) ∧ phaseLens quiet.sampleRate quiet = some (0, 0, 0) ∧
      feq quiet.repeatSpeed lit0 = true ∧ floorI (delayArg lit1) = some 32 ∧ feq quiet.arpMod lit0 = true ∧
      ({ quiet with waveType := 5 } : ParamSet).waveType ≤ 5 := by decide +kernel
theorem witness_FaultsPrecise :
    ¬ isCommand (.rd 0x27) .run 5 ∧ State.reset.flt = none ∧
      (∃ t, exec (.rd 0x27) State.reset = .next t ∧ t.flt = some ⟨.badRegisterAccess, 0, 0x27⟩) ∧
      ∃ t, exec .run (armed 5 { quiet with waveType := 6 } (.itrack [8])) = .next t ∧ t.flt.isSome = true := by
  refine ⟨by unfold isCommand; decide, by decide +kernel, ?_, next_of (test := fun t => t.flt.isSome) (by decide +kernel)⟩
  exact ⟨_, rfl, rfl⟩
/-- Two elements, no repeat and a repeat, and a limit that truncates at once. -/
theorem witness_FreqTrack :
    let short : ParamSet := { quiet with envSustain := 0x3F747AE147AE147B, baseFreq := lit1 }
    phaseLens 44100 short = some (0, 2, 0) ∧ 8 * ((0 : Int) + 2 + 0) ≤ (State.reset.maxLen : Int) ∧
      (feq short.repeatSpeed lit0 = true ∧ (List.range 2).all (fun k => !truncatesAt short k) = true) ∧
      (feq { short with repeatSpeed := lit1 }.repeatSpeed lit0 = false ∧ floorI (delayArg lit1) = some 32) ∧
      (truncatesAt { short with baseFreq := lit0_1, freqLimit := lit1 } 0 = true) := by decide +kernel
theorem witness_FreqLength :
    let base : ParamSet := { quiet with envSustain := 0x3FD3333333333333, envDecay := 0x3FD999999999999A, baseFreq := 0x3FD3333333333333 }
    phaseLens 44100 base = some (0, 9000, 16000) ∧ 8 * ((0 : Int) + 9000 + 16000) ≤ (State.reset.maxLen : Int) ∧
      fgt base.freqLimit lit0 = false ∧ feq base.repeatSpeed lit0 = true ∧ floorI (delayArg lit1) = some 32 ∧
      200000 ≤ State.reset.maxLen ∧ Machine.sq base.envSustain = 0x3FB70A3D70A3D70A ∧
      fmul lit100000 (Machine.sq base.envSustain) = 0x40C1940000000000 ∧
      fmul lit100000 (Machine.sq base.envDecay) = 0x40CF400000000002 := by decide +kernel
theorem witness_FreqFaults :
    phaseLens 44100 { quiet with envAttack := 0x7FE0000000000000 } = none ∧
      phaseLens 44100 { quiet with envSustain := lit20 } = some (0, 40000000, 0) ∧
      (State.reset.maxLen : Int) < 8 * (0 + 40000000 + 0) ∧ phaseLens 44100 quiet = some (0, 0, 0) ∧
      feq 0x7FE0000000000000 lit0 = false ∧ floorI (delayArg 0x7FE0000000000000) = none := by decide +kernel
theorem witness_DelayAtLeast32 : floorI (delayArg lit1) = some 32 ∧ floorI (delayArg lit0) = some 20032 := by decide +kernel
theorem witness_ArpFactor :
    (readyAt 2).flt = none ∧ (readyAt 2).buf = .track [lit100] ∧ feq (zero true) lit0 = true ∧ feq litHalf lit0 = false ∧
      floorI (delayArg 0x7FE0000000000000) = none ∧ floorI (delayArg lit1) = some 32 ∧
      (List.replicate 34 lit100)[33]? = some lit100 := by decide +kernel
theorem witness_VibModulates :
    (readyAt 3).flt = none ∧ (readyAt 3).buf = .track [lit100] ∧ feq (zero true) lit0 = true ∧ feq lit1 lit0 = false ∧
      [lit100][0]? = some lit100 := by decide +kernel
theorem witness_QuantTruncates :
    (readyAt 4).flt = none ∧ (readyAt 4).buf = .track [lit100] ∧ (∀ x ∈ [lit100], (truncI x).isSome = true) ∧
      truncI lit100 = some 100 ∧ ∃ x ∈ [lit100, infinity false], truncI x = none :=
  ⟨rfl, rfl, by simpa using (by decide +kernel : (truncI lit100).isSome = true), by decide +kernel,
    infinity false, by simp, by decide +kernel⟩
theorem witness_SuperReplicates : (readyAt 5).flt = none ∧ (readyAt 5).buf = .itrack [8] ∧ 7 < 8 * [(8 : Int)].length :=
      by decide +kernel
theorem witness_OscBadWaveType : (armed 6 { quiet with waveType := 6 } .none).flt = none ∧
      5 < { quiet with waveType := 6 }.waveType := by
  decide +kernel
theorem witness_Osc :
    ([0, 1, 2, 3, 4, 5] : List Nat).all (fun n => (armed 6 { quiet with waveType := n } (.itrack [8])).flt.isNone &&
      decide ((armed 6 { quiet with waveType := n } (.itrack [8])).buf = .itrack [8])) = true ∧
      floorI (fmul (normPhase [8] 0) lit32) = some 4 ∧ floorI (fmul (normPhase (List.replicate 8 8) 7) lit32) = some 0 ∧
      (∀ p ∈ [8, (2 : Int) ^ 53 - 1], 8 ≤ p ∧ p < 2 ^ 53) := by decide +kernel
theorem witness_OscPhase : (0 : Int) ≤ (oscInit plainChoices drawAt quiet .sine 0 (Vector.replicate 32 0)).1.ophase ∧
      (1 : Int) ≤ 1 := by
  decide +kernel
theorem witness_Signal :
    (readyAt 7).flt = none ∧ (readyAt 7).buf = .signal [] ∧ (armed 7 quiet (.signal [lit1])).buf = .signal [lit1] ∧
      0 < [lit1].length ∧ [lit1][0]? = some lit1 ∧ { quiet with lpfFreq := lit1 }.lpfFreq = 0x3FF0000000000000 :=
        by decide +kernel
theorem witness_PhaserDelay :
    (∀ u : Nat, u < [lit1].length → (truncI (phaserPhase plainChoices quiet u)).isSome = true) ∧
      truncI (phaserPhase plainChoices quiet 0) = some 0 ∧
      ∃ u : Nat, u < [lit1].length ∧
        truncI (phaserPhase { plainChoices with phaFphase0 := fun _ => internalNaN } quiet u) = none :=
  ⟨by decide +kernel, by decide +kernel, 0, by decide +kernel⟩
theorem witness_PhaserExecutes :
    (readyAt 8).flt = none ∧ (readyAt 8).buf = .signal [] ∧
      phaserReady Config.choices (readyAt 8).ps ([] : List F64).length = true := by
  decide +kernel
theorem witness_CompressMeans :
    1 ≤ quiet.sampleRate ∧ quiet.sampleRate ≤ 44100 ∧ 0 < (List.replicate 8 lit1).length / (8 * (44100 / quiet.sampleRate)) ∧
      1 ≤ { quiet with sampleRate := 1 }.sampleRate := by decide +kernel
theorem witness_EnvShape :
    (armed 10 quiet (.signal [lit1])).flt = none ∧
      phaseLens 44100 { quiet with envDecay := 0x7FE0000000000000 } = none ∧ phaseLens 44100 quiet = some (0, 0, 0) ∧
      (0 : Int) + 0 + 0 < ([lit1].length : Int) ∧
      phaseLens 44100 { quiet with envSustain := 0x3F747AE147AE147B } = some (0, 2, 0) ∧
      (([lit1, lit2].length : Nat) : Int) ≤ 0 + 2 + 0 := by decide +kernel
theorem witness_DigitFloorClamp :
    (armed 11 quiet (.signal [lit1])).flt = none ∧ quiet.sampleSize = 8 ∧ { quiet with sampleSize := 16 }.sampleSize = 16 ∧
      (∀ x ∈ [lit1, infinity true], isNaN x = false) ∧ ∃ x ∈ [lit1, internalNaN], isNaN x = true :=
  ⟨rfl, rfl, rfl, by simpa using (by decide +kernel : isNaN lit1 = false ∧ isNaN (infinity true) = false),
    internalNaN, by simp, by decide +kernel⟩
theorem witness_StageLocalImmaterial : (readyAt 6).flt = none ∧ Instr.osc ∈ stageOps := by decide +kernel
theorem witness_HostWritesDoNotDisturb : Instr.quant ∈ [Instr.step, .run] ++ stageOps ∧ ∃ t, exec .quant (readyAt 4) =
      .next t := by
  refine ⟨by decide +kernel, ?_⟩
  obtain ⟨t, h, _⟩ := next_of (o := exec .quant (readyAt 4)) (test := fun _ => true) (by decide +kernel)
  exact ⟨t, h⟩
theorem witness_EntropyOnlyForNoise :
    ∃ t, exec .osc (armed 6 { quiet with waveType := 3 } (.itrack [])) = .next t ∧
      decide (t.entropyPos ≠ (armed 6 { quiet with waveType := 3 } (.itrack [])).entropyPos) = true :=
  next_of (test := fun t => decide (t.entropyPos ≠ (armed 6 { quiet with waveType := 3 } (.itrack [])).entropyPos)) (by decide +kernel)
theorem witness_WhoWritesParameters :
    (∃ t, exec (.wr 0x19 8) State.reset = .next t ∧ decide (t.p ≠ State.reset.p) = true) ∧
      ∃ t, exec .arm (written 44100 8) = .next t ∧ decide (t.ps ≠ (written 44100 8).ps) = true :=
  ⟨next_of (test := fun t => decide (t.p ≠ State.reset.p)) (by decide +kernel),
    next_of (test := fun t => decide (t.ps ≠ (written 44100 8).ps)) (by decide +kernel)⟩
theorem witness_OnlyResetClearsFault :
    stuck.flt ≠ none ∧ ∃ t, exec .reset stuck = .next t ∧ decide (t.flt ≠ stuck.flt) = true :=
  ⟨by decide +kernel, next_of (test := fun t => decide (t.flt ≠ stuck.flt)) (by decide +kernel)⟩
theorem witness_SpMoves :
    ([(.arm, written 44100 8), (.wr 0x20 1, readyAt 5), (.step, readyAt 11), (.run,
      readyAt 11)] : List (Instr × State)).all (fun p =>
      decide (p.1 ∉ stageOps) && isNext (exec p.1 p.2) (fun t => decide (t.sp ≠ p.2.sp))) = true := by decide +kernel
theorem witness_StepKeepsInv :
    Inv (waiting (.transaction (hostWord true 0x20 2)) .reset) ∧
      ∃ t, step (waiting (.transaction (hostWord true 0x20 2)) .reset) = .next t := by
  refine ⟨⟨by decide +kernel, by decide +kernel, by decide +kernel, by decide +kernel, by decide +kernel,
      by decide +kernel⟩, ?_⟩
  obtain ⟨t, h, _⟩ := next_of (o := step (waiting (.transaction (hostWord true 0x20 2)) .reset)) (test :=
      fun _ => true) (by decide +kernel)
  exact ⟨t, h⟩
theorem witness_StepKeepsInv_running : Inv (waiting (.transaction stepWord) (readyAt 9)) ∧ Inv (readyAt 12) :=
  ⟨⟨by decide +kernel, by decide +kernel, by decide +kernel, by decide +kernel, by decide +kernel, by decide +kernel⟩,
    ⟨by decide +kernel, by decide +kernel, by decide +kernel, by decide +kernel, by decide +kernel, by decide +kernel⟩⟩
theorem witness_FloatOpsRound :
    isFinite 0x7FEFFFFFFFFFFFFF = true ∧ isFinite (zero true) = true ∧ scaled lit1 ≠ 0 ∧ scaled (zero true) = 0 ∧
      isNaN internalNaN = true ∧ scaled lit1 + scaled litNeg1 = 0 ∧ scaled lit1 - scaled lit1 = 0 := by decide +kernel
theorem witness_Conversions : floorI litNegHalf = some (-1) ∧ truncI litNegHalf = some 0 ∧ floorI 0x43E0000000000000 = none ∧
    truncI 0xC3E0000000000000 = some (-2 ^ 63) ∧ |(2 : Int) ^ 53 - 1| < 2 ^ 53 := by decide +kernel
theorem witness_ComparisonsAndClamp : isFinite lit1 = true ∧ isNaN internalNaN = true ∧ fle lit0 litHalf = true ∧
    isNaN lit1 = false ∧ fle lit0 lit0_1 = true ∧ fle lit0_1 litHalf = true ∧ flt litNegHalf lit0 = true ∧
    flt litHalf lit1 = true ∧ fle lit0 lit0 = true ∧ fle litHalf litHalf = true := by decide +kernel
theorem witness_PcmBytes : (0 : Int) ≤ 255 ∧ (255 : Int) ≤ 255 ∧ (armed 12 quiet (.pcm [1])).buf = .pcm [1] ∧
    (armed 12 quiet (.pcm [1])).ps.sampleSize = 8 := by decide +kernel

end Sys2Proof.Tests
end

section
/-! PROOFS. The eleven stages as one type: the code, the instruction and the result of each, and what a stage operation does to the state in terms of them. -/

namespace Sys2Proof.Proofs

open Machine Safety

/-- The eleven stages, in the order of the pipeline (R27). -/
inductive Stage where
  | freq
  | arp
  | vib
  | quant
  | super
  | osc
  | filt
  | phaser
  | compress
  | env
  | digit

/-- The value of `SP` at which a stage runs (R92). -/
def Stage.code : Stage → StageCode
  | .freq => 1
  | .arp => 2
  | .vib => 3
  | .quant => 4
  | .super => 5
  | .osc => 6
  | .filt => 7
  | .phaser => 8
  | .compress => 9
  | .env => 10
  | .digit => 11

/-- The stage operation of a stage. -/
def Stage.instr : Stage → Instr
  | .freq => .freq
  | .arp => .arp
  | .vib => .vib
  | .quant => .quant
  | .super => .super
  | .osc => .osc
  | .filt => .filt
  | .phaser => .phaser
  | .compress => .compress
  | .env => .env
  | .digit => .digit

/-- A result that leaves the entropy source at `pos`. -/
def atPos (pos : Nat) (r : Except StageFault Buf) : Except StageFault (Buf × Nat) := r.map (fun b => (b, pos))

/-- What a stage computes from a state: the buffer and the position of the entropy source, or its fault. -/
def Stage.result (g : Stage) (s : State) : Except StageFault (Buf × Nat) :=
  match g with
  | .freq => atPos s.entropyPos (freqStage s.maxLen (freeNaN s) s.ps)
  | .arp => atPos s.entropyPos (arpStage (freeNaN s) s.ps s.buf)
  | .vib => atPos s.entropyPos (vibStage Config.choices (freeNaN s) s.ps s.buf)
  | .quant => atPos s.entropyPos (quantStage s.buf)
  | .super => atPos s.entropyPos (superStage s.buf)
  | .osc => oscStage Config.choices (freeNaN s) drawAt s.ps s.loc.osc.noise s.entropyPos s.buf
  | .filt => atPos s.entropyPos (filtStage Config.choices (freeNaN s) s.ps s.buf)
  | .phaser => atPos s.entropyPos (phaserStage Config.choices (freeNaN s) s.ps s.buf)
  | .compress => atPos s.entropyPos (compressStage (freeNaN s) s.ps s.buf)
  | .env => atPos s.entropyPos (envStage Config.choices (freeNaN s) s.ps s.buf)
  | .digit => atPos s.entropyPos (digitStage s.ps s.buf)

/-- The state after a stage whose result is `r`, `next` being the stage pointer of a completion. -/
def commit (s : State) (next : StageCode) : Except StageFault (Buf × Nat) → State
  | .ok (b, pos) => finishStage { s with entropyPos := pos } next (.ok b)
  | .error e => finishStage s next (.error e)

theorem commit_atPos (s : State) (next : StageCode) (r : Except StageFault Buf) :
    commit s next (atPos s.entropyPos r) = finishStage s next r := by
  cases r <;> rfl

theorem atPos_eq_ok {pos pos' : Nat} {r : Except StageFault Buf} {b : Buf} (h : atPos pos r = .ok (b, pos')) :
    r = .ok b ∧ pos' = pos := by
  cases r with
  | error e => cases h
  | ok b' => cases h; exact ⟨rfl, rfl⟩

/-! Codes and instructions. -/

theorem Stage.code_bounds (g : Stage) : 1 ≤ g.code.toNat ∧ g.code.toNat ≤ 11 := by
  cases g <;> decide

theorem Stage.code_succ (g : Stage) : (g.code + 1).toNat = g.code.toNat + 1 := by
  cases g <;> rfl

theorem Stage.code_eq_six_iff (g : Stage) : g.code = 6 ↔ g = .osc := by
  cases g <;> simp [Stage.code]

/-- Every value of `SP` from 1 to 11 is the code of a stage. -/
theorem Stage.exists_code {n : StageCode} (h1 : 1 ≤ n.toNat) (h2 : n.toNat ≤ 11) : ∃ g : Stage, g.code = n := by
  have table : ∀ n : StageCode, 1 ≤ n.toNat → n.toNat ≤ 11 →
      ∃ g ∈ [Stage.freq, .arp, .vib, .quant, .super, .osc, .filt, .phaser, .compress, .env, .digit], g.code = n := by
    decide
  obtain ⟨g, _, hg⟩ := table n h1 h2
  exact ⟨g, hg⟩

theorem mem_stageOps_iff (i : Instr) : i ∈ stageOps ↔ ∃ g : Stage, g.instr = i := by
  constructor
  · intro h
    simp only [stageOps, List.mem_cons, List.not_mem_nil, or_false] at h
    rcases h with rfl | rfl | rfl | rfl | rfl | rfl | rfl | rfl | rfl | rfl | rfl
    exacts [⟨.freq, rfl⟩, ⟨.arp, rfl⟩, ⟨.vib, rfl⟩, ⟨.quant, rfl⟩, ⟨.super, rfl⟩, ⟨.osc, rfl⟩, ⟨.filt, rfl⟩,
      ⟨.phaser, rfl⟩, ⟨.compress, rfl⟩, ⟨.env, rfl⟩, ⟨.digit, rfl⟩]
  · rintro ⟨g, rfl⟩
    cases g <;> decide

/-- A transaction is never a stage operation (R92). -/
theorem decodeHost_not_mem_stageOps (w : HostWord) : decodeHost w ∉ stageOps := by
  have command : ∀ data, decodeCommand data ∉ stageOps := by
    intro data
    unfold decodeCommand
    split <;> simp [stageOps]
  unfold decodeHost
  split
  · split
    · exact command _
    · simp [stageOps]
  · simp [stageOps]

/-! What a stage operation does. -/

theorem execStage_code (g : Stage) (s : State) : execStage g.code s = exec g.instr s := by
  cases g <;> rfl

/-- While a fault is latched a stage operation does nothing (R411, log 13). -/
theorem exec_stage_of_faulted (g : Stage) (s : State) (h : s.flt ≠ none) : exec g.instr s = .next s := by
  have hf : s.flt.isSome = true := Option.isSome_iff_ne_none.mpr h
  cases g <;> exact if_pos hf

/-- With no fault latched a stage operation commits the stage's result (R358, R410). -/
theorem exec_stage (g : Stage) (s : State) (h : s.flt = none) :
    exec g.instr s = .next (commit s (g.code + 1) (g.result s)) := by
  have hf : ¬ s.flt.isSome = true := by simp [h]
  cases g
  case osc =>
    simp only [Stage.instr, exec, execOsc, if_neg hf, Stage.result]
    split <;> rename_i heq <;> rw [heq] <;> rfl
  all_goals exact (if_neg hf).trans (by rw [Stage.result, commit_atPos]; rfl)

/-- The codes 0 and 12 to 15 are no stages: there the sequencer has no next state (log 12). -/
theorem execStage_next_code {n : StageCode} {s t : State} (h : execStage n s = .next t) : ∃ g : Stage, g.code = n := by
  by_cases hn : 1 ≤ n.toNat ∧ n.toNat ≤ 11
  · exact Stage.exists_code hn.1 hn.2
  · exfalso
    unfold execStage at h
    split at h
    case h_12 => cases h
    all_goals omega

/-! A commit, field by field. -/

section
variable (s : State) (next : StageCode) (r : Except StageFault (Buf × Nat))

theorem commit_frame : StageFrame s (commit s next r) := by
  rcases r with e | ⟨b, pos⟩ <;> exact ⟨rfl, rfl, rfl, rfl, rfl, rfl, rfl⟩

@[simp] theorem commit_ps : (commit s next r).ps = s.ps := (commit_frame s next r).ps
@[simp] theorem commit_p : (commit s next r).p = s.p := (commit_frame s next r).p
@[simp] theorem commit_maxLen : (commit s next r).maxLen = s.maxLen := (commit_frame s next r).maxLen
@[simp] theorem commit_ok_sp (b : Buf) (pos : Nat) : (commit s next (.ok (b, pos))).sp = next := rfl
@[simp] theorem commit_ok_buf (b : Buf) (pos : Nat) : (commit s next (.ok (b, pos))).buf = b := rfl
@[simp] theorem commit_ok_flt (b : Buf) (pos : Nat) : (commit s next (.ok (b, pos))).flt = s.flt := rfl
@[simp] theorem commit_ok_entropyPos (b : Buf) (pos : Nat) : (commit s next (.ok (b, pos))).entropyPos = pos := rfl
@[simp] theorem commit_error_sp (e : StageFault) : (commit s next (.error e)).sp = s.sp := rfl
@[simp] theorem commit_error_buf (e : StageFault) : (commit s next (.error e)).buf = s.buf := rfl
@[simp] theorem commit_error_flt (e : StageFault) :
    (commit s next (.error e)).flt = some { cause := e.1, stage := s.sp, info := e.2 } := rfl
@[simp] theorem commit_error_entropyPos (e : StageFault) : (commit s next (.error e)).entropyPos = s.entropyPos := rfl

end

end Sys2Proof.Proofs
end

section
/-! PROOFS. What an instruction can do to the state, said once: a relation with a case for each kind of effect, and the proof that `exec` has no other. -/

namespace Sys2Proof.Proofs

open Machine Safety Laws

/-- One stage of the pipeline: the stage at `SP` commits its result (R356). -/
def StageStep (s t : State) : Prop :=
  ∃ g : Stage, s.flt = none ∧ s.sp = g.code ∧ t = commit s (g.code + 1) (g.result s)

/-- What executing an instruction can do. Each case says which instructions have the effect, and when. -/
inductive Effect (s : State) (i : Instr) : State → Prop where
  /-- Nothing changes. -/
  | idle : Effect s i s
  /-- A fault is latched. -/
  | fault (c : Cause) (info : InfoByte) (hf : s.flt = none) : Effect s i (raiseFault s c info)
  /-- A read answers a word, and raises a fault or none (R360). -/
  | read (w : Word) (reads : Nat) : Effect s i { s with answer := some w, freeReads := reads }
  | readFault (w : Word) (reads : Nat) (c : Cause) (info : InfoByte) (hf : s.flt = none) :
      Effect s i (raiseFault { s with answer := some w, freeReads := reads } c info)
  /-- A parameter register is written (R359). -/
  | writeParam (addr : RegAddr) (data : Word) (k : Fin 26) (hi : i = .wr addr data) (haddr : addr.toNat < 26) :
      Effect s i { s with p := writeParam s.p k data }
  /-- `BUFIDX` is written (R359). -/
  | writeBufIdx (data : Word) : Effect s i { s with bufIdx := data }
  /-- RESET (R352). -/
  | reset (hi : isCommand i .reset 1) : Effect s i (resetBlock s)
  /-- LOADDEF (R353). -/
  | loaddef (hi : isCommand i .loaddef 2) : Effect s i (loadDefaults s)
  /-- ARM, its checks passed (R354). -/
  | arm (hi : isCommand i .arm 3) (hf : s.flt = none) (hc : armCheck s.p = .ok ()) :
      Effect s i { s with ps := latch s.p, buf := .none, sp := 1 }
  /-- STEP at a stage (R356). -/
  | step (t : State) (hi : isCommand i .step 4) (hst : StageStep s t) : Effect s i t
  /-- RUN: stages one after the other (R357). -/
  | run (t : State) (hi : isCommand i .run 5) (hst : Relation.ReflTransGen StageStep s t) : Effect s i t
  /-- A stage operation as an instruction of its own (R358). -/
  | stageOp (g : Stage) (hi : i = g.instr) (hf : s.flt = none) : Effect s i (commit s (g.code + 1) (g.result s))

/-! The sequencer. -/

/-- With no fault latched, the sequencer takes the stage at `SP`, or stops where there is none. -/
theorem execStage_eq_next_iff {s t : State} (hf : s.flt = none) : execStage s.sp s = .next t ↔ StageStep s t := by
  constructor
  · intro h
    obtain ⟨g, hg⟩ := execStage_next_code h
    rw [← hg, execStage_code, exec_stage g s hf] at h
    cases h
    exact ⟨g, hf, hg.symm, rfl⟩
  · rintro ⟨g, _, hg, rfl⟩
    rw [hg, execStage_code, exec_stage g s hf]

theorem flagArmed_iff (s : State) : flagArmed s = true ↔ 1 ≤ s.sp.toNat ∧ s.sp.toNat ≤ 11 ∧ s.flt = none := by
  simp [flagArmed, and_assoc]

/-- An armed block takes a stage: the sequencer does not stop (R27, log 12). -/
theorem exists_stageStep {s : State} (hf : s.flt = none) (h1 : 1 ≤ s.sp.toNat) (h2 : s.sp.toNat ≤ 11) :
    ∃ t, StageStep s t := by
  obtain ⟨g, hg⟩ := Stage.exists_code h1 h2
  exact ⟨_, g, hf, hg.symm, rfl⟩

theorem exists_runStages (k : Nat) (s : State) : ∃ t, runStages k s = .next t := by
  induction k generalizing s with
  | zero => exact ⟨s, rfl⟩
  | succ k ih =>
    by_cases ha : flagArmed s = true
    · obtain ⟨h1, h2, hf⟩ := (flagArmed_iff s).mp ha
      obtain ⟨u, hu⟩ := exists_stageStep hf h1 h2
      obtain ⟨t, ht⟩ := ih u
      exact ⟨t, by rw [runStages, if_pos ha, (execStage_eq_next_iff hf).mpr hu]; exact ht⟩
    · exact ⟨s, by rw [runStages, if_neg ha]⟩

/-- RUN goes from stage to stage (R357). -/
theorem runStages_path (k : Nat) {s t : State} (h : runStages k s = .next t) : Relation.ReflTransGen StageStep s t := by
  induction k generalizing s with
  | zero => cases h; exact .refl
  | succ k ih =>
    by_cases ha : flagArmed s = true
    · obtain ⟨h1, h2, hf⟩ := (flagArmed_iff s).mp ha
      obtain ⟨u, hu⟩ := exists_stageStep hf h1 h2
      rw [runStages, if_pos ha, (execStage_eq_next_iff hf).mpr hu] at h
      exact .head hu (ih h)
    · rw [runStages, if_neg ha] at h
      cases h
      exact .refl

/-! The commands. -/

theorem badSequence_iff (s : State) : badSequence s = true ↔ s.sp.toNat = 0 ∨ s.sp.toNat = 12 := by
  simp [badSequence]

section
variable {i : Instr} {s t : State} (hf : s.flt = none)
include hf

theorem stepCommand_effect (hi : isCommand i .step 4) (h : stepCommand s = .next t) : Effect s i t := by
  unfold stepCommand at h
  split at h
  · cases h; exact .fault _ _ hf
  · exact .step t hi ((execStage_eq_next_iff hf).mp h)

theorem runCommand_effect (hi : isCommand i .run 5) (h : runCommand s = .next t) : Effect s i t := by
  unfold runCommand at h
  split at h
  · cases h; exact .fault _ _ hf
  · exact .run t hi (runStages_path 11 h)

theorem armBlock_effect (hi : isCommand i .arm 3) : Effect s i (armBlock s) := by
  unfold armBlock
  split
  · exact .fault _ _ hf
  · exact .arm hi hf ‹_›

end

/-! Reads and writes. -/

/-- A read raises a fault only where none is latched (R360, R361). -/
theorem readValue_raises {s : State} {r : HostReg} (h : (readValue s r).2 = true) : s.flt = none := by
  cases r with
  | param k => simp only [readValue] at h; split at h <;> cases h
  | bufdata =>
    simp only [readValue] at h
    split at h
    · cases h
    · exact Option.not_isSome_iff_eq_none.mp ‹_›
  | unmapped => simpa [readValue] using h
  | _ => cases h

theorem execRd_effect {addr : RegAddr} {s t : State} (h : execRd addr s = .next t) : Effect s (.rd addr) t := by
  simp only [execRd] at h
  split at h
  · cases h; exact .readFault _ _ _ _ (readValue_raises ‹_›)
  · cases h; exact .read _ _

theorem hostReg_eq_param {addr : RegAddr} {k : Fin 26} (h : hostReg addr = .param k) : addr.toNat < 26 := by
  by_contra hn
  simp only [hostReg, hn, dite_false] at h
  split at h <;> cases h

theorem hostReg_eq_cmd {addr : RegAddr} (h : hostReg addr = .cmd) : addr = 0x20 := by
  revert addr; decide

/-- The word of a command does the command (R359); any other word is illegal (R407). -/
theorem writeCommand_effect {data : Word} {s t : State} (hf : s.flt = none) (h : writeCommand data s = .next t) :
    Effect s (.wr 0x20 data) t := by
  have word : ∀ (k : Nat) (named : Instr), data.toNat = k → isCommand (.wr 0x20 data) named (BitVec.ofNat 64 k) := by
    rintro k named rfl
    exact .inr (by simp)
  unfold writeCommand at h
  split at h
  case h_1 => cases h; exact .idle
  case h_2 hd => cases h; exact .reset (word 1 _ hd)
  case h_3 hd => obtain rfl := Host.Outcome.next.inj h; exact .loaddef (word 2 _ hd)
  case h_4 hd => cases h; exact armBlock_effect hf (word 3 _ hd)
  case h_5 hd => exact stepCommand_effect hf (word 4 _ hd) h
  case h_6 hd => exact runCommand_effect hf (word 5 _ hd) h
  case h_7 => cases h; exact .fault _ _ hf

theorem writeRegister_effect {addr : RegAddr} {data : Word} {s t : State} (hf : s.flt = none)
    (h : writeRegister addr data s = .next t) : Effect s (.wr addr data) t := by
  unfold writeRegister at h
  split at h
  case h_1 k hk => cases h; exact .writeParam addr data k rfl (hostReg_eq_param hk)
  case h_2 hc => cases hostReg_eq_cmd hc; exact writeCommand_effect hf h
  case h_3 => cases h; exact .writeBufIdx data
  all_goals cases h; exact .fault _ _ hf

theorem execWr_effect {addr : RegAddr} {data : Word} {s t : State} (h : execWr addr data s = .next t) :
    Effect s (.wr addr data) t := by
  unfold execWr at h
  split at h
  · split at h
    · obtain ⟨rfl, rfl⟩ := ‹addr = 0x20#8 ∧ data = 1›
      cases h; exact .reset (.inr rfl)
    · cases h; exact .idle
  · exact writeRegister_effect (Option.not_isSome_iff_eq_none.mp ‹_›) h

theorem exec_stage_effect {g : Stage} {s t : State} (h : exec g.instr s = .next t) : Effect s g.instr t := by
  by_cases hf : s.flt = none
  · rw [exec_stage g s hf] at h
    cases h; exact .stageOp g rfl hf
  · rw [exec_stage_of_faulted g s hf] at h
    cases h; exact .idle

/-- A command other than RESET is ignored while a fault is latched (R361). -/
theorem ignored_when_faulted_effect {i : Instr} {s t : State} {o : Host.Outcome State Fault Refusal}
    (h : (if s.flt.isSome then .next s else o) = .next t) (ho : s.flt = none → o = .next t → Effect s i t) :
    Effect s i t := by
  split at h
  · cases h; exact .idle
  · exact ho (Option.not_isSome_iff_eq_none.mp ‹_›) h

/-- Every next state of every instruction is one of the effects. -/
theorem exec_effect {i : Instr} {s t : State} (h : exec i s = .next t) : Effect s i t := by
  cases i with
  | rd addr => exact execRd_effect h
  | wr addr data => exact execWr_effect h
  | nop => cases h; exact .idle
  | reset => cases h; exact .reset (.inl rfl)
  | loaddef => exact ignored_when_faulted_effect h fun _ ho => Host.Outcome.next.inj ho ▸ .loaddef (.inl rfl)
  | arm => exact ignored_when_faulted_effect h fun hf ho => by cases ho; exact armBlock_effect hf (.inl rfl)
  | step => exact ignored_when_faulted_effect h fun hf ho => stepCommand_effect hf (.inl rfl) ho
  | run => exact ignored_when_faulted_effect h fun hf ho => runCommand_effect hf (.inl rfl) ho
  | freq => exact exec_stage_effect (g := .freq) h
  | arp => exact exec_stage_effect (g := .arp) h
  | vib => exact exec_stage_effect (g := .vib) h
  | quant => exact exec_stage_effect (g := .quant) h
  | super => exact exec_stage_effect (g := .super) h
  | osc => exact exec_stage_effect (g := .osc) h
  | filt => exact exec_stage_effect (g := .filt) h
  | phaser => exact exec_stage_effect (g := .phaser) h
  | compress => exact exec_stage_effect (g := .compress) h
  | env => exact exec_stage_effect (g := .env) h
  | digit => exact exec_stage_effect (g := .digit) h

/-! No instruction stops with a legal `SP`. -/

theorem exists_stepCommand {s : State} (hf : s.flt = none) (h : s.sp.toNat ≤ 12) : ∃ t, stepCommand s = .next t := by
  unfold stepCommand
  split
  · exact ⟨_, rfl⟩
  · rename_i hb
    rw [badSequence_iff] at hb
    obtain ⟨t, ht⟩ := exists_stageStep hf (by omega) (by omega)
    exact ⟨t, (execStage_eq_next_iff hf).mpr ht⟩

theorem exists_runCommand (s : State) : ∃ t, runCommand s = .next t := by
  unfold runCommand
  split
  · exact ⟨_, rfl⟩
  · exact exists_runStages 11 s

theorem exists_writeRegister (addr : RegAddr) (data : Word) {s : State} (hf : s.flt = none) (h : s.sp.toNat ≤ 12) :
    ∃ t, writeRegister addr data s = .next t := by
  unfold writeRegister
  split
  case h_2 =>
    unfold writeCommand
    split
    case h_5 => exact exists_stepCommand hf h
    case h_6 => exact exists_runCommand s
    all_goals exact ⟨_, rfl⟩
  all_goals exact ⟨_, rfl⟩

theorem exists_ignored_when_faulted {s : State} {o : Host.Outcome State Fault Refusal}
    (ho : s.flt = none → ∃ t, o = .next t) : ∃ t, (if s.flt.isSome then .next s else o) = .next t := by
  split
  · exact ⟨s, rfl⟩
  · exact ho (Option.not_isSome_iff_eq_none.mp ‹_›)

theorem exists_exec_stage (g : Stage) (s : State) : ∃ t, exec g.instr s = .next t := by
  by_cases hf : s.flt = none
  · exact ⟨_, exec_stage g s hf⟩
  · exact ⟨_, exec_stage_of_faulted g s hf⟩

/-- With `SP` at most 12 every instruction has a next state. -/
theorem exists_exec (i : Instr) {s : State} (h : s.sp.toNat ≤ 12) : ∃ t, exec i s = .next t := by
  cases i with
  | rd addr =>
    simp only [exec, execRd]
    split <;> exact ⟨_, rfl⟩
  | wr addr data =>
    simp only [exec, execWr]
    split
    · split <;> exact ⟨_, rfl⟩
    · exact exists_writeRegister addr data (Option.not_isSome_iff_eq_none.mp ‹_›) h
  | nop => exact ⟨_, rfl⟩
  | reset => exact ⟨_, rfl⟩
  | loaddef => exact exists_ignored_when_faulted fun _ => ⟨_, rfl⟩
  | arm => exact exists_ignored_when_faulted fun _ => ⟨_, rfl⟩
  | step => exact exists_ignored_when_faulted fun hf => exists_stepCommand hf h
  | run => exact exists_ignored_when_faulted fun _ => exists_runCommand s
  | freq => exact exists_exec_stage .freq s
  | arp => exact exists_exec_stage .arp s
  | vib => exact exists_exec_stage .vib s
  | quant => exact exists_exec_stage .quant s
  | super => exact exists_exec_stage .super s
  | osc => exact exists_exec_stage .osc s
  | filt => exact exists_exec_stage .filt s
  | phaser => exact exists_exec_stage .phaser s
  | compress => exact exists_exec_stage .compress s
  | env => exact exists_exec_stage .env s
  | digit => exact exists_exec_stage .digit s

end Sys2Proof.Proofs
end

section
/-! PROOFS. The machine at rest, at the port and under commands: reset, idle steps, the stage word behind STEP, the status flags, who writes the parameters, how `SP` moves. -/

namespace Sys2Proof.Proofs

open Machine Safety Laws

/-! Reset. -/

/-- Settles O53. -/
theorem resetMeetsInv : Obligations.ResetMeetsInv where
  sp_legal := by decide
  kind := by decide
  fits := by decide
  latched := fun h => absurd h (by decide)
  fault_stage := rfl
  pcm := rfl

/-- Settles O52. -/
theorem resetState : Obligations.ResetState := by
  refine ⟨by decide, rfl, rfl, rfl, rfl, ?_, rfl⟩
  intro addr haddr
  simp only [List.mem_cons, List.not_mem_nil, or_false] at haddr
  rcases haddr with rfl | rfl | rfl | rfl | rfl | rfl | rfl <;> rfl

/-! The status views. -/

/-- The word of `STATUS` from the two registers it depends on (R25, R26). -/
def statusOf (sp : StageCode) (faulted : Bool) : Word :=
  if faulted then 4 else if 1 ≤ sp.toNat ∧ sp.toNat ≤ 11 then 1 else if sp.toNat = 12 then 2 else 0

theorem statusWord_eq (s : State) : statusWord s = statusOf s.sp s.flt.isSome := by
  have table : ∀ (sp : StageCode) (f : Bool),
      BitVec.ofNat 64 ((decide (1 ≤ sp.toNat) && decide (sp.toNat ≤ 11) && !f).toNat +
        2 * (decide (sp.toNat = 12) && !f).toNat + 4 * f.toNat) = statusOf sp f := by
    decide
  rw [← table, statusWord, flagArmed, flagDone, flagFault, Option.not_isSome]

/-- Settles O51. -/
theorem statusFlags : Obligations.StatusFlags := by
  have table : ∀ (sp : StageCode) (f : Bool),
      ((statusOf sp f).getLsbD 0 = true ↔ 1 ≤ sp.toNat ∧ sp.toNat ≤ 11 ∧ f = false) ∧
        ((statusOf sp f).getLsbD 1 = true ↔ sp.toNat = 12 ∧ f = false) ∧
        ((statusOf sp f).getLsbD 2 = true ↔ f ≠ false) ∧
        (statusOf sp f).extractLsb' 3 61 = 0 ∧
        (statusOf sp f = 0 ∨ statusOf sp f = 1 ∨ statusOf sp f = 2 ∨ statusOf sp f = 4) ∧
        (sp.toNat ≤ 12 → (statusOf sp f = 0 ↔ sp.toNat = 0 ∧ f = false)) := by
    decide
  intro s
  have hflt : s.flt = none ↔ s.flt.isSome = false := by simp
  rw [statusWord_eq, ne_eq, hflt]
  exact table s.sp s.flt.isSome

theorem causeWord_of_no_fault {s : State} (h : s.flt = none) : causeWord s = 0 := by
  rw [causeWord, h]

/-! The port. -/

theorem step_of_idle {s : State} (h : s.pending = []) : step s = .next s := by
  rw [step, h]

theorem step_of_transaction {s : State} {w : HostWord} {rest : List HostInput} (h : s.pending = .transaction w :: rest) :
    step s = exec (decodeHost w) { s with pending := rest } := by
  rw [step, h]; rfl

theorem step_of_powerOn {s : State} {rest : List HostInput} (h : s.pending = .powerOn :: rest) :
    step s = .next (powerOnReset { s with pending := rest }) := by
  rw [step, h]; rfl

/-- Settles O7. -/
theorem idleAndPowerOn : Obligations.IdleAndPowerOn := by
  refine ⟨fun s => step_of_idle, fun s rest h => ⟨_, step_of_powerOn h, ?_⟩⟩
  refine ⟨fun k => by simp, rfl, rfl, rfl, rfl, rfl, rfl, rfl, ?_, causeWord_of_no_fault rfl, rfl, rfl, rfl⟩
  rw [statusWord_eq]; rfl

/-! STEP. -/

theorem decodeHost_step : decodeHost (hostWord true 0x20 4) = .step := by decide

/-- The word at `SP` is a stage's exactly where `SP` is its code (R27, R92). -/
theorem decode_programWord (g : Stage) : decode (programWord g.code) = .ok g.instr := by
  cases g <;> rfl

theorem exists_stage_of_decode {n : StageCode} {i : Instr} (h : decode (programWord n) = .ok i) :
    ∃ g : Stage, g.code = n ∧ g.instr = i := by
  have hn : 1 ≤ n.toNat ∧ n.toNat ≤ 11 := by
    by_contra hn
    simp only [programWord, decode, decodeStage] at h
    split at h
    case h_12 => cases h
    all_goals omega
  obtain ⟨g, rfl⟩ := Stage.exists_code hn.1 hn.2
  rw [decode_programWord] at h
  cases h
  exact ⟨g, rfl, rfl⟩

/-- With no fault latched, STEP at a stage is the stage operation (R356). -/
theorem exec_step_at {s : State} {g : Stage} (hf : s.flt = none) (hsp : s.sp = g.code) :
    exec .step s = exec g.instr s := by
  have hb : ¬ badSequence s = true := by
    have := g.code_bounds
    rw [badSequence_iff, hsp]; omega
  have hf' : ¬ s.flt.isSome = true := by simp [hf]
  rw [exec, execStep, if_neg hf', stepCommand, if_neg hb, hsp, execStage_code]

/-- Settles O18. -/
theorem stepExecutesStage : Obligations.StepExecutesStage := by
  refine ⟨by rw [decode, decodeHost_step], fun s i hf _ _ h => ?_⟩
  obtain ⟨g, hg, rfl⟩ := exists_stage_of_decode h
  exact exec_step_at hf hg.symm

/-- Settles O6. -/
theorem stepRunsStageWord : Obligations.StepRunsStageWord := by
  intro s rest i hp hf h
  obtain ⟨g, hg, rfl⟩ := exists_stage_of_decode h
  rw [step_of_transaction hp, decodeHost_step]
  exact exec_step_at hf hg.symm

/-- Settles O55: `SP` is at most 12 (R27), and there no instruction stops. -/
theorem stepNeverStops : Obligations.StepNeverStops := by
  intro s hinv
  cases hp : s.pending with
  | nil => exact ⟨s, step_of_idle hp⟩
  | cons input rest =>
    cases input with
    | transaction w =>
      rw [step_of_transaction hp]
      exact exists_exec _ hinv.sp_legal
    | powerOn => exact ⟨_, step_of_powerOn hp⟩

/-! What the stages of a run keep and how they move `SP`. -/

theorem StageStep.ps {s t : State} (h : StageStep s t) : t.ps = s.ps := by
  obtain ⟨g, _, _, rfl⟩ := h; simp

theorem StageStep.p {s t : State} (h : StageStep s t) : t.p = s.p := by
  obtain ⟨g, _, _, rfl⟩ := h; simp

/-- A stage moves `SP` up by one, or faults and leaves it (R28). -/
theorem StageStep.sp {s t : State} (h : StageStep s t) :
    1 ≤ s.sp.toNat ∧ s.sp.toNat ≤ 11 ∧ (t.sp = s.sp ∨ (t.sp = s.sp + 1 ∧ t.sp.toNat = s.sp.toNat + 1 ∧ t.flt = none)) := by
  obtain ⟨g, hf, hsp, rfl⟩ := h
  obtain ⟨h1, h2⟩ := g.code_bounds
  rw [hsp]
  refine ⟨h1, h2, ?_⟩
  rcases g.result s with e | ⟨b, pos⟩
  · exact .inl hsp
  · exact .inr ⟨rfl, g.code_succ, hf⟩

theorem path_ps {s t : State} (h : Relation.ReflTransGen StageStep s t) : t.ps = s.ps := by
  induction h with
  | refl => rfl
  | tail _ hst ih => rw [hst.ps, ih]

theorem path_p {s t : State} (h : Relation.ReflTransGen StageStep s t) : t.p = s.p := by
  induction h with
  | refl => rfl
  | tail _ hst ih => rw [hst.p, ih]

/-- Over a run `SP` stays, or moves up from a stage's code to at most 12 (R28). -/
theorem path_sp {s t : State} (h : Relation.ReflTransGen StageStep s t) :
    t.sp = s.sp ∨ (1 ≤ s.sp.toNat ∧ s.sp.toNat < t.sp.toNat ∧ t.sp.toNat ≤ 12) := by
  induction h with
  | refl => exact .inl rfl
  | tail _ hst ih =>
    obtain ⟨h1, h2, hsp⟩ := hst.sp
    rcases hsp with hsp | ⟨_, hsp, _⟩
    · rwa [hsp]
    · rcases ih with ih | ih
      · rw [ih] at h1 h2 hsp; omega
      · omega

/-- Settles O50. -/
theorem spMoves : Obligations.SpMoves := by
  intro i s t h hsp hi
  cases exec_effect h with
  | reset hr => exact .inr (.inl ⟨hr, rfl⟩)
  | loaddef => exact absurd (loadDefaults_sp s) hsp
  | arm ha => exact .inl ⟨ha, rfl⟩
  | step _ hs hst =>
    obtain ⟨h1, h2, hmove⟩ := hst.sp
    obtain ⟨hup, -, hflt⟩ := hmove.resolve_left hsp
    exact .inr (.inr (.inl ⟨hs, h1, h2, hup, hflt⟩))
  | run _ hr hst => exact .inr (.inr (.inr ⟨hr, (path_sp hst).resolve_left hsp⟩))
  | stageOp g hg => exact absurd ((mem_stageOps_iff i).mpr ⟨g, hg.symm⟩) hi
  | _ => exact absurd rfl hsp

/-- Settles O48. -/
theorem whoWritesParameters : Obligations.WhoWritesParameters := by
  intro i s t h
  cases exec_effect h with
  | writeParam addr data k hi haddr => exact ⟨fun _ => .inr ⟨addr, data, hi, haddr⟩, absurd rfl⟩
  | reset hr => exact ⟨absurd rfl, fun _ => .inr hr⟩
  | loaddef hl => exact ⟨fun _ => .inl hl, absurd (loadDefaults_ps s)⟩
  | arm ha => exact ⟨absurd rfl, fun _ => .inl ha⟩
  | step _ _ hst => exact ⟨absurd hst.p, absurd hst.ps⟩
  | run _ _ hst => exact ⟨absurd (path_p hst), absurd (path_ps hst)⟩
  | stageOp => exact ⟨absurd (commit_p ..), absurd (commit_ps ..)⟩
  | _ => exact ⟨absurd rfl, absurd rfl⟩

end Sys2Proof.Proofs
end

section
/-! PROOFS. What each stage's result is where it has one: the conversions it needed, the kind of the buffer it leaves, and its length. -/

namespace Sys2Proof.Proofs

open Machine Safety Laws

/-! Conversions. -/

theorem floorOrRaise_eq_ok_iff (x : F64) (i : Int) : floorOrRaise x = .ok i ↔ floorI x = some i := by
  unfold floorOrRaise
  split <;> rename_i h <;> simp [h]

theorem truncOrRaise_eq_ok_iff (x : F64) (i : Int) : truncOrRaise x = .ok i ↔ truncI x = some i := by
  unfold truncOrRaise
  split <;> rename_i h <;> simp [h]

theorem phaseLen_eq_ok_iff (rate : Nat) (p : F64) (n : Int) :
    phaseLen rate p = .ok n ↔ floorI (phaseArg rate p) = some n :=
  floorOrRaise_eq_ok_iff (phaseArg rate p) n

/-- The lengths of the rule are the machine's, one by one (R161, R320). -/
theorem phaseLens_eq_some_iff (rate : Nat) (ps : ParamSet) (la ls ld : Int) :
    phaseLens rate ps = some (la, ls, ld) ↔
      phaseLen rate ps.envAttack = .ok la ∧ phaseLen rate ps.envSustain = .ok ls ∧ phaseLen rate ps.envDecay = .ok ld := by
  simp only [phaseLen_eq_ok_iff, phaseLens]
  split
  · rename_i ha hs hd
    simp [ha, hs, hd]
  · rename_i hno
    exact ⟨nofun, fun ⟨ha, hs, hd⟩ => (hno la ls ld ha hs hd).elim⟩

/-- `R` is defined where `repeat_speed` is 0 or its floor is (R161). -/
theorem exists_repeatPeriod_iff (ps : ParamSet) :
    (∃ rep, repeatPeriod ps = .ok rep) ↔ (feq ps.repeatSpeed lit0 || (floorI (delayArg ps.repeatSpeed)).isSome) = true := by
  unfold repeatPeriod fne floorOrRaise delayArg
  cases feq ps.repeatSpeed lit0
  · cases floorI (fadd (fmul (sq (fsub lit1 ps.repeatSpeed)) lit20000) lit32) <;> simp
  · simp

/-! FREQ and ENV, whose results start from the phase lengths. -/

/-- FREQ completes where the lengths are defined and fit and `R` is defined (R161, R162). -/
theorem freqStage_eq_ok_iff (maxLen : Nat) (nan : Nat → F64) (ps : ParamSet) (b : Buf) :
    freqStage maxLen nan ps = .ok b ↔
      ∃ la ls ld rep, phaseLens 44100 ps = some (la, ls, ld) ∧ 8 * (la + ls + ld) ≤ (maxLen : Int) ∧
        repeatPeriod ps = .ok rep ∧ b = .track (freqTrack nan ps (freqInit ps (la + ls + ld).toNat rep)) := by
  simp only [phaseLens_eq_some_iff]
  constructor
  · intro h
    unfold freqStage at h
    split at h
    · cases h
    rename_i la ha
    split at h
    · cases h
    rename_i ls hs
    split at h
    · cases h
    rename_i ld hd
    split at h
    · cases h
    rename_i hfit
    split at h
    · cases h
    rename_i rep hrep
    cases h
    exact ⟨la, ls, ld, rep, ⟨ha, hs, hd⟩, not_lt.mp hfit, hrep, rfl⟩
  · rintro ⟨la, ls, ld, rep, ⟨ha, hs, hd⟩, hfit, hrep, rfl⟩
    have hfit' : ¬ (maxLen : Int) < (Config.supersample : Int) * (la + ls + ld) := not_lt.mpr hfit
    simp only [freqStage, Config.nominalRate, ha, hs, hd, hrep, if_neg hfit']

/-- ENV completes where the lengths are defined and cover the signal (R320, R322). -/
theorem envStage_eq_ok_iff (c : Config.Choices) (nan : Nat → F64) (ps : ParamSet) (buf b : Buf) :
    envStage c nan ps buf = .ok b ↔
      ∃ la ls ld, phaseLens ps.sampleRate ps = some (la, ls, ld) ∧ ((realElems buf).length : Int) ≤ la + ls + ld ∧
        b = .signal (storeFrom nan 0 (envRun ps.envPunch (envGain c ps) la ls ld 0 (realElems buf))) := by
  simp only [phaseLens_eq_some_iff]
  constructor
  · intro h
    unfold envStage at h
    split at h
    · cases h
    rename_i la ha
    split at h
    · cases h
    rename_i ls hs
    split at h
    · cases h
    rename_i ld hd
    split at h
    · cases h
    rename_i hfit
    cases h
    exact ⟨la, ls, ld, ⟨ha, hs, hd⟩, not_lt.mp hfit, rfl⟩
  · rintro ⟨la, ls, ld, ⟨ha, hs, hd⟩, hfit, rfl⟩
    simp only [envStage, ha, hs, hd, if_neg (not_lt.mpr hfit)]

/-! The other results, by the kind of buffer the stage requires. -/

theorem arpStage_track {nan : Nat → F64} {ps : ParamSet} {l : List F64} {b : Buf}
    (h : arpStage nan ps (.track l) = .ok b) : ∃ l', b = .track l' ∧ l'.length = l.length := by
  unfold arpStage at h
  split at h
  · cases h; exact ⟨l, rfl, rfl⟩
  split at h
  · cases h
  split at h
  · cases h; exact ⟨l, rfl, rfl⟩
  · cases h; exact ⟨_, rfl, arpApply_length ..⟩

theorem vibStage_track {c : Config.Choices} {nan : Nat → F64} {ps : ParamSet} {l : List F64} {b : Buf}
    (h : vibStage c nan ps (.track l) = .ok b) : ∃ l', b = .track l' ∧ l'.length = l.length := by
  unfold vibStage at h
  split at h
  · cases h; exact ⟨l, rfl, rfl⟩
  · cases h; exact ⟨_, rfl, by simp [realElems]⟩

/-- Quantized periods are at least 8 (R201). -/
theorem quantRun_minPeriod {l : List F64} {q : List Int} (h : quantRun l = .ok q) : ∀ p ∈ q, 8 ≤ p := by
  induction l generalizing q with
  | nil => cases h; simp
  | cons x xs ih =>
    simp only [quantRun] at h
    split at h
    · cases h
    split at h
    · cases h
    rename_i hq
    cases h
    simp only [List.mem_cons, forall_eq_or_imp]
    exact ⟨le_max_left .., ih hq⟩

theorem quantStage_track {l : List F64} {b : Buf} (h : quantStage (.track l) = .ok b) :
    ∃ q, b = .itrack q ∧ q.length = l.length ∧ ∀ p ∈ q, 8 ≤ p := by
  unfold quantStage at h
  split at h
  · cases h
  · rename_i q hq
    cases h
    exact ⟨q, rfl, quantRun_length _ _ hq, quantRun_minPeriod hq⟩

theorem oscStage_itrack {c : Config.Choices} {nan draw : Nat → F64} {ps : ParamSet} {table : Vector F64 32}
    {pos pos' : Nat} {l : List Int} {b : Buf} (h : oscStage c nan draw ps table pos (.itrack l) = .ok (b, pos')) :
    ∃ y, b = .signal y ∧ y.length = l.length := by
  unfold oscStage at h
  split at h
  · cases h
  · cases h
    exact ⟨_, rfl, (storeFrom_length ..).trans (oscRun_length ..)⟩

theorem phaserStage_signal {c : Config.Choices} {nan : Nat → F64} {ps : ParamSet} {l : List F64} {b : Buf}
    (h : phaserStage c nan ps (.signal l) = .ok b) : ∃ y, b = .signal y ∧ y.length = l.length := by
  unfold phaserStage at h
  split at h
  · cases h
  · rename_i ys hys
    cases h
    exact ⟨_, rfl, (storeFrom_length ..).trans (phaserRun_length _ _ _ hys)⟩

/-- Samples are in the range of the sample size (R131). -/
theorem digitRun_range {size : Nat} {l : List F64} {q : List Int} (h : digitRun size l = .ok q) :
    ∀ v ∈ q, if size = 8 then 0 ≤ v ∧ v ≤ 255 else -32768 ≤ v ∧ v ≤ 32767 := by
  induction l generalizing q with
  | nil => cases h; simp
  | cons x xs ih =>
    simp only [digitRun] at h
    split at h
    · cases h
    split at h
    · cases h
    rename_i v hv _ q hq
    cases h
    simp only [List.mem_cons, forall_eq_or_imp]
    exact ⟨digitSample_range size x v hv, ih hq⟩

theorem digitStage_eq_ok {ps : ParamSet} {buf b : Buf} (h : digitStage ps buf = .ok b) :
    ∃ q, b = .pcm q ∧ digitRun ps.sampleSize (realElems buf) = .ok q := by
  unfold digitStage at h
  split at h
  · cases h
  · rename_i q hq
    cases h
    exact ⟨q, rfl, hq⟩

/-! The kind of the buffer at a value of `SP`. -/

section
variable {n : StageCode} {buf : Buf} (h : bufMatches n buf = true)
include h

theorem track_of_bufMatches (h1 : 2 ≤ n.toNat) (h2 : n.toNat ≤ 4) : ∃ l, buf = .track l := by
  cases buf <;> simp [bufMatches] at h ⊢ <;> omega

theorem itrack_of_bufMatches (h1 : 5 ≤ n.toNat) (h2 : n.toNat ≤ 6) : ∃ l, buf = .itrack l ∧ ∀ p ∈ l, 8 ≤ p := by
  cases buf with
  | itrack l =>
    simp only [bufMatches, Bool.and_eq_true, List.all_eq_true, decide_eq_true_eq] at h
    exact ⟨l, rfl, h.2⟩
  | _ => simp [bufMatches] at h; omega

theorem signal_of_bufMatches (h1 : 7 ≤ n.toNat) (h2 : n.toNat ≤ 11) : ∃ l, buf = .signal l := by
  cases buf <;> simp [bufMatches] at h ⊢ <;> omega

end

theorem bufMatches_itrack {n : StageCode} {l : List Int} (h1 : 5 ≤ n.toNat) (h2 : n.toNat ≤ 6) (hl : ∀ p ∈ l, 8 ≤ p) :
    bufMatches n (.itrack l) = true := by
  simpa [bufMatches, h1, h2] using hl

/-! The kind and the length that each stage leaves. -/

/-- The length a stage other than FREQ leaves, from the length it finds (R31). -/
def Stage.outLen (g : Stage) (ps : ParamSet) (n : Nat) : Nat :=
  match g with
  | .super => 8 * n
  | .compress => n / (8 * (44100 / ps.sampleRate))
  | _ => n

/-- From the kind it requires each stage leaves the kind the next one requires, and the length of the rule (R31). -/
theorem Stage.result_shape {g : Stage} {s : State} {b : Buf} {pos : Nat} (h : g.result s = .ok (b, pos))
    (hk : bufMatches g.code s.buf = true) :
    bufMatches (g.code + 1) b = true ∧ (g ≠ .freq → bufLen b = g.outLen s.ps (bufLen s.buf)) := by
  cases g with
  | freq =>
    obtain ⟨_, _, _, _, _, _, _, rfl⟩ := (freqStage_eq_ok_iff ..).mp (atPos_eq_ok h).1
    exact ⟨rfl, nofun⟩
  | arp =>
    obtain ⟨l, hl⟩ := track_of_bufMatches hk (by decide) (by decide)
    simp only [Stage.result, hl] at h ⊢
    obtain ⟨l', rfl, hlen⟩ := arpStage_track (atPos_eq_ok h).1
    exact ⟨rfl, fun _ => hlen⟩
  | vib =>
    obtain ⟨l, hl⟩ := track_of_bufMatches hk (by decide) (by decide)
    simp only [Stage.result, hl] at h ⊢
    obtain ⟨l', rfl, hlen⟩ := vibStage_track (atPos_eq_ok h).1
    exact ⟨rfl, fun _ => hlen⟩
  | quant =>
    obtain ⟨l, hl⟩ := track_of_bufMatches hk (by decide) (by decide)
    simp only [Stage.result, hl] at h ⊢
    obtain ⟨q, rfl, hlen, hmin⟩ := quantStage_track (atPos_eq_ok h).1
    exact ⟨bufMatches_itrack (by decide) (by decide) hmin, fun _ => hlen⟩
  | super =>
    obtain ⟨l, hl, hmin⟩ := itrack_of_bufMatches hk (by decide) (by decide)
    simp only [Stage.result, hl] at h ⊢
    cases h
    exact ⟨bufMatches_itrack (by decide) (by decide) fun p hp => hmin p (superRun_mem l p hp),
      fun _ => superRun_length l⟩
  | osc =>
    obtain ⟨l, hl, -⟩ := itrack_of_bufMatches hk (by decide) (by decide)
    simp only [Stage.result, hl] at h ⊢
    obtain ⟨y, rfl, hlen⟩ := oscStage_itrack h
    exact ⟨rfl, fun _ => hlen⟩
  | filt =>
    obtain ⟨l, hl⟩ := signal_of_bufMatches hk (by decide) (by decide)
    simp only [Stage.result, hl] at h ⊢
    cases h
    exact ⟨rfl, fun _ => (storeFrom_length ..).trans (filtRun_length ..)⟩
  | phaser =>
    obtain ⟨l, hl⟩ := signal_of_bufMatches hk (by decide) (by decide)
    simp only [Stage.result, hl] at h ⊢
    obtain ⟨y, rfl, hlen⟩ := phaserStage_signal (atPos_eq_ok h).1
    exact ⟨rfl, fun _ => hlen⟩
  | compress =>
    obtain ⟨l, hl⟩ := signal_of_bufMatches hk (by decide) (by decide)
    simp only [Stage.result, hl] at h ⊢
    cases h
    exact ⟨rfl, fun _ => (storeFrom_length ..).trans (decimate_length ..)⟩
  | env =>
    obtain ⟨l, hl⟩ := signal_of_bufMatches hk (by decide) (by decide)
    simp only [Stage.result, hl] at h ⊢
    obtain ⟨_, _, _, _, _, rfl⟩ := (envStage_eq_ok_iff ..).mp (atPos_eq_ok h).1
    exact ⟨rfl, fun _ => (storeFrom_length ..).trans (envRun_length ..)⟩
  | digit =>
    obtain ⟨l, hl⟩ := signal_of_bufMatches hk (by decide) (by decide)
    simp only [Stage.result, hl] at h ⊢
    obtain ⟨q, rfl, hq⟩ := digitStage_eq_ok (atPos_eq_ok h).1
    exact ⟨rfl, fun _ => digitRun_length _ _ _ hq⟩

/-- FREQ's track is at most as long as its phases together, and fits before SUPER (R31, R162). -/
theorem freq_result_length {s : State} {b : Buf} {pos : Nat} (h : Stage.freq.result s = .ok (b, pos)) :
    ∃ la ls ld, phaseLens 44100 s.ps = some (la, ls, ld) ∧ 8 * (la + ls + ld) ≤ (s.maxLen : Int) ∧
      bufLen b ≤ (la + ls + ld).toNat := by
  obtain ⟨la, ls, ld, rep, hlens, hfit, -, rfl⟩ := (freqStage_eq_ok_iff ..).mp (atPos_eq_ok h).1
  exact ⟨la, ls, ld, hlens, hfit, freqTrack_length_le ..⟩

/-- A stage that completes is the step of its result. -/
theorem stageStep_completed {s t : State} (h : StageStep s t) (hf : t.flt = none) :
    ∃ g b pos, s.sp = Stage.code g ∧ g.result s = .ok (b, pos) ∧ t = commit s (g.code + 1) (.ok (b, pos)) := by
  obtain ⟨g, -, hsp, rfl⟩ := h
  cases hr : g.result s with
  | error e => rw [hr] at hf; cases hf
  | ok r => exact ⟨g, r.1, r.2, hsp, hr, rfl⟩

/-- STEP with no fault latched and `SP` at a stage. -/
theorem stageStep_of_exec_step {s t : State} (hf : s.flt = none) (h1 : 1 ≤ s.sp.toNat) (h2 : s.sp.toNat ≤ 11)
    (h : exec .step s = .next t) : StageStep s t := by
  obtain ⟨g, hg⟩ := Stage.exists_code h1 h2
  rw [exec_step_at hf hg.symm, exec_stage g s hf] at h
  cases h
  exact ⟨g, hf, hg.symm, rfl⟩

/-- Settles O20. -/
theorem stageKinds : Obligations.StageKinds := by
  intro s t hf h1 h2 hk h ht
  obtain ⟨g, b, pos, hsp, hr, rfl⟩ := stageStep_completed (stageStep_of_exec_step hf h1 h2 h) ht
  rw [hsp] at hk ⊢
  obtain ⟨hkind, hlen⟩ := g.result_shape hr hk
  refine ⟨hkind, ?_, ?_, ?_, ?_⟩
  · intro hfreq la ls ld hlens
    cases g with
    | freq =>
      obtain ⟨la', ls', ld', hlens', -, hle⟩ := freq_result_length hr
      cases hlens.symm.trans hlens'
      exact hle
    | _ => exact absurd hfreq (by decide)
  · intro hfreq hsuper hcompress
    cases g with
    | freq => exact absurd rfl hfreq
    | super => exact absurd rfl hsuper
    | compress => exact absurd rfl hcompress
    | _ => exact hlen nofun
  · intro hsuper
    cases g with
    | super => exact hlen nofun
    | _ => exact absurd hsuper (by decide)
  · intro hcompress
    cases g with
    | compress => exact hlen nofun
    | _ => exact absurd hcompress (by decide)

end Sys2Proof.Proofs
end

section
/-! PROOFS. Every step keeps the invariant. -/

namespace Sys2Proof.Proofs

open Machine Safety Laws

/-! The parts of the invariant as propositions. -/

theorem lengthFits_iff (s : State) :
    lengthFits s = true ↔ (if s.sp.toNat ≤ 5 then 8 else 1) * bufLen s.buf ≤ s.maxLen := by
  unfold lengthFits
  split <;> simp [Config.supersample]

/-- Where `SP` is not 12 there are no PCM samples to be out of range. -/
theorem pcmInRange_of_bufMatches {s : State} (hk : bufMatches s.sp s.buf = true) (hsp : s.sp.toNat ≠ 12) :
    pcmInRange s = true := by
  unfold pcmInRange
  split
  · rename_i l hl
    simp [hl, bufMatches, hsp] at hk
  all_goals rfl

/-! What the invariant rests on: `SP`, `FLT`, `BUF`, `PS` and `MAX_LEN`. -/

theorem inv_of_same {s t : State} (h : Inv s) (hsp : t.sp = s.sp) (hflt : t.flt = s.flt) (hbuf : t.buf = s.buf)
    (hps : t.ps = s.ps) (hmax : t.maxLen = s.maxLen) : Inv t where
  sp_legal := hsp ▸ h.sp_legal
  kind := by rw [hsp, hbuf]; exact h.kind
  fits := by rw [lengthFits_iff, hsp, hbuf, hmax]; exact (lengthFits_iff s).mp h.fits
  latched := by rw [hsp, hps]; exact h.latched
  fault_stage := by unfold faultStageIsSp; rw [hflt, hsp]; exact h.fault_stage
  pcm := by unfold pcmInRange; rw [hbuf, hps]; exact h.pcm

theorem inv_raiseFault {s : State} (h : Inv s) (c : Cause) (info : InfoByte) : Inv (raiseFault s c info) where
  sp_legal := h.sp_legal
  kind := h.kind
  fits := h.fits
  latched := h.latched
  fault_stage := by simp [faultStageIsSp]
  pcm := h.pcm

/-- An idle block meets the invariant, whatever `PS` holds. -/
theorem inv_of_idle {s : State} (hsp : s.sp = 0) (hflt : s.flt = none) (hbuf : s.buf = .none) : Inv s where
  sp_legal := by rw [hsp]; decide
  kind := by rw [hsp, hbuf]; rfl
  fits := by rw [lengthFits_iff, hbuf]; exact Nat.zero_le _
  latched := by rw [hsp]; exact fun h => absurd h (by decide)
  fault_stage := by rw [faultStageIsSp, hflt]
  pcm := by rw [pcmInRange, hbuf]

/-! ARM. -/

/-- The registers below 0x17 are latched as the real fields, in order (R20, R354). -/
theorem realFields_latch (p : Vector ParamCell 26) :
    realFields (latch p) = (List.range 23).map (fun a => cellWord (cellAt p a)) := rfl

/-- A set that passed the checks is legal (R401). -/
theorem latchOk_of_armCheck {p : Vector ParamCell 26} (h : armCheck p = .ok ()) : latchOk (latch p) = true := by
  unfold armCheck at h
  split at h
  · cases h
  split at h
  · cases h
  rename_i hfinite
  split at h
  · cases h
  rename_i hrate
  split at h
  · cases h
  rename_i hsize
  have hreal : (realFields (latch p)).all isFinite = true := by
    simpa [realFields_latch] using hfinite
  have hrate' : 1 ≤ (latch p).sampleRate ∧ (latch p).sampleRate ≤ 44100 := by
    change 1 ≤ (cellWord (cellAt p 0x18)).toNat ∧ (cellWord (cellAt p 0x18)).toNat ≤ 44100
    omega
  have hsize' : (latch p).sampleSize = 8 ∨ (latch p).sampleSize = 16 := by
    change (cellWord (cellAt p 0x19)).toNat = 8 ∨ (cellWord (cellAt p 0x19)).toNat = 16
    omega
  simp [latchOk, hreal, hrate', hsize']

theorem inv_arm {s : State} (hf : s.flt = none) (hc : armCheck s.p = .ok ()) :
    Inv { s with ps := latch s.p, buf := .none, sp := 1 } where
  sp_legal := (by decide : (1 : StageCode).toNat ≤ 12)
  kind := rfl
  fits := by rw [lengthFits_iff]; exact Nat.zero_le _
  latched := fun _ => latchOk_of_armCheck hc
  fault_stage := by simp only [faultStageIsSp, hf]
  pcm := rfl

/-! A stage that completes. -/

/-- The capacity that FREQ checked is enough for every later stage (R162, R413). -/
theorem Stage.result_fits {g : Stage} {s : State} {b : Buf} {pos : Nat} (h : g.result s = .ok (b, pos))
    (hk : bufMatches g.code s.buf = true)
    (hfit : (if g.code.toNat ≤ 5 then 8 else 1) * bufLen s.buf ≤ s.maxLen) :
    (if (g.code + 1).toNat ≤ 5 then 8 else 1) * bufLen b ≤ s.maxLen := by
  by_cases hg : g = .freq
  · subst hg
    obtain ⟨la, ls, ld, -, hmax, hlen⟩ := freq_result_length h
    change 8 * bufLen b ≤ s.maxLen
    omega
  · rw [(g.result_shape h hk).2 hg]
    cases g with
    | freq => exact absurd rfl hg
    | compress => exact (Nat.mul_le_mul_left 1 (Nat.div_le_self ..)).trans hfit
    | super => simpa [Stage.code, Stage.outLen] using hfit
    | _ => exact hfit

/-- The samples DIGIT leaves are in range (R131). -/
theorem digit_result_range {s : State} {b : Buf} {pos : Nat} (h : Stage.digit.result s = .ok (b, pos)) :
    pcmInRange (commit s 12 (.ok (b, pos))) = true := by
  obtain ⟨q, rfl, hq⟩ := digitStage_eq_ok (atPos_eq_ok h).1
  have hrange := digitRun_range hq
  simp only [pcmInRange, commit_ok_buf, commit_ps, List.all_eq_true]
  intro v hv
  have := hrange v hv
  split <;> simp_all

/-- A stage step keeps the invariant: a fault leaves the block as it is, a completion moves to the next stage's kind. -/
theorem inv_stageStep {s t : State} (h : Inv s) (hst : StageStep s t) : Inv t := by
  obtain ⟨g, hf, hsp, rfl⟩ := hst
  cases hr : g.result s with
  | error e => exact inv_of_same (inv_raiseFault h e.1 e.2) rfl rfl rfl rfl rfl
  | ok r =>
    obtain ⟨b, pos⟩ := r
    have hcode := g.code_bounds
    have hk : bufMatches g.code s.buf = true := hsp ▸ h.kind
    have hfit := (lengthFits_iff s).mp h.fits
    rw [hsp] at hfit
    have hkind := (g.result_shape hr hk).1
    exact {
      sp_legal := by rw [commit_ok_sp, g.code_succ]; omega
      kind := hkind
      fits := (lengthFits_iff _).mpr (show _ * bufLen b ≤ s.maxLen from Stage.result_fits hr hk hfit)
      latched := fun _ => by rw [commit_ps]; exact h.latched (by rw [hsp]; omega)
      fault_stage := by rw [faultStageIsSp, commit_ok_flt, hf]
      pcm := by
        by_cases hg : g = .digit
        · subst hg; exact digit_result_range hr
        · refine pcmInRange_of_bufMatches hkind ?_
          rw [commit_ok_sp, g.code_succ]
          cases g with
          | digit => exact absurd rfl hg
          | _ => decide }

theorem inv_path {s t : State} (h : Inv s) (hp : Relation.ReflTransGen StageStep s t) : Inv t := by
  induction hp with
  | refl => exact h
  | tail _ hst ih => exact inv_stageStep ih hst

/-- Every instruction a transaction can be keeps the invariant. -/
theorem inv_exec {s t : State} {i : Instr} (h : Inv s) (hi : i ∉ stageOps) (he : exec i s = .next t) : Inv t := by
  cases exec_effect he with
  | idle => exact h
  | fault c info => exact inv_raiseFault h c info
  | read => exact inv_of_same h rfl rfl rfl rfl rfl
  | readFault w reads c info => exact inv_of_same (inv_raiseFault h c info) rfl rfl rfl rfl rfl
  | writeParam => exact inv_of_same h rfl rfl rfl rfl rfl
  | writeBufIdx => exact inv_of_same h rfl rfl rfl rfl rfl
  | reset => exact inv_of_idle rfl rfl rfl
  | loaddef =>
    exact inv_of_same h (loadDefaults_sp s) (loadDefaults_flt s) (loadDefaults_buf s) (loadDefaults_ps s)
      (loadDefaults_maxLen s)
  | arm _ hf hc => exact inv_arm hf hc
  | step _ _ hst => exact inv_stageStep h hst
  | run _ _ hp => exact inv_path h hp
  | stageOp g hg => exact absurd ((mem_stageOps_iff i).mpr ⟨g, hg.symm⟩) hi

/-- Settles O54, by the effects of the instruction at the port. -/
theorem stepKeepsInv : Obligations.StepKeepsInv := by
  intro s t h hstep
  cases hp : s.pending with
  | nil =>
    rw [step_of_idle hp] at hstep
    cases hstep
    exact h
  | cons input rest =>
    cases input with
    | transaction w =>
      rw [step_of_transaction hp] at hstep
      have hs : Inv { s with pending := rest } := inv_of_same h rfl rfl rfl rfl rfl
      exact inv_exec hs (decodeHost_not_mem_stageOps w) hstep
    | powerOn =>
      rw [step_of_powerOn hp] at hstep
      cases hstep
      exact inv_of_idle rfl rfl rfl

end Sys2Proof.Proofs
end

section
/-! PROOFS. OSC and the entropy port: the noise table matters to the Noise shape only, who moves the position of the entropy source, and the Noise shape in closed form. -/

namespace Sys2Proof.Proofs

open Machine Safety Laws

theorem waveShape_eq_noise_iff (code : Nat) : waveShape code = some .noise ↔ code = 3 := by
  unfold waveShape
  split <;> simp_all

/-! The shapes other than Noise neither read the table nor draw (R222). -/

section
variable {shape : WaveShape} (hs : shape ≠ .noise)
include hs

theorem refreshNoise_of_ne_noise (draw : Nat → F64) (pos : Nat) (table : Vector F64 32) :
    refreshNoise draw shape pos table = (table, pos) := by
  cases shape with
  | noise => exact absurd rfl hs
  | _ => rfl

theorem shapeOut_of_ne_noise (sin : F64 → F64) (duty fp : F64) (table table' : Vector F64 32) :
    shapeOut sin shape duty table fp = shapeOut sin shape duty table' fp := by
  cases shape with
  | noise => exact absurd rfl hs
  | _ => rfl

theorem rampDuty_noise (r : OscRegs) (table : Vector F64 32) : rampDuty shape { r with noise := table } = rampDuty shape r := by
  cases shape <;> rfl

theorem oscStep_pos_of_ne_noise (c : Config.Choices) (draw : Nat → F64) (r : OscRegs) (pos : Nat) (period : Int) :
    (oscStep c draw shape r pos period).2.1 = pos := by
  simp only [oscStep, refreshNoise_of_ne_noise hs, ite_self]

theorem oscRun_pos_of_ne_noise (c : Config.Choices) (draw : Nat → F64) (r : OscRegs) (pos : Nat) (l : List Int) :
    (oscRun c draw shape r pos l).2 = pos := by
  induction l generalizing r pos with
  | nil => rfl
  | cons p ps ih => simp only [oscRun, ih, oscStep_pos_of_ne_noise hs]

/-- Another table in the registers stays there, and the element is the same. -/
theorem oscStep_table_of_ne_noise (c : Config.Choices) (draw : Nat → F64) (r : OscRegs) (pos : Nat) (period : Int)
    (table : Vector F64 32) :
    oscStep c draw shape { r with noise := table } pos period =
      ({ (oscStep c draw shape r pos period).1 with noise := table }, (oscStep c draw shape r pos period).2) := by
  simp only [oscStep, refreshNoise_of_ne_noise hs, ite_self, rampDuty_noise hs]
  rw [shapeOut_of_ne_noise hs _ _ _ table r.noise]

theorem oscRun_table_of_ne_noise (c : Config.Choices) (draw : Nat → F64) (r : OscRegs) (pos : Nat) (l : List Int)
    (table : Vector F64 32) : oscRun c draw shape { r with noise := table } pos l = oscRun c draw shape r pos l := by
  induction l generalizing r pos with
  | nil => rfl
  | cons p ps ih =>
    simp only [oscRun]
    rw [oscStep_table_of_ne_noise hs]
    simp only [ih]

end

/-- The table that OSC finds does not matter: Noise fills it before the first element, the other shapes do not read it (R222, R452). -/
theorem oscStage_table (c : Config.Choices) (nan draw : Nat → F64) (ps : ParamSet) (table table' : Vector F64 32) (pos : Nat)
    (buf : Buf) : oscStage c nan draw ps table pos buf = oscStage c nan draw ps table' pos buf := by
  unfold oscStage
  cases waveShape ps.waveType with
  | none => rfl
  | some shape =>
    by_cases hs : shape = .noise
    · subst hs; rfl
    · have hinit : oscInit c draw ps shape pos table =
          ({ (oscInit c draw ps shape pos table').1 with noise := table }, (oscInit c draw ps shape pos table').2) := by
        simp only [oscInit, refreshNoise_of_ne_noise hs]
      simp only [hinit, oscRun_table_of_ne_noise hs]

theorem Stage.result_loc (g : Stage) (s : State) (loc : StageLocal) : g.result { s with loc := loc } = g.result s := by
  cases g with
  | osc => exact oscStage_table ..
  | _ => rfl

theorem commit_loc (s : State) (loc : StageLocal) (next : StageCode) (r : Except StageFault (Buf × Nat)) :
    commit { s with loc := loc } next r = commit s next r := by
  rcases r with e | ⟨b, pos⟩ <;> rfl

/-- Settles O45. -/
theorem stageLocalImmaterial : Obligations.StageLocalImmaterial := by
  intro s loc i hf hi
  obtain ⟨g, rfl⟩ := (mem_stageOps_iff i).mp hi
  rw [exec_stage g s hf, exec_stage g { s with loc := loc } hf, g.result_loc, commit_loc]

/-! Who moves the position of the entropy source (R38). -/

/-- Only OSC with the Noise shape moves the position. -/
theorem Stage.result_pos {g : Stage} {s : State} {b : Buf} {pos : Nat} (h : g.result s = .ok (b, pos)) :
    pos = s.entropyPos ∨ (g = .osc ∧ s.ps.waveType = 3) := by
  cases g with
  | osc =>
    simp only [Stage.result, oscStage] at h
    split at h
    · cases h
    · rename_i shape hshape
      cases h
      by_cases hs : shape = .noise
      · exact .inr ⟨rfl, (waveShape_eq_noise_iff _).mp (hs ▸ hshape)⟩
      · left
        simp only [oscRun_pos_of_ne_noise hs, oscInit, refreshNoise_of_ne_noise hs]
  | super => cases h; exact .inl rfl
  | filt => cases h; exact .inl rfl
  | compress => cases h; exact .inl rfl
  | _ => exact .inl (atPos_eq_ok h).2

theorem commit_entropyPos (g : Stage) (s : State) (next : StageCode) :
    (commit s next (g.result s)).entropyPos = s.entropyPos ∨ (g = .osc ∧ s.ps.waveType = 3) := by
  cases hr : g.result s with
  | error e => exact .inl rfl
  | ok r => exact g.result_pos hr

theorem StageStep.entropyPos {s t : State} (h : StageStep s t) :
    t.entropyPos = s.entropyPos ∨ (s.sp = 6 ∧ s.ps.waveType = 3) := by
  obtain ⟨g, _, hsp, rfl⟩ := h
  exact (commit_entropyPos g s _).imp_right fun ⟨hg, hw⟩ => ⟨hsp.trans (g.code_eq_six_iff.mpr hg), hw⟩

/-- A run that moves the position comes to OSC, with the Noise shape. -/
theorem path_entropyPos {s t : State} (h : Relation.ReflTransGen StageStep s t) (hne : t.entropyPos ≠ s.entropyPos) :
    s.ps.waveType = 3 ∧ 1 ≤ s.sp.toNat ∧ s.sp.toNat ≤ 6 := by
  induction h using Relation.ReflTransGen.head_induction_on with
  | refl => exact absurd rfl hne
  | head hst _ ih =>
    obtain ⟨h1, _, hmove⟩ := hst.sp
    rcases hst.entropyPos with hsame | ⟨hsp, hw⟩
    · obtain ⟨hw, _, h6⟩ := ih (hsame ▸ hne)
      rw [hst.ps] at hw
      refine ⟨hw, h1, ?_⟩
      rcases hmove with hsp | ⟨-, hsp, -⟩
      · rwa [hsp] at h6
      · omega
    · exact ⟨hw, by rw [hsp]; decide⟩

/-- Settles O47. -/
theorem entropyOnlyForNoise : Obligations.EntropyOnlyForNoise := by
  constructor
  · intro n
    exact (Bool.and_eq_true _ _).mp (drawAt_inRange n)
  · intro i s t h hne
    cases exec_effect h with
    | loaddef => exact absurd (loadDefaults_entropyPos s) hne
    | step _ hs hst =>
      obtain ⟨hsp, hw⟩ := hst.entropyPos.resolve_left hne
      exact ⟨hw, .inr (.inl ⟨hs, hsp⟩)⟩
    | run _ hr hp =>
      obtain ⟨hw, hsp⟩ := path_entropyPos hp hne
      exact ⟨hw, .inr (.inr ⟨hr, hsp⟩)⟩
    | stageOp g hi =>
      obtain ⟨rfl, hw⟩ := (commit_entropyPos g s _).resolve_left hne
      exact ⟨hw, .inl hi⟩
    | _ => exact absurd rfl hne

/-! The Noise shape in closed form (R222, R229). -/

theorem phaseAt_succ (l : List Int) (u : Nat) (hu : u < l.length) :
    phaseAt l (u + 1) = if l.getD u 0 ≤ phaseAt l u + 1 then (phaseAt l u + 1) % l.getD u 0 else phaseAt l u + 1 := by
  rw [List.getD_eq_getElem _ _ hu, phaseAt, ← List.take_concat_get' l u hu, List.foldl_append]
  rfl

theorem wrapCount_succ (l : List Int) (u : Nat) :
    wrapCount l (u + 1) = wrapCount l u + if wrapsAt l u then 1 else 0 := by
  simp only [wrapCount, List.range_succ, List.filter_append, List.length_append]
  cases h : wrapsAt l u <;> simp [h]

/-- OSC's registers and position before element `u` of the Noise shape, `start` being the position on entry: the counter,
the draws of the latest fill, and the position after them. -/
structure NoiseAt (draw : Nat → F64) (l : List Int) (start u : Nat) (r : OscRegs) (pos : Nat) : Prop where
  ophase : r.ophase = phaseAt l u
  noise : r.noise = fillNoise draw (start + 32 * wrapCount l u)
  pos : pos = start + 32 * (1 + wrapCount l u)

theorem noiseAt_oscInit (c : Config.Choices) (draw : Nat → F64) (ps : ParamSet) (pos : Nat) (table : Vector F64 32)
    (l : List Int) :
    NoiseAt draw l pos 0 (oscInit c draw ps .noise pos table).1 (oscInit c draw ps .noise pos table).2 :=
  ⟨rfl, rfl, rfl⟩

/-- One element of the Noise shape: the table is filled first where the counter wraps, then read. -/
theorem oscStep_noise {c : Config.Choices} {draw : Nat → F64} {l : List Int} {start u pos : Nat} {r : OscRegs}
    (h : NoiseAt draw l start u r pos) (hu : u < l.length) :
    NoiseAt draw l start (u + 1) (oscStep c draw .noise r pos (l.getD u 0)).1
        (oscStep c draw .noise r pos (l.getD u 0)).2.1 ∧
      (oscStep c draw .noise r pos (l.getD u 0)).2.2 =
        noiseEntry (fillNoise draw (start + 32 * wrapCount l (u + 1))) (normPhase l u) := by
  obtain ⟨hph, hno, hpos⟩ := h
  have hcount := wrapCount_succ l u
  have hphase := phaseAt_succ l u hu
  unfold normPhase
  by_cases hw : l.getD u 0 ≤ phaseAt l u + 1
  · have hcount' : wrapCount l (u + 1) = 1 + wrapCount l u := by
      rw [hcount, wrapsAt, decide_eq_true hw, if_pos rfl, Nat.add_comm]
    rw [if_pos hw] at hphase
    simp only [oscStep, hph, decide_eq_true hw, if_true, refreshNoise, shapeOut]
    rw [hphase]
    exact ⟨⟨hphase.symm, by rw [hcount', hpos], by rw [hcount', hpos]; ring⟩, by rw [hcount', hpos]⟩
  · have hcount' : wrapCount l (u + 1) = wrapCount l u := by
      rw [hcount, wrapsAt, decide_eq_false hw]; rfl
    rw [if_neg hw] at hphase
    simp only [oscStep, hph, decide_eq_false hw, Bool.false_eq_true, if_false, shapeOut]
    rw [hphase]
    exact ⟨⟨hphase.symm, by rw [hcount', hno], by rw [hcount', hpos]⟩, by rw [hcount', hno]⟩

/-- The elements of the Noise shape from element `u` on, and the position after them. -/
theorem oscRun_noise {c : Config.Choices} {draw : Nat → F64} {l : List Int} {start : Nat} (rest : List Int) {u pos : Nat}
    {r : OscRegs} (h : NoiseAt draw l start u r pos) (hrest : rest = l.drop u) (hu : u ≤ l.length) :
    (oscRun c draw .noise r pos rest).2 = start + 32 * (1 + wrapCount l l.length) ∧
      ∀ k, u + k < l.length → (oscRun c draw .noise r pos rest).1[k]? =
        some (noiseEntry (fillNoise draw (start + 32 * wrapCount l (u + k + 1))) (normPhase l (u + k))) := by
  induction rest generalizing u r pos with
  | nil =>
    obtain rfl : u = l.length := le_antisymm hu (List.drop_eq_nil_iff.mp hrest.symm)
    exact ⟨h.pos, fun k hk => by omega⟩
  | cons p rest ih =>
    have hlt : u < l.length := by
      by_contra hge
      rw [List.drop_eq_nil_of_le (by omega)] at hrest
      cases hrest
    rw [List.drop_eq_getElem_cons hlt] at hrest
    obtain ⟨hp, hrest'⟩ := List.cons.inj hrest
    have hp' : p = l.getD u 0 := by rw [hp, List.getD_eq_getElem _ _ hlt]
    subst hp'
    obtain ⟨hnext, hout⟩ := oscStep_noise (c := c) h hlt
    obtain ⟨hlast, hrun⟩ := ih hnext hrest' hlt
    refine ⟨hlast, fun k hk => ?_⟩
    cases k with
    | zero => exact congrArg some hout
    | succ k =>
      have := hrun k (by omega)
      rwa [show u + 1 + k = u + (k + 1) by omega] at this

theorem noiseEntry_fillNoise {draw : Nat → F64} {n : Nat} {fp : F64} {i : Int} (h : floorI (fmul fp lit32) = some i)
    (h0 : 0 ≤ i) (h32 : i < 32) : noiseEntry (fillNoise draw n) fp = draw (n + i.toNat) := by
  have hi : i.toNat < 32 := by omega
  simp only [noiseEntry, h, dif_pos hi, fillNoise, Vector.getElem_ofFn]

theorem drawAt_not_isNaN (n : Nat) : isNaN (drawAt n) = false := by
  have h := drawAt_inRange n
  simp only [inDrawRange, fle, flt, Bool.and_eq_true, Bool.not_eq_true'] at h
  exact h.1.1.2

theorem stored_drawAt (s : State) (u n : Nat) : stored s u (drawAt n) = drawAt n := by
  rw [stored, drawAt_not_isNaN, if_neg Bool.false_ne_true]

/-- What OSC computes with the Noise shape: the run starts from the initial fill and keeps `NoiseAt`. -/
theorem osc_result_noise {s : State} {l : List Int} (hbuf : s.buf = .itrack l) (hwave : s.ps.waveType = 3) :
    ∃ ys, Stage.osc.result s = .ok (.signal (storeFrom (freeNaN s) 0 ys), s.entropyPos + 32 * (1 + wrapCount l l.length)) ∧
      ys.length = l.length ∧ ∀ u < l.length,
        ys[u]? = some (noiseEntry (fillNoise drawAt (s.entropyPos + 32 * wrapCount l (u + 1))) (normPhase l u)) := by
  have hshape := (waveShape_eq_noise_iff s.ps.waveType).mpr hwave
  have hinit := noiseAt_oscInit Config.choices drawAt s.ps s.entropyPos s.loc.osc.noise l
  obtain ⟨hpos, hrun⟩ := oscRun_noise (c := Config.choices) l hinit rfl (Nat.zero_le _)
  simp only [Nat.zero_add] at hrun
  refine ⟨_, ?_, oscRun_length .., hrun⟩
  simp only [Stage.result, oscStage, hshape, hbuf, intElems, hpos]

/-- Settles O36: an element is the entry of the latest fill at its index, and no draw is a NaN. -/
theorem oscNoise : Obligations.OscNoise := by
  intro s l hf hbuf hwave
  obtain ⟨ys, hr, hlen, hys⟩ := osc_result_noise hbuf hwave
  have hexec := exec_stage .osc s hf
  rw [hr] at hexec
  refine ⟨_, storeFrom (freeNaN s) 0 ys, hexec, ⟨rfl, rfl, hf, commit_frame ..⟩, rfl, (storeFrom_length ..).trans hlen, ?_⟩
  intro u i hu hfloor h0 h32
  rw [storeFrom_stored, hys u hu, noiseEntry_fillNoise hfloor h0 h32, Option.map_some, stored_drawAt]

end Sys2Proof.Proofs
end

section
/-! PROOFS. What the host does between stages does not disturb a run: replacing the host's side of the state commutes with every stage, with STEP and with RUN. -/

namespace Sys2Proof.Proofs

open Machine Safety Laws

/-- The host's side of the state: what the host can write or has at the port between stages. -/
structure HostSide where
  p : Vector ParamCell 26
  bufIdx : Word
  pending : List HostInput
  answer : Option Word
  freeReads : Nat

/-- The state with another host's side. -/
def withHost (h : HostSide) (s : State) : State :=
  { s with p := h.p, bufIdx := h.bufIdx, pending := h.pending, answer := h.answer, freeReads := h.freeReads }

section
variable (h : HostSide)

theorem result_withHost (g : Stage) (s : State) : g.result (withHost h s) = g.result s := by
  cases g <;> rfl

theorem commit_withHost (s : State) (next : StageCode) (r : Except StageFault (Buf × Nat)) :
    commit (withHost h s) next r = withHost h (commit s next r) := by
  rcases r with e | ⟨b, pos⟩ <;> rfl

theorem stageStep_withHost {s t : State} (hst : StageStep s t) : StageStep (withHost h s) (withHost h t) := by
  obtain ⟨g, hf, hsp, rfl⟩ := hst
  exact ⟨g, hf, hsp, by rw [result_withHost, commit_withHost]⟩

theorem exec_stage_withHost {g : Stage} {s t : State} (he : exec g.instr s = .next t) :
    exec g.instr (withHost h s) = .next (withHost h t) := by
  by_cases hf : s.flt = none
  · rw [exec_stage g s hf] at he
    cases he
    rw [exec_stage g (withHost h s) hf, result_withHost, commit_withHost]
  · rw [exec_stage_of_faulted g s hf] at he
    cases he
    exact exec_stage_of_faulted g (withHost h s) hf

theorem execStage_withHost {s t : State} (hf : s.flt = none) (he : execStage s.sp s = .next t) :
    execStage s.sp (withHost h s) = .next (withHost h t) :=
  (execStage_eq_next_iff (s := withHost h s) hf).mpr (stageStep_withHost h ((execStage_eq_next_iff hf).mp he))

theorem stepCommand_withHost {s t : State} (hf : s.flt = none) (he : stepCommand s = .next t) :
    stepCommand (withHost h s) = .next (withHost h t) := by
  unfold stepCommand at he ⊢
  by_cases hb : badSequence s = true
  · rw [if_pos hb] at he
    cases he
    exact if_pos hb
  · rw [if_neg hb] at he
    exact (if_neg hb).trans (execStage_withHost (s := s) h hf he)

theorem runStages_withHost (k : Nat) {s t : State} (he : runStages k s = .next t) :
    runStages k (withHost h s) = .next (withHost h t) := by
  induction k generalizing s with
  | zero => cases he; rfl
  | succ k ih =>
    by_cases ha : flagArmed s = true
    · obtain ⟨h1, h2, hf⟩ := (flagArmed_iff s).mp ha
      obtain ⟨u, hu⟩ := exists_stageStep hf h1 h2
      have hu' := (execStage_eq_next_iff hf).mpr hu
      have ha' : flagArmed (withHost h s) = true := ha
      have hsp : (withHost h s).sp = s.sp := rfl
      rw [runStages, if_pos ha, hu'] at he
      rw [runStages, if_pos ha', hsp, execStage_withHost h hf hu']
      exact ih he
    · have ha' : ¬ flagArmed (withHost h s) = true := ha
      rw [runStages, if_neg ha] at he
      cases he
      rw [runStages, if_neg ha']

theorem runCommand_withHost {s t : State} (he : runCommand s = .next t) :
    runCommand (withHost h s) = .next (withHost h t) := by
  unfold runCommand at he ⊢
  by_cases hb : badSequence s = true
  · rw [if_pos hb] at he
    cases he
    exact if_pos hb
  · rw [if_neg hb] at he
    exact (if_neg hb).trans (runStages_withHost h 11 he)

/-- A command that is ignored while a fault is latched commutes, if what it does otherwise commutes. -/
theorem ignored_when_faulted_withHost {s t : State} {cmd : State → Host.Outcome State Fault Refusal}
    (hcmd : s.flt = none → cmd s = .next t → cmd (withHost h s) = .next (withHost h t))
    (he : (if s.flt.isSome then .next s else cmd s) = .next t) :
    (if (withHost h s).flt.isSome then .next (withHost h s) else cmd (withHost h s)) = .next (withHost h t) := by
  have hflt : (withHost h s).flt = s.flt := rfl
  rw [hflt]
  split at he
  · rename_i hf
    cases he
    exact if_pos hf
  · rename_i hf
    exact (if_neg hf).trans (hcmd (by simpa using hf) he)

end

/-- Settles O46. -/
theorem hostWritesDoNotDisturb : Obligations.HostWritesDoNotDisturb := by
  intro s t i p idx pending answer reads hi he
  suffices key : ∀ h, exec i (withHost h s) = .next (withHost h t) from key ⟨p, idx, pending, answer, reads⟩
  intro h
  rcases List.mem_append.mp hi with hcmd | hstage
  · simp only [List.mem_cons, List.not_mem_nil, or_false] at hcmd
    rcases hcmd with rfl | rfl
    · exact ignored_when_faulted_withHost h (stepCommand_withHost h) he
    · exact ignored_when_faulted_withHost h (fun _ => runCommand_withHost h) he
  · obtain ⟨g, rfl⟩ := (mem_stageOps_iff i).mp hstage
    exact exec_stage_withHost h he

end Sys2Proof.Proofs
end

section
/-! PROOFS. Where each stage completes: a stage that has what its rule needs has a result. -/

namespace Sys2Proof.Proofs

open Machine Safety Laws

/-! The operations DIGIT uses give no NaN from data that are no NaN. -/

theorem isNaN_withSign (neg : Bool) (p : Nat) (h : p ≤ 2047 * 2 ^ 52) : isNaN (withSign neg p) = false := by
  have hmod : (withSign neg p).toNat % 2 ^ 63 = p := by
    rw [withSign_toNat neg p (by omega)]
    cases neg <;> simp <;> omega
  by_cases hp : p < 2047 * 2 ^ 52
  · exact isNaN_of_isFinite _ ((isFinite_iff _).mpr (by omega))
  · have hfrac : fracField (withSign neg p) = 0 := by
      unfold fracField; omega
    simp [isNaN, hfrac]

theorem isNaN_roundTo (neg : Bool) (num den : Nat) : isNaN (roundTo neg num den) = false :=
  isNaN_withSign neg _ (roundPattern_le num den)

theorem isNaN_zero (neg : Bool) : isNaN (zero neg) = false := isNaN_withSign neg 0 (Nat.zero_le _)

theorem isNaN_infinity (neg : Bool) : isNaN (infinity neg) = false := isNaN_withSign neg _ le_rfl

theorem isInf_of_isFinite {x : F64} (h : isFinite x = true) : isInf x = false := by
  simp only [isFinite, bne_iff_ne] at h
  simp [isInf, h]

/-- A finite addend adds no NaN. -/
theorem isNaN_fadd {x y : F64} (hx : isNaN x = false) (hy : isFinite y = true) : isNaN (fadd x y) = false := by
  have hny := isNaN_of_isFinite y hy
  have hiy := isInf_of_isFinite hy
  unfold fadd
  simp only [hx, hny, hiy, Bool.or_self, Bool.false_and, Bool.false_eq_true, if_false]
  split
  · exact hx
  split
  · exact isNaN_zero _
  · exact isNaN_roundTo ..

/-- A finite factor other than zero makes no NaN. -/
theorem isNaN_fmul {x y : F64} (hx : isNaN x = false) (hy : isFinite y = true) (hy0 : magnitude y ≠ 0) :
    isNaN (fmul x y) = false := by
  have hny := isNaN_of_isFinite y hy
  have hiy := isInf_of_isFinite hy
  unfold fmul
  simp only [hx, hny, hiy, hy, Bool.or_self, Bool.or_false, Bool.false_eq_true, if_false, Bool.true_and,
    beq_eq_false_iff_ne.mpr hy0]
  by_cases hix : isInf x = true
  · have hfx : isFinite x = false := by
      by_contra hfx
      rw [isInf_of_isFinite (Bool.not_eq_false _ ▸ hfx)] at hix
      cases hix
    simp only [hix, hfx, Bool.false_and, Bool.false_eq_true, if_true, if_false]
    exact isNaN_infinity _
  · rw [if_neg hix]
    exact isNaN_roundTo ..

/-! DIGIT. -/

/-- A datum that is neither a NaN nor finite is an infinity: its key is beyond every finite one. -/
theorem orderKey_of_not_isFinite {v : F64} (hn : isNaN v = false) (hf : ¬ isFinite v = true) :
    orderKey v = 2047 * 2 ^ 52 ∨ orderKey v = -(2047 * 2 ^ 52) := by
  have hpat : v.toNat % 2 ^ 63 = 2047 * 2 ^ 52 := by
    simp only [isFinite, bne_iff_ne, not_not, expField] at hf
    simp only [isNaN, expField, fracField, hf, beq_self_eq_true, Bool.true_and, bne_eq_false_iff_eq] at hn
    omega
  unfold orderKey
  rw [hpat]
  split
  · right; rfl
  · left; rfl

theorem orderKey_of_isFinite {v : F64} (hf : isFinite v = true) :
    -(2047 * 2 ^ 52) < orderKey v ∧ orderKey v < 2047 * 2 ^ 52 := by
  rw [isFinite_iff] at hf
  unfold orderKey
  split <;> omega

/-- A value between finite bounds is finite (R127). -/
theorem isFinite_of_between {v lo hi : F64} (hn : isNaN v = false) (hlo : isFinite lo = true) (hhi : isFinite hi = true)
    (h1 : ¬ flt v lo = true) (h2 : ¬ fge v hi = true) : isFinite v = true := by
  by_contra hf
  have klo := orderKey_of_isFinite hlo
  have khi := orderKey_of_isFinite hhi
  simp only [flt, fge, fle, hn, isNaN_of_isFinite _ hlo, isNaN_of_isFinite _ hhi, Bool.not_false, Bool.true_and,
    decide_eq_true_eq, not_lt, not_le] at h1 h2
  rcases orderKey_of_not_isFinite hn hf with h | h <;> omega

/-- A datum that is no NaN gives a sample: what does not clamp has a floor (R331). -/
theorem exists_digitClamp {v : F64} {lo hi : Int} (hn : isNaN v = false)
    (h1 : isFinite (toF lo) = true ∧ scaled (toF lo) = lo * unitScale)
    (h2 : isFinite (toF (hi + 1)) = true ∧ scaled (toF (hi + 1)) = (hi + 1) * unitScale)
    (hlo : -(2 ^ 63) ≤ lo) (hhi : hi < 2 ^ 63) : ∃ r, digitClamp v lo hi = .ok r := by
  unfold digitClamp
  rw [hn, if_neg Bool.false_ne_true]
  split
  · exact ⟨_, rfl⟩
  rename_i hnlo
  split
  · exact ⟨_, rfl⟩
  rename_i hnhi
  have hf := isFinite_of_between hn h1.1 h2.1 hnlo hnhi
  have hu : (0 : Int) < (unitScale : Int) := by
    exact_mod_cast (by unfold unitScale; positivity : 0 < unitScale)
  have a : lo * unitScale ≤ scaled v := by
    rw [← h1.2, ← not_lt, ← orderKey_lt_iff v _ hf h1.1]
    simpa [flt, hn, isNaN_of_isFinite _ h1.1] using hnlo
  have b : scaled v < (hi + 1) * unitScale := by
    rw [← h2.2, ← orderKey_lt_iff v _ hf h2.1, ← not_le]
    simpa [fge, fle, hn, isNaN_of_isFinite _ h2.1] using hnhi
  have c : lo ≤ scaled v / unitScale := (Int.le_ediv_iff_mul_le hu).mpr a
  have d : scaled v / unitScale < hi + 1 := (Int.ediv_lt_iff_lt_mul hu).mpr b
  have hfits : fitsInt (scaled v / unitScale) = true := by
    simp only [fitsInt, Bool.and_eq_true, decide_eq_true_eq]
    omega
  exact ⟨_, (floorOrRaise_eq_ok_iff _ _).mpr (by rw [floorI, hf, hfits]; rfl)⟩

theorem exists_digitSample (size : Nat) {x : F64} (hx : isNaN x = false) : ∃ r, digitSample size x = .ok r := by
  obtain ⟨b0, b1, b2, b3⟩ := toF_bounds
  have finite : isFinite lit1 = true ∧ isFinite lit128 = true ∧ isFinite lit32768 = true := by decide +kernel
  have nonzero : magnitude lit128 ≠ 0 ∧ magnitude lit32768 ≠ 0 := by decide +kernel
  unfold digitSample
  split
  · exact exists_digitClamp (isNaN_fmul (isNaN_fadd hx finite.1) finite.2.1 nonzero.1) b0 b1 (by norm_num) (by norm_num)
  · exact exists_digitClamp (isNaN_fmul hx finite.2.2 nonzero.2) b2 b3 (by norm_num) (by norm_num)

theorem exists_digitRun (size : Nat) {l : List F64} (h : ∀ x ∈ l, isNaN x = false) : ∃ q, digitRun size l = .ok q := by
  induction l with
  | nil => exact ⟨[], rfl⟩
  | cons x xs ih =>
    rw [List.forall_mem_cons] at h
    obtain ⟨v, hv⟩ := exists_digitSample size h.1
    obtain ⟨q, hq⟩ := ih h.2
    exact ⟨v :: q, by simp only [digitRun, hv, hq]⟩

/-! The other stages that can fault. -/

theorem exists_quantRun {l : List F64} (h : ∀ x ∈ l, (truncI x).isSome = true) : ∃ q, quantRun l = .ok q := by
  induction l with
  | nil => exact ⟨[], rfl⟩
  | cons x xs ih =>
    rw [List.forall_mem_cons] at h
    obtain ⟨i, hi⟩ := Option.isSome_iff_exists.mp h.1
    obtain ⟨q, hq⟩ := ih h.2
    exact ⟨max Config.minPeriod i :: q, by simp only [quantRun, (truncOrRaise_eq_ok_iff x i).mpr hi, hq]⟩

theorem exists_phaserOffset {f : F64} (h : (truncI f).isSome = true) : ∃ k, phaserOffset f = .ok k := by
  obtain ⟨i, hi⟩ := Option.isSome_iff_exists.mp h
  unfold phaserOffset
  rw [(truncOrRaise_eq_ok_iff f i).mpr hi]
  dsimp only
  split <;> exact ⟨_, rfl⟩

theorem phaserStep_eq_ok {r : PhaserRegs} {x : F64} {k : Nat} (h : phaserOffset (fadd r.fphase r.fdphase) = .ok k) :
    ∃ r' y, phaserStep r x = .ok (r', y) ∧ r'.fphase = fadd r.fphase r.fdphase ∧ r'.fdphase = r.fdphase := by
  simp only [phaserStep, h]
  exact ⟨_, _, rfl, rfl, rfl⟩

/-- The accumulator at element `u` is the start value advanced `u + 1` times (R290). -/
theorem phaserPhase_succ (c : Config.Choices) (ps : ParamSet) (u : Nat) :
    phaserPhase c ps (u + 1) = fadd (phaserPhase c ps u) (c.phaFdphase ps.phaRamp) := rfl

/-- PHASER from element `u` on, the accumulator being the one after the elements before (R290). -/
theorem exists_phaserRun (c : Config.Choices) (ps : ParamSet) (l : List F64) {u : Nat} {r : PhaserRegs}
    (hd : r.fdphase = c.phaFdphase ps.phaRamp) (hp : fadd r.fphase r.fdphase = phaserPhase c ps u)
    (h : ∀ k < l.length, (truncI (phaserPhase c ps (u + k))).isSome = true) : ∃ ys, phaserRun r l = .ok ys := by
  induction l generalizing u r with
  | nil => exact ⟨[], rfl⟩
  | cons x xs ih =>
    obtain ⟨k, hk⟩ := exists_phaserOffset (hp ▸ h 0 (Nat.zero_lt_succ _))
    obtain ⟨r', y, hstep, hfphase, hfdphase⟩ := phaserStep_eq_ok (x := x) hk
    have hnext : fadd r'.fphase r'.fdphase = phaserPhase c ps (u + 1) := by
      rw [phaserPhase_succ, ← hp, hfphase, hfdphase, ← hd]
    obtain ⟨ys, hys⟩ := ih (hfdphase.trans hd) hnext fun k hk => by
      have := h (k + 1) (Nat.succ_lt_succ hk)
      rwa [show u + 1 + k = u + (k + 1) by omega]
    exact ⟨y :: ys, by simp only [phaserRun, hstep, hys]⟩

theorem exists_freqStage {s : State} (h : freqReady s = true) (nan : Nat → F64) :
    ∃ b, freqStage s.maxLen nan s.ps = .ok b := by
  unfold freqReady at h
  split at h
  · rename_i la ls ld hlens
    simp only [Bool.and_eq_true, decide_eq_true_eq] at h
    obtain ⟨rep, hrep⟩ := (exists_repeatPeriod_iff s.ps).mpr h.2
    exact ⟨_, (freqStage_eq_ok_iff ..).mpr ⟨la, ls, ld, rep, hlens, h.1, hrep, rfl⟩⟩
  · cases h

theorem exists_arpStage {s : State} (h : arpReady s = true) (nan : Nat → F64) :
    ∃ b, arpStage nan s.ps s.buf = .ok b := by
  unfold arpStage
  split
  · exact ⟨_, rfl⟩
  rename_i hmod
  simp only [arpReady, hmod, Bool.false_or] at h
  obtain ⟨a, ha⟩ := Option.isSome_iff_exists.mp h
  have ha' : floorOrRaise (fadd (fmul (sq (fsub lit1 s.ps.arpSpeed)) lit20000) lit32) = .ok a :=
    (floorOrRaise_eq_ok_iff _ a).mpr ha
  rw [arpInit, ha']
  dsimp only
  split <;> exact ⟨_, rfl⟩

theorem exists_envStage {s : State} (h : envReady s = true) (c : Config.Choices) (nan : Nat → F64) :
    ∃ b, envStage c nan s.ps s.buf = .ok b := by
  unfold envReady at h
  split at h
  · rename_i la ls ld hlens
    exact ⟨_, (envStage_eq_ok_iff ..).mpr ⟨la, ls, ld, hlens, of_decide_eq_true h, rfl⟩⟩
  · cases h

theorem exists_waveShape {code : Nat} (h : code ≤ 5) : ∃ shape, waveShape code = some shape := by
  interval_cases code <;> exact ⟨_, rfl⟩

/-! STEP. -/

/-- Only at a stage's code is there a stage to be ready. -/
theorem exists_stage_of_ready {s : State} (h : stageReady s = true) : ∃ g : Stage, g.code = s.sp := by
  have hn : 1 ≤ s.sp.toNat ∧ s.sp.toNat ≤ 11 := by
    by_contra hn
    unfold stageReady at h
    split at h
    case h_12 => cases h
    all_goals omega
  exact Stage.exists_code hn.1 hn.2

theorem exists_atPos {pos : Nat} {r : Except StageFault Buf} (h : ∃ b, r = .ok b) :
    ∃ b pos', atPos pos r = .ok (b, pos') := by
  obtain ⟨b, rfl⟩ := h
  exact ⟨b, pos, rfl⟩

/-- A stage that has what its rule needs completes. -/
theorem Stage.exists_result {g : Stage} {s : State} (hsp : g.code = s.sp) (h : stageReady s = true) :
    ∃ b pos, g.result s = .ok (b, pos) := by
  unfold stageReady at h
  rw [← hsp] at h
  cases g with
  | freq => exact exists_atPos (exists_freqStage h _)
  | arp => exact exists_atPos (exists_arpStage h _)
  | vib =>
    refine exists_atPos ?_
    unfold vibStage
    split <;> exact ⟨_, rfl⟩
  | quant =>
    obtain ⟨q, hq⟩ := exists_quantRun (List.all_eq_true.mp h)
    exact exists_atPos ⟨_, by rw [quantStage, hq]⟩
  | super => exact ⟨_, _, rfl⟩
  | osc =>
    obtain ⟨shape, hshape⟩ := exists_waveShape (of_decide_eq_true h)
    simp only [Stage.result, oscStage, hshape]
    exact ⟨_, _, rfl⟩
  | filt => exact ⟨_, _, rfl⟩
  | phaser =>
    obtain ⟨ys, hys⟩ := exists_phaserRun Config.choices s.ps (realElems s.buf) (u := 0)
      (r := phaserInit Config.choices s.ps) rfl rfl fun k hk => by
        rw [Nat.zero_add]
        exact List.all_eq_true.mp h k (List.mem_range.mpr hk)
    exact exists_atPos ⟨_, by rw [phaserStage, hys]⟩
  | compress => exact ⟨_, _, rfl⟩
  | env => exact exists_atPos (exists_envStage h _ _)
  | digit =>
    obtain ⟨q, hq⟩ := exists_digitRun s.ps.sampleSize (l := realElems s.buf) fun x hx => by
      simpa using List.all_eq_true.mp h x hx
    exact exists_atPos ⟨_, by rw [digitStage, hq]⟩

/-- Settles O19. -/
theorem stepCompletes : Obligations.StepCompletes := by
  intro s hf h
  obtain ⟨g, hg⟩ := exists_stage_of_ready h
  obtain ⟨b, pos, hr⟩ := Stage.exists_result hg h
  refine ⟨commit s (g.code + 1) (.ok (b, pos)), ?_, by rw [commit_ok_sp, hg], hf, commit_frame .., ?_⟩
  · rw [exec_step_at hf hg.symm, exec_stage g s hf, hr]
  · intro hquiet
    refine (g.result_pos hr).resolve_right fun ⟨hosc, hwave⟩ => ?_
    rw [← hg, ne_eq, g.code_eq_six_iff] at hquiet
    exact hquiet.elim (· hosc) (· hwave)

end Sys2Proof.Proofs
end

section
/-! PROOFS. The element memory as the host sees it: what a read of the buffer window answers for each kind of buffer, and how the elements of a PCM buffer become bytes. -/

namespace Sys2Proof.Proofs

open Machine Safety Laws

/-! The window into the buffer (R65). -/

theorem bufWindow_eq_none_iff (buf : Buf) (size i : Nat) :
    bufWindow buf size i = none ↔ buf = .none ∨ bufLen buf ≤ i := by
  cases buf <;> simp [bufWindow, bufLen]

/-- Zero extension keeps every sample of an 8-bit run. -/
theorem toNat_pcmWord_eight {x : Int} (h0 : 0 ≤ x) (h1 : x ≤ 255) : ((pcmWord 8 x).toNat : Int) = x := by
  simp only [pcmWord, if_true, BitVec.toNat_setWidth, BitVec.toNat_ofInt]
  omega

/-- Sign extension keeps every sample of a 16-bit run. -/
theorem toInt_pcmWord_sixteen {x : Int} (h0 : -32768 ≤ x) (h1 : x ≤ 32767) : (pcmWord 16 x).toInt = x := by
  rw [pcmWord, if_neg (by decide), BitVec.toInt_signExtend_of_le (by decide)]
  exact BitVec.toInt_ofInt_eq_self (by decide) h0 (by omega)

/-! Reads, by what the register gives (R360). -/

section

variable {s : State} {addr : RegAddr} {r : HostReg} {w : Word}

theorem exec_rd_of_value (hr : hostReg addr = r) (hv : readValue s r = (w, false)) :
    exec (.rd addr) s = .next { s with answer := some w, freeReads := readCount s r } := by
  simp only [exec, execRd, hr, hv, Bool.false_eq_true, if_false]

theorem exec_rd_of_raise (hr : hostReg addr = r) (hv : readValue s r = (w, true)) :
    exec (.rd addr) s =
      .next (raiseFault { s with answer := some w, freeReads := readCount s r } .badRegisterAccess addr) := by
  simp only [exec, execRd, hr, hv, if_true]

end

/-! RD of `BUFDATA` and WR of `BUFIDX`, when no fault is latched. -/

theorem hostReg_bufidx : hostReg 0x26 = .bufidx := by decide

theorem hostReg_bufdata : hostReg 0x27 = .bufdata := by decide

theorem exec_rd_bufdata_of_some {s : State} {v : Word} (hf : s.flt = none)
    (h : bufWindow s.buf s.ps.sampleSize s.bufIdx.toNat = some v) :
    exec (.rd 0x27) s = .next { s with answer := some v } :=
  exec_rd_of_value hostReg_bufdata (by simp [readValue, hf, h])

theorem exec_rd_bufdata_of_none {s : State} (hf : s.flt = none)
    (h : bufWindow s.buf s.ps.sampleSize s.bufIdx.toNat = none) :
    exec (.rd 0x27) s = .next (raiseFault { s with answer := some 0 } .badRegisterAccess 0x27) :=
  exec_rd_of_raise hostReg_bufdata (by simp [readValue, hf, h])

theorem exec_wr_bufidx {s : State} (data : Word) (hf : s.flt = none) :
    exec (.wr 0x26 data) s = .next { s with bufIdx := data } := by
  simp only [exec, execWr, writeRegister, hostReg_bufidx, hf, Option.isSome_none, Bool.false_eq_true, if_false]

/-- A read of the window, whichever way it ends: the element's word, or the fault and the word 0; and repeating a read
that did not fault gives the same state. -/
theorem exec_rd_bufdata {s : State} (hf : s.flt = none) :
    ∃ (t : State) (w : Word), exec (.rd 0x27) s = .next t ∧ t = { s with answer := some w, flt := t.flt } ∧
      (bufWindow s.buf s.ps.sampleSize s.bufIdx.toNat = none → t.flt = some ⟨.badRegisterAccess, s.sp, 0x27⟩ ∧ w = 0) ∧
      (∀ v, bufWindow s.buf s.ps.sampleSize s.bufIdx.toNat = some v → t.flt = none ∧ w = v) ∧
      (t.flt = none → exec (.rd 0x27) t = .next t) := by
  cases h : bufWindow s.buf s.ps.sampleSize s.bufIdx.toNat with
  | none =>
    exact ⟨_, 0, exec_rd_bufdata_of_none hf h, rfl, fun _ => ⟨rfl, rfl⟩, nofun, nofun⟩
  | some v =>
    refine ⟨_, v, exec_rd_bufdata_of_some hf h, rfl, nofun, ?_, fun ht => exec_rd_bufdata_of_some ht h⟩
    rintro _ ⟨⟩
    exact ⟨hf, rfl⟩

/-- Settles O10. -/
theorem bufferWindow : Obligations.BufferWindow := by
  refine ⟨fun s hf => ?_, fun s data hf => exec_wr_bufidx data hf⟩
  obtain ⟨t, w, hexec, hframe, hnone, hsome, hrepeat⟩ := exec_rd_bufdata hf
  refine ⟨t, w, hexec, hframe, fun h => hnone ((bufWindow_eq_none_iff ..).mpr h), ?real, ?itrack, ?pcm8, ?pcm16, hrepeat⟩
  case real =>
    rintro l x (hb | hb) hx <;> exact hsome x (by rw [hb, bufWindow, hx])
  case itrack =>
    intro l x hb hx
    obtain ⟨ht, rfl⟩ := hsome (BitVec.ofInt 64 x) (by rw [hb, bufWindow, hx, Option.map_some])
    exact ⟨ht, fun hlo hhi => BitVec.toInt_ofInt_eq_self (by decide) hlo hhi⟩
  case pcm8 =>
    intro l x hb hx hsize
    obtain ⟨ht, rfl⟩ := hsome (pcmWord 8 x) (by rw [hb, bufWindow, hx, hsize, Option.map_some])
    exact ⟨ht, toNat_pcmWord_eight⟩
  case pcm16 =>
    intro l x hb hx hsize
    obtain ⟨ht, rfl⟩ := hsome (pcmWord 16 x) (by rw [hb, bufWindow, hx, hsize, Option.map_some])
    exact ⟨ht, toInt_pcmWord_sixteen⟩

/-! PCM elements as bytes (R62, R66). -/

theorem sampleBytes_eight (v : Int) : sampleBytes 8 v = [BitVec.ofInt 8 v] := rfl

theorem sampleBytes_sixteen (v : Int) : sampleBytes 16 v = [BitVec.ofInt 8 v, BitVec.ofInt 8 (v / 256)] := rfl

theorem sampleBytes_length {size : Nat} (hsize : size = 8 ∨ size = 16) (v : Int) :
    (sampleBytes size v).length = size / 8 := by
  rcases hsize with rfl | rfl <;> rfl

theorem pcmBytes_of_pcm {s : State} {l : List Int} (h : s.buf = .pcm l) :
    pcmBytes s = l.flatMap (sampleBytes s.ps.sampleSize) := by
  rw [pcmBytes, h]

theorem pcmDataLen_of_pcm {s : State} {l : List Int} (h : s.buf = .pcm l) :
    pcmDataLen s = l.length * s.ps.sampleSize / 8 := by
  rw [pcmDataLen, h, bufLen]

/-- Settles O60. -/
theorem pcmBytes : Obligations.PcmBytes := by
  refine ⟨fun v => ?sixteen, fun v h0 h1 => ?eight, fun s l hb hsize => ?length⟩
  case sixteen => simp [sampleBytes_sixteen]
  case eight =>
    have hmod : v % 256 = v := Int.emod_eq_of_lt h0 (by omega)
    simp [sampleBytes_eight, hmod]
  case length =>
    have hbytes : (l.map fun v => (sampleBytes s.ps.sampleSize v).length).sum = l.length * (s.ps.sampleSize / 8) := by
      simp [sampleBytes_length hsize]
    have hdvd : 8 ∣ s.ps.sampleSize := by rcases hsize with h | h <;> simp [h]
    rw [pcmBytes_of_pcm hb, pcmDataLen_of_pcm hb, List.length_flatMap, hbytes, Nat.mul_div_assoc _ hdvd]

end Sys2Proof.Proofs
end

section
/-! PROOFS. Words and instructions: the fields of an assembled transaction, what the decoder answers for each format, and the two directions of the round trip between them (R90 to R93, R101). -/

namespace Sys2Proof.Proofs

open Safety

/-! The fields of a transaction (R90). -/

section
variable (w : Bool) (addr : RegAddr) (data : Word)

@[simp] theorem hostW_hostWord : hostW (hostWord w addr data) = w := by
  rw [hostW, hostWord, BitVec.getLsbD_append, BitVec.getLsbD_append]
  simp

@[simp] theorem hostAddr_hostWord : hostAddr (hostWord w addr data) = addr :=
  (BitVec.extractLsb'_append_eq_of_le (le_refl 64)).trans BitVec.extractLsb'_append_eq_right

@[simp] theorem hostData_hostWord : hostData (hostWord w addr data) = data :=
  BitVec.extractLsb'_append_eq_right

end

/-- A transaction is its three fields, put together again. -/
theorem hostWord_of_fields (t : HostWord) : hostWord (hostW t) (hostAddr t) (hostData t) = t := by
  have hw : BitVec.ofBool (hostW t) = t.extractLsb' 72 1 := by
    ext i hi
    obtain rfl : i = 0 := by omega
    simp [hostW]
  rw [hostWord, hw, hostAddr, hostData,
    BitVec.extractLsb'_append_extractLsb'_eq_extractLsb' (by rfl : 72 = 64 + 8),
    BitVec.extractLsb'_append_extractLsb'_eq_extractLsb' (by rfl : 64 = 0 + 64)]
  exact BitVec.extractLsb'_eq_self

/-- The data, read as `data[63:8]` and the opcode's byte `data[7:0]` (R93). -/
theorem hostData_toNat (t : HostWord) :
    (hostData t).toNat = 2 ^ 8 * (t.extractLsb' 8 56).toNat + (t.extractLsb' 0 8).toNat := by
  simp only [hostData, BitVec.extractLsb'_toNat, Nat.shiftRight_eq_div_pow]
  omega

/-! Commands (R93). -/

theorem eq_opcode {data : Word} (h : data.toNat ≤ 5) :
    data = 0 ∨ data = 1 ∨ data = 2 ∨ data = 3 ∨ data = 4 ∨ data = 5 := by
  bv_omega

theorem decodeCommand_of_opcode {data : Word} (h : data.toNat ≤ 5) :
    [Instr.nop, .reset, .loaddef, .arm, .step, .run][data.toNat]? = some (decodeCommand data) := by
  rcases eq_opcode h with rfl | rfl | rfl | rfl | rfl | rfl <;> rfl

/-- An illegal command stays the WR it is (R101). -/
theorem decodeCommand_of_illegal {data : Word} (h : 5 < data.toNat) : decodeCommand data = .wr 0x20#8 data := by
  unfold decodeCommand
  split
  case h_7 => rfl
  all_goals omega

theorem wellFormed_wr_iff (addr : RegAddr) (data : Word) :
    (Instr.wr addr data).wellFormed = true ↔ (addr = 0x20#8 → 5 < data.toNat) := by
  simp [Instr.wellFormed, isCommandData, imp_iff_not_or]

theorem decodeCommand_wellFormed (data : Word) : (decodeCommand data).wellFormed = true := by
  by_cases h : data.toNat ≤ 5
  · rcases eq_opcode h with rfl | rfl | rfl | rfl | rfl | rfl <;> rfl
  · rw [decodeCommand_of_illegal (by omega), wellFormed_wr_iff]
    omega

theorem encode_decodeCommand (data : Word) : encode (decodeCommand data) = .host (hostWord true 0x20#8 data) := by
  by_cases h : data.toNat ≤ 5
  · rcases eq_opcode h with rfl | rfl | rfl | rfl | rfl | rfl <;> rfl
  · rw [decodeCommand_of_illegal (by omega), encode]

/-- The data are an opcode's exactly where `data[63:8]` is 0 and `data[7:0]` is at most 5 (R93, R101). -/
theorem hostData_le_five_iff (t : HostWord) :
    (hostData t).toNat ≤ 5 ↔ t.extractLsb' 8 56 = 0#56 ∧ (t.extractLsb' 0 8).toNat ≤ 5 := by
  rw [← BitVec.toNat_inj, hostData_toNat, BitVec.toNat_zero]
  omega

/-! Transactions by format (R101). -/

theorem decodeHost_of_read {t : HostWord} (hw : hostW t = false) : decodeHost t = .rd (hostAddr t) := by
  rw [decodeHost, hw]; rfl

theorem decodeHost_of_write {t : HostWord} (hw : hostW t = true) (ha : hostAddr t ≠ 0x20#8) :
    decodeHost t = .wr (hostAddr t) (hostData t) := by
  rw [decodeHost, if_pos hw, if_neg ha]

theorem decodeHost_of_cmd {t : HostWord} (hw : hostW t = true) (ha : hostAddr t = 0x20#8) :
    decodeHost t = decodeCommand (hostData t) := by
  rw [decodeHost, if_pos hw, if_pos ha]

theorem decodeHost_wr {addr : RegAddr} {data : Word} (h : addr = 0x20#8 → 5 < data.toNat) :
    decodeHost (hostWord true addr data) = .wr addr data := by
  by_cases ha : addr = 0x20#8
  · subst ha
    rw [decodeHost_of_cmd (by simp) (by simp), hostData_hostWord, decodeCommand_of_illegal (h rfl)]
  · rw [decodeHost_of_write (by simp) (by simpa using ha), hostAddr_hostWord, hostData_hostWord]

/-! Stage operation words (R92). -/

theorem encode_stage (g : Stage) : encode g.instr = .stage g.code := by
  cases g <;> rfl

theorem stageOps_at_code (g : Stage) : stageOps[g.code.toNat - 1]? = some g.instr := by
  cases g <;> rfl

theorem decodeStage_of_no_stage {u : StageCode} (h : u.toNat = 0 ∨ 12 ≤ u.toNat) :
    decodeStage u = .error (.notAnOperation u) := by
  unfold decodeStage
  split
  case h_12 => rfl
  all_goals omega

/-! The statements. -/

/-- Settles O1, by the instruction: RD and WR have operands, every other instruction is one fixed word (R92, R93). -/
theorem decodeEncodeRoundTrip : Obligations.DecodeEncodeRoundTrip := by
  intro i hi
  cases i
  case rd addr => rw [encode, decode, decodeHost_of_read (by simp), hostAddr_hostWord]
  case wr addr data => rw [encode, decode, decodeHost_wr ((wellFormed_wr_iff addr data).mp hi)]
  all_goals rfl

/-- Settles O2, by the format of the word: a read, a write to `CMD`, any other write, a stage operation. -/
theorem encodeDecodeWord : Obligations.EncodeDecodeWord := by
  refine ⟨fun t => ?transaction, fun u i h => ?stage⟩
  case transaction =>
    change (decodeHost t).wellFormed = true ∧
      encode (decodeHost t) = .host (if hostW t then t else hostWord false (hostAddr t) 0)
    cases hw : hostW t with
    | false =>
      rw [decodeHost_of_read hw]
      exact ⟨rfl, rfl⟩
    | true =>
      have ht : hostWord true (hostAddr t) (hostData t) = t := hw ▸ hostWord_of_fields t
      rw [if_pos rfl]
      by_cases ha : hostAddr t = 0x20#8
      · rw [decodeHost_of_cmd hw ha]
        exact ⟨decodeCommand_wellFormed _, by rw [encode_decodeCommand, ← ha, ht]⟩
      · rw [decodeHost_of_write hw ha]
        exact ⟨(wellFormed_wr_iff _ _).mpr fun h => absurd h ha, by rw [encode, ht]⟩
  case stage =>
    obtain ⟨g, rfl, rfl⟩ := exists_stage_of_decode h
    exact encode_stage g

/-- Settles O3. -/
theorem decodesByFormat : Obligations.DecodesByFormat := by
  refine ⟨fun t hw => ?read, fun t hw ha => ?write, fun t hw ha hhigh hlow => ?command, fun t hw ha hill => ?illegal,
    fun u h1 h2 => ?stage, fun u h => decodeStage_of_no_stage h⟩
  case read => exact congrArg Except.ok (decodeHost_of_read hw)
  case write => exact congrArg Except.ok (decodeHost_of_write hw ha)
  case command =>
    have hop : (hostData t).toNat ≤ 5 := (hostData_le_five_iff t).mpr ⟨hhigh, hlow⟩
    have hnat : (t.extractLsb' 0 8).toNat = (hostData t).toNat := by simp [hostData_toNat, hhigh]
    rw [decodeHost_of_cmd hw ha, hnat]
    exact decodeCommand_of_opcode hop
  case illegal =>
    have hop : 5 < (hostData t).toNat := by
      rw [← not_le, hostData_le_five_iff, not_and_or, not_le]
      exact hill
    exact congrArg Except.ok ((decodeHost_of_cmd hw ha).trans (decodeCommand_of_illegal hop))
  case stage =>
    obtain ⟨g, rfl⟩ := Stage.exists_code h1 h2
    exact ⟨g.instr, decode_programWord g, stageOps_at_code g⟩

/-- Settles O4. -/
theorem decodeSpecWords : Obligations.DecodeSpecWords := by
  unfold Obligations.DecodeSpecWords
  decide

end Sys2Proof.Proofs
end

section
/-! PROOFS. Binary64 data as sign and pattern: which patterns are finite, infinite or NaN, what negation and the absolute value do to them, and the order of the data (R120, R126, R127). -/

namespace Sys2Proof.Proofs

open Machine Safety Laws

/-! The kinds of data, by the pattern without sign. -/

theorem isNaN_iff (x : F64) : isNaN x = true ↔ 2047 * 2 ^ 52 < x.toNat % 2 ^ 63 := by
  simp only [isNaN, expField, fracField, Bool.and_eq_true, beq_iff_eq, bne_iff_ne]
  omega

theorem isInf_iff (x : F64) : isInf x = true ↔ x.toNat % 2 ^ 63 = 2047 * 2 ^ 52 := by
  simp only [isInf, expField, fracField, Bool.and_eq_true, beq_iff_eq]
  omega

/-- A datum is its sign and its pattern. -/
theorem withSign_signBit (x : F64) : withSign (signBit x) (x.toNat % 2 ^ 63) = x := by
  have hx := x.isLt
  apply BitVec.eq_of_toNat_eq
  rw [withSign_toNat _ _ (Nat.mod_lt _ (by norm_num)), signBit_eq]
  by_cases h : 2 ^ 63 ≤ x.toNat
  · rw [if_pos (decide_eq_true h)]; omega
  · rw [if_neg (by simpa using h)]; omega

theorem withSign_toNat_mod (neg : Bool) (p : Nat) (h : p < 2 ^ 63) : (withSign neg p).toNat % 2 ^ 63 = p := by
  rw [withSign_toNat neg p h]
  cases neg
  · exact Nat.mod_eq_of_lt h
  · rw [if_pos rfl, Nat.add_mod_left, Nat.mod_eq_of_lt h]

@[simp] theorem signBit_infinity (a : Bool) : signBit (infinity a) = a := signBit_withSign a _ (by norm_num)

@[simp] theorem isInf_infinity (a : Bool) : isInf (infinity a) = true :=
  (isInf_iff _).mpr (withSign_toNat_mod a _ (by norm_num))

@[simp] theorem isFinite_infinity (a : Bool) : isFinite (infinity a) = false := by
  cases a <;> rfl

theorem eq_infinity_of_isInf {x : F64} (h : isInf x = true) : x = infinity (signBit x) := by
  rw [infinity, ← (isInf_iff x).mp h, withSign_signBit]

/-- Every datum is finite, a NaN or an infinity (R120). -/
theorem isFinite_or_isNaN_or_isInf (x : F64) : isFinite x = true ∨ isNaN x = true ∨ isInf x = true := by
  rw [isFinite_iff, isNaN_iff, isInf_iff]
  omega

/-! Values of finite data. -/

theorem scaled_eq_zero_iff (x : F64) : scaled x = 0 ↔ magnitude x = 0 := by
  unfold scaled
  split <;> simp

theorem ratValue_lt_iff (x y : F64) : ratValue x < ratValue y ↔ scaled x < scaled y := by
  rw [ratValue, ratValue, div_lt_div_iff_of_pos_right (by positivity), Int.cast_lt]

theorem ratValue_le_iff (x y : F64) : ratValue x ≤ ratValue y ↔ scaled x ≤ scaled y := by
  rw [← not_lt, ratValue_lt_iff, not_lt]

theorem ratValue_inj_iff (x y : F64) : ratValue x = ratValue y ↔ scaled x = scaled y := by
  rw [le_antisymm_iff, ratValue_le_iff, ratValue_le_iff, ← le_antisymm_iff]

theorem ratValue_eq_zero_iff (x : F64) : ratValue x = 0 ↔ magnitude x = 0 := by
  rw [ratValue, div_eq_zero_iff, or_iff_left (by positivity), Int.cast_eq_zero, scaled_eq_zero_iff]

/-! Comparisons, by order keys (R127). -/

section
variable {x y : F64} (hx : isNaN x = false) (hy : isNaN y = false)
include hx hy

theorem flt_iff : flt x y = true ↔ orderKey x < orderKey y := by simp [flt, hx, hy]

theorem fle_iff : fle x y = true ↔ orderKey x ≤ orderKey y := by simp [fle, hx, hy]

theorem feq_iff : feq x y = true ↔ orderKey x = orderKey y := by simp [feq, hx, hy]

end

theorem not_isNaN_of_fle {x y : F64} (h : fle x y = true) : isNaN x = false ∧ isNaN y = false := by
  simp only [fle, Bool.and_eq_true, Bool.not_eq_true'] at h
  exact h.1

/-- On finite data the comparisons compare the values (R127). -/
theorem compare_finite {x y : F64} (hx : isFinite x = true) (hy : isFinite y = true) :
    (flt x y = true ↔ ratValue x < ratValue y) ∧ (fle x y = true ↔ ratValue x ≤ ratValue y) ∧
      (feq x y = true ↔ ratValue x = ratValue y) := by
  have hnx := isNaN_of_isFinite x hx
  have hny := isNaN_of_isFinite y hy
  have lt := orderKey_lt_iff x y hx hy
  have gt := orderKey_lt_iff y x hy hx
  rw [flt_iff hnx hny, fle_iff hnx hny, feq_iff hnx hny, ratValue_lt_iff, ratValue_le_iff, ratValue_inj_iff]
  omega

theorem orderKey_infinity (a : Bool) : orderKey (infinity a) = if a then -(2047 * 2 ^ 52) else 2047 * 2 ^ 52 := by
  cases a <;> rfl

/-- An infinity is beyond every finite datum, on the side of its sign (R127). -/
theorem compare_infinity {x : F64} (a : Bool) (hx : isFinite x = true) :
    flt x (infinity a) = !a ∧ flt (infinity a) x = a ∧ fle x (infinity a) = !a ∧ fle (infinity a) x = a ∧
      feq x (infinity a) = false ∧ feq (infinity a) x = false := by
  obtain ⟨hlo, hhi⟩ := orderKey_of_isFinite hx
  simp only [flt, fle, feq, isNaN_of_isFinite x hx, isNaN_infinity, orderKey_infinity, Bool.not_false, Bool.true_and]
  cases a <;> simp <;> omega

theorem compare_infinities (a b : Bool) : flt (infinity a) (infinity b) = (a && !b) ∧
    fle (infinity a) (infinity b) = (a || !b) ∧ feq (infinity a) (infinity b) = (a == b) := by
  simp only [flt, fle, feq, isNaN_infinity, orderKey_infinity]
  cases a <;> cases b <;> decide

theorem compare_nan {x y : F64} (h : isNaN x = true ∨ isNaN y = true) :
    flt x y = false ∧ fgt x y = false ∧ fle x y = false ∧ fge x y = false ∧ feq x y = false ∧ fne x y = true := by
  rcases h with h | h <;> simp [flt, fgt, fle, fge, feq, fne, h]

/-! The absolute value and the clamp (R126). -/

theorem fabs_toNat (x : F64) : (fabs x).toNat = x.toNat % 2 ^ 63 := by
  rw [fabs, BitVec.toNat_and]
  exact Nat.and_two_pow_sub_one_eq_mod x.toNat 63

theorem isNaN_fabs (x : F64) : isNaN (fabs x) = isNaN x := by
  rw [Bool.eq_iff_iff, isNaN_iff, isNaN_iff, fabs_toNat, Nat.mod_mod]

theorem clamp_of_isNaN {x lo hi : F64} (h : isNaN x = true) : clamp x lo hi = x := by
  simp [clamp, fgt, flt, h]

/-- Negative zero is not below zero, so it passes a lower bound of 0 (R126). -/
theorem clamp_negative_zero {hi : F64} (h : fle lit0 hi = true) :
    clamp 0x8000000000000000 lit0 hi = 0x8000000000000000 := by
  obtain ⟨hn0, hnhi⟩ := not_isNaN_of_fle h
  have hnneg : isNaN (0x8000000000000000 : F64) = false := by decide
  have key0 : orderKey lit0 = 0 ∧ orderKey (0x8000000000000000 : F64) = 0 := by decide
  rw [fle_iff hn0 hnhi, key0.1] at h
  rw [clamp, fgt, if_neg (by rw [flt_iff hnneg hn0]; omega), if_neg (by rw [flt_iff hnhi hnneg]; omega)]

/-- The clamp by order keys: the bound that the operand is beyond, or the operand (R126). -/
theorem clamp_spec {x lo hi : F64} (hx : isNaN x = false) (h : fle lo hi = true) :
    (flt x lo = true → clamp x lo hi = lo) ∧ (flt hi x = true → clamp x lo hi = hi) ∧
      fle lo (clamp x lo hi) = true ∧ fle (clamp x lo hi) hi = true ∧
      (fle lo x = true → fle x hi = true → clamp x lo hi = x) := by
  obtain ⟨hlo, hhi⟩ := not_isNaN_of_fle h
  have hle := (fle_iff hlo hhi).mp h
  rw [flt_iff hx hlo, flt_iff hhi hx, fle_iff hlo hx, fle_iff hx hhi]
  unfold clamp fgt
  by_cases below : flt x lo = true
  · rw [if_pos below]
    rw [flt_iff hx hlo] at below
    exact ⟨fun _ => rfl, fun _ => by omega, (fle_iff hlo hlo).mpr le_rfl, h, fun _ => by omega⟩
  rw [if_neg below]
  by_cases above : flt hi x = true
  · rw [if_pos above]
    rw [flt_iff hhi hx] at above
    exact ⟨fun hlt => absurd ((flt_iff hx hlo).mpr hlt) below, fun _ => rfl, h, (fle_iff hhi hhi).mpr le_rfl,
      fun _ _ => by omega⟩
  rw [if_neg above]
  rw [flt_iff hx hlo] at below
  rw [flt_iff hhi hx] at above
  exact ⟨fun hlt => absurd hlt below, fun hlt => absurd hlt above, (fle_iff hlo hx).mpr (not_lt.mp below),
    (fle_iff hx hhi).mpr (not_lt.mp above), fun _ _ => rfl⟩

/-- Settles O59. -/
theorem comparisonsAndClamp : Obligations.ComparisonsAndClamp := by
  refine ⟨fun x y => compare_finite, fun x => ?_, fun x a => compare_infinity a, compare_infinities,
    fun x y => ⟨rfl, rfl, rfl⟩, fun x => ⟨fabs_toNat x, isNaN_fabs x⟩, fun x y => compare_nan,
    fun x lo hi => clamp_of_isNaN, fun hi => clamp_negative_zero, fun x lo hi => clamp_spec⟩
  rcases isFinite_or_isNaN_or_isInf x with h | h | h
  · exact .inl h
  · exact .inr (.inl h)
  · rw [eq_infinity_of_isInf h]
    cases signBit x <;> simp

end Sys2Proof.Proofs
end

section
/-! PROOFS. The four operations round the exact result once: each case of their definitions, on finite data, infinities and NaNs, as correct rounding of the real result (R121). -/

namespace Sys2Proof.Proofs

open Machine Safety Laws

/-! Negation flips the sign and keeps the pattern. -/

theorem fneg_toNat_mod (x : F64) : (fneg x).toNat % 2 ^ 63 = x.toNat % 2 ^ 63 := by
  rw [fneg, BitVec.toNat_xor, ← Nat.and_two_pow_sub_one_eq_mod, ← Nat.and_two_pow_sub_one_eq_mod,
    Nat.and_xor_distrib_right]
  exact Nat.xor_zero _

@[simp] theorem signBit_fneg (x : F64) : signBit (fneg x) = !signBit x := by
  rw [signBit, fneg, BitVec.msb_xor]
  exact Bool.xor_true _

@[simp] theorem isNaN_fneg (x : F64) : isNaN (fneg x) = isNaN x := by
  rw [Bool.eq_iff_iff, isNaN_iff, isNaN_iff, fneg_toNat_mod]

@[simp] theorem isFinite_fneg (x : F64) : isFinite (fneg x) = isFinite x := by
  rw [Bool.eq_iff_iff, isFinite_iff, isFinite_iff, fneg_toNat_mod]

theorem fneg_infinity (a : Bool) : fneg (infinity a) = infinity !a := by
  cases a <;> rfl

@[simp] theorem ratValue_fneg (x : F64) : ratValue (fneg x) = -ratValue x := by
  rw [ratValue_eq, ratValue_eq, fneg_toNat_mod, signBit_fneg]
  cases signBit x <;> simp [neg_div]

/-! The value of a datum in the reals. -/

/-- The factor of a sign. -/
def signFactor (neg : Bool) : ℝ := if neg then -1 else 1

theorem signFactor_bne (a b : Bool) : signFactor (a != b) = signFactor a * signFactor b := by
  cases a <;> cases b <;> simp [signFactor]

theorem signFactor_div (a b : Bool) : signFactor (a != b) = signFactor a / signFactor b := by
  cases a <;> cases b <;> simp [signFactor]

theorem signFactor_mul_natAbs (s : Int) : signFactor (decide (s < 0)) * (s.natAbs : ℝ) = s := by
  rw [signFactor, Nat.cast_natAbs, Int.cast_abs]
  rcases lt_or_ge s 0 with hs | hs
  · have hneg : (s : ℝ) < 0 := by exact_mod_cast hs
    rw [if_pos (decide_eq_true hs), abs_of_neg hneg, neg_one_mul, neg_neg]
  · have hnonneg : (0 : ℝ) ≤ s := by exact_mod_cast hs
    rw [if_neg (by simpa using hs), abs_of_nonneg hnonneg, one_mul]

theorem scaled_cast (x : F64) : (scaled x : ℝ) = signFactor (signBit x) * magnitude x := by
  rw [scaled, signFactor]
  split <;> simp

theorem ratValue_cast (x : F64) : (ratValue x : ℝ) = (scaled x : ℝ) / 2 ^ 1074 := by
  rw [ratValue]
  push_cast
  rfl

theorem ratValue_cast_sign (x : F64) : (ratValue x : ℝ) = signFactor (signBit x) * (magnitude x / 2 ^ 1074) := by
  rw [ratValue_cast, scaled_cast, mul_div_assoc]

theorem unitScale_cast : (unitScale : ℝ) = 2 ^ 1074 := by
  rw [unitScale, Nat.cast_pow, Nat.cast_ofNat]

theorem unitScale_pos : 0 < unitScale := by
  unfold unitScale; positivity

/-- `roundTo_correct` with the sign as a factor. -/
theorem correctlyRounded_roundTo {neg : Bool} {num den : Nat} {r : ℝ} (hd : 0 < den)
    (h : r = signFactor neg * (num / den / 2 ^ 1074)) : CorrectlyRounded (roundTo neg num den) r := by
  have hr : r = (if neg then -((num : ℝ) / den) else (num : ℝ) / den) / 2 ^ 1074 := by
    rw [h, signFactor]
    cases neg <;> simp [neg_div]
  rw [hr]
  exact roundTo_correct neg num den hd

theorem roundTo_zero (neg : Bool) {den : Nat} (hd : 0 < den) : roundTo neg 0 den = zero neg := by
  have hshift : roundShift 0 den = 0 := by simp [roundShift]
  have hfloor : floorPattern 0 den = 0 := by simp [floorPattern, hshift]
  have hpat : roundPattern 0 den = 0 := by
    rw [roundPattern_eq, hshift, hfloor]
    simp [hd.ne]
  rw [roundTo, hpat, zero]

theorem correctlyRounded_zero (neg : Bool) : CorrectlyRounded (zero neg) 0 :=
  roundTo_zero neg one_pos ▸ correctlyRounded_roundTo one_pos (by simp)

theorem signBit_roundTo (neg : Bool) (num den : Nat) : signBit (roundTo neg num den) = neg :=
  signBit_withSign neg _ ((roundPattern_le num den).trans_lt (by norm_num))

/-! Finite operands. -/

section
variable {x y : F64} (hx : isFinite x = true) (hy : isFinite y = true)
include hx hy

theorem fadd_finite : fadd x y =
    if scaled x + scaled y = 0 then zero (signBit x && signBit y)
    else roundTo (decide (scaled x + scaled y < 0)) (scaled x + scaled y).natAbs 1 := by
  unfold fadd
  simp [isNaN_of_isFinite x hx, isNaN_of_isFinite y hy, isInf_of_isFinite hx, isInf_of_isFinite hy]

theorem fmul_finite : fmul x y = roundTo (signBit x != signBit y) (magnitude x * magnitude y) unitScale := by
  unfold fmul
  simp [isNaN_of_isFinite x hx, isNaN_of_isFinite y hy, isInf_of_isFinite hx, isInf_of_isFinite hy]

theorem fdiv_finite : fdiv x y =
    if magnitude y = 0 then (if magnitude x = 0 then internalNaN else infinity (signBit x != signBit y))
    else roundTo (signBit x != signBit y) (unitScale * magnitude x) (magnitude y) := by
  unfold fdiv
  simp [isNaN_of_isFinite x hx, isNaN_of_isFinite y hy, isInf_of_isFinite hx, isInf_of_isFinite hy]

theorem fadd_of_sum_zero (h : ratValue x + ratValue y = 0) : fadd x y = zero (signBit x && signBit y) := by
  rw [fadd_finite hx hy, if_pos]
  rw [ratValue, ratValue, ← add_div, div_eq_zero_iff, or_iff_left (by positivity)] at h
  exact_mod_cast h

/-- A sum is the exact sum rounded once (R121). -/
theorem fadd_correctlyRounded : CorrectlyRounded (fadd x y) ((ratValue x : ℝ) + ratValue y) := by
  have hsum : (ratValue x : ℝ) + ratValue y = ((scaled x + scaled y : Int) : ℝ) / 2 ^ 1074 := by
    rw [ratValue_cast, ratValue_cast, ← add_div, Int.cast_add]
  rw [fadd_finite hx hy, hsum]
  generalize scaled x + scaled y = s
  split
  next h =>
    rw [h, Int.cast_zero, zero_div]
    exact correctlyRounded_zero _
  next h =>
    refine correctlyRounded_roundTo one_pos ?_
    rw [Nat.cast_one, div_one, ← mul_div_assoc, signFactor_mul_natAbs]

/-- A difference is the sum with the negated operand, so it is rounded the same way (R121). -/
theorem fsub_correctlyRounded : CorrectlyRounded (fsub x y) ((ratValue x : ℝ) - ratValue y) := by
  have h := fadd_correctlyRounded hx ((isFinite_fneg y).trans hy)
  rwa [ratValue_fneg, Rat.cast_neg, ← sub_eq_add_neg] at h

theorem fsub_of_difference_zero (h : ratValue x - ratValue y = 0) : fsub x y = zero (signBit x && !signBit y) := by
  rw [fsub, fadd_of_sum_zero hx ((isFinite_fneg y).trans hy) (by rw [ratValue_fneg, ← sub_eq_add_neg, h]), signBit_fneg]

/-- A product is the exact product rounded once (R121). -/
theorem fmul_correctlyRounded : CorrectlyRounded (fmul x y) ((ratValue x : ℝ) * ratValue y) := by
  rw [fmul_finite hx hy]
  refine correctlyRounded_roundTo unitScale_pos ?_
  rw [ratValue_cast_sign, ratValue_cast_sign, signFactor_bne, unitScale_cast, Nat.cast_mul]
  generalize (2 : ℝ) ^ 1074 = u
  ring

/-- A quotient by a value other than zero is the exact quotient rounded once (R121). -/
theorem fdiv_correctlyRounded (h : ratValue y ≠ 0) : CorrectlyRounded (fdiv x y) ((ratValue x : ℝ) / ratValue y) := by
  rw [ne_eq, ratValue_eq_zero_iff] at h
  rw [fdiv_finite hx hy, if_neg h]
  refine correctlyRounded_roundTo (Nat.pos_of_ne_zero h) ?_
  have hy0 : (magnitude y : ℝ) ≠ 0 := by exact_mod_cast h
  have hu : (2 : ℝ) ^ 1074 ≠ 0 := by positivity
  rw [ratValue_cast_sign, ratValue_cast_sign, signFactor_div, Nat.cast_mul, unitScale_cast, mul_div_mul_comm]
  generalize (2 : ℝ) ^ 1074 = u at *
  congr 1
  field_simp

theorem signBit_fmul : signBit (fmul x y) = (signBit x != signBit y) := by
  rw [fmul_finite hx hy, signBit_roundTo]

theorem signBit_fdiv (h : ratValue y ≠ 0) : signBit (fdiv x y) = (signBit x != signBit y) := by
  rw [ne_eq, ratValue_eq_zero_iff] at h
  rw [fdiv_finite hx hy, if_neg h, signBit_roundTo]

theorem fdiv_zero (h : ratValue y = 0) :
    fdiv x y = if magnitude x = 0 then internalNaN else infinity (signBit x != signBit y) := by
  rw [fdiv_finite hx hy, if_pos ((ratValue_eq_zero_iff y).mp h)]

end

/-! NaNs and infinities. -/

theorem isNaN_internalNaN : isNaN internalNaN = true := by decide

/-- An operation on a NaN gives a NaN (R121). -/
theorem ops_of_isNaN {x y : F64} (h : isNaN x = true ∨ isNaN y = true) :
    fadd x y = internalNaN ∧ fsub x y = internalNaN ∧ fmul x y = internalNaN ∧ fdiv x y = internalNaN := by
  have hor : (isNaN x || isNaN y) = true := (Bool.or_eq_true ..).mpr h
  unfold fsub fadd fmul fdiv
  simp [hor]

theorem fadd_infinity_infinity (a b : Bool) :
    fadd (infinity a) (infinity b) = if a = b then infinity a else internalNaN := by
  unfold fadd
  cases a <;> cases b <;> simp [isNaN_infinity]

theorem fmul_infinity_infinity (a b : Bool) : fmul (infinity a) (infinity b) = infinity (a != b) := by
  unfold fmul
  simp [isNaN_infinity]

theorem fdiv_infinity_infinity (a b : Bool) : fdiv (infinity a) (infinity b) = internalNaN := by
  unfold fdiv
  simp [isNaN_infinity]

section
variable {x : F64} (hx : isFinite x = true) (a : Bool)
include hx

theorem fadd_finite_infinity : fadd x (infinity a) = infinity a := by
  unfold fadd
  simp [isNaN_of_isFinite x hx, isInf_of_isFinite hx, isNaN_infinity]

theorem fadd_infinity_finite : fadd (infinity a) x = infinity a := by
  unfold fadd
  simp [isNaN_of_isFinite x hx, isInf_of_isFinite hx, isNaN_infinity]

theorem fdiv_infinity_finite : fdiv (infinity a) x = infinity (a != signBit x) := by
  unfold fdiv
  simp [isNaN_of_isFinite x hx, isInf_of_isFinite hx, isNaN_infinity]

theorem fdiv_finite_infinity : fdiv x (infinity a) = zero (signBit x != a) := by
  unfold fdiv
  simp [isNaN_of_isFinite x hx, isInf_of_isFinite hx, isNaN_infinity]

theorem fmul_finite_infinity :
    fmul x (infinity a) = if magnitude x = 0 then internalNaN else infinity (signBit x != a) := by
  unfold fmul
  simp [isNaN_of_isFinite x hx, isInf_of_isFinite hx, isNaN_infinity, hx]

theorem fmul_infinity_finite :
    fmul (infinity a) x = if magnitude x = 0 then internalNaN else infinity (a != signBit x) := by
  unfold fmul
  simp [isNaN_of_isFinite x hx, isInf_of_isFinite hx, isNaN_infinity, hx]

end

/-- Settles O56. -/
theorem floatOpsRound : Obligations.FloatOpsRound := by
  refine ⟨fun x y hx hy => ?_, fun x y h => ?_, fun a b => ?_, fun x a hx => ?_⟩
  · refine ⟨fadd_correctlyRounded hx hy, fsub_correctlyRounded hx hy, fmul_correctlyRounded hx hy,
      fdiv_correctlyRounded hx hy, fadd_of_sum_zero hx hy, fsub_of_difference_zero hx hy, signBit_fmul hx hy,
      signBit_fdiv hx hy, ?_, ?_⟩
    · intro hxz hyz
      rw [fdiv_zero hx hy hyz, if_neg (mt (ratValue_eq_zero_iff x).mpr hxz)]
    · intro hxz hyz
      rw [fdiv_zero hx hy hyz, if_pos ((ratValue_eq_zero_iff x).mp hxz), isNaN_internalNaN]
  · obtain ⟨hadd, hsub, hmul, hdiv⟩ := ops_of_isNaN h
    rw [hadd, hsub, hmul, hdiv, isNaN_internalNaN]
    simp
  · simp [fsub, fneg_infinity, fadd_infinity_infinity, fmul_infinity_infinity, fdiv_infinity_infinity,
      isNaN_internalNaN]
  · refine ⟨fadd_finite_infinity hx a, fadd_infinity_finite hx a, ?_, ?_, fdiv_infinity_finite hx a,
      fdiv_finite_infinity hx a, fun h => ?_, fun h => ?_⟩
    · rw [fsub, fneg_infinity, fadd_finite_infinity hx]
    · rw [fsub, fadd_infinity_finite ((isFinite_fneg x).trans hx)]
    · rw [ratValue_eq_zero_iff] at h
      rw [fmul_finite_infinity hx, fmul_infinity_finite hx, if_pos h, if_pos h]
      exact ⟨isNaN_internalNaN, isNaN_internalNaN⟩
    · rw [ne_eq, ratValue_eq_zero_iff] at h
      rw [fmul_finite_infinity hx, fmul_infinity_finite hx, if_neg h, if_neg h]
      exact ⟨rfl, rfl⟩

end Sys2Proof.Proofs
end

section
/-! PROOFS. Conversions between data and integers: the floor and the truncation of the value, and the rounding of an integer, which is exact below 2^53 (R124, R125). -/

namespace Sys2Proof.Proofs

open Machine Safety Laws

/-! From data to integers (R124). -/

theorem ratValue_eq_div (x : F64) : ratValue x = (scaled x : ℚ) / (unitScale : Nat) := by
  rw [ratValue, unitScale, Nat.cast_pow, Nat.cast_ofNat]

theorem floor_ratValue (x : F64) : ⌊ratValue x⌋ = scaled x / unitScale := by
  rw [ratValue_eq_div, Rat.floor_intCast_div_natCast]

theorem ceil_ratValue (x : F64) : ⌈ratValue x⌉ = -(-scaled x / unitScale) := by
  rw [ratValue_eq_div, Rat.ceil_intCast_div_natCast]

theorem ratValue_nonneg_iff (x : F64) : 0 ≤ ratValue x ↔ 0 ≤ scaled x := by
  rw [ratValue, le_div_iff₀ (by positivity), zero_mul, Int.cast_nonneg_iff]

/-- Division toward zero is the floor of a value not below zero and the ceiling of a value below. -/
theorem trunc_ratValue (x : F64) :
    (if 0 ≤ ratValue x then ⌊ratValue x⌋ else ⌈ratValue x⌉) = (scaled x).tdiv unitScale := by
  rw [floor_ratValue, ceil_ratValue]
  simp only [ratValue_nonneg_iff]
  split
  next h => exact (Int.tdiv_eq_ediv_of_nonneg h).symm
  next h =>
    have h' : 0 ≤ -scaled x := by omega
    rw [← Int.tdiv_eq_ediv_of_nonneg h', Int.neg_tdiv, neg_neg]

theorem fitsInt_iff (r : Int) : fitsInt r = true ↔ -(2 : Int) ^ 63 ≤ r ∧ r < (2 : Int) ^ 63 := by
  rw [fitsInt, Bool.and_eq_true, decide_eq_true_eq, decide_eq_true_eq]

/-- A conversion that answers `v` for a finite datum where `v` fits, and nothing elsewhere. -/
theorem guarded_eq_some_iff (finite : Bool) (v r : Int) :
    (if finite && fitsInt v then some v else none) = some r ↔
      finite = true ∧ r = v ∧ -(2 : Int) ^ 63 ≤ r ∧ r < (2 : Int) ^ 63 := by
  rw [Option.ite_none_right_eq_some, Bool.and_eq_true, fitsInt_iff, Option.some_inj]
  constructor
  · rintro ⟨⟨hf, hv⟩, rfl⟩
    exact ⟨hf, rfl, hv⟩
  · rintro ⟨hf, rfl, hv⟩
    exact ⟨⟨hf, hv⟩, rfl⟩

theorem floorI_eq_some_iff (x : F64) (r : Int) :
    floorI x = some r ↔ isFinite x = true ∧ r = ⌊ratValue x⌋ ∧ -(2 : Int) ^ 63 ≤ r ∧ r < (2 : Int) ^ 63 := by
  rw [floor_ratValue]
  exact guarded_eq_some_iff ..

theorem truncI_eq_some_iff (x : F64) (r : Int) :
    truncI x = some r ↔ isFinite x = true ∧ r = (if 0 ≤ ratValue x then ⌊ratValue x⌋ else ⌈ratValue x⌉) ∧
      -(2 : Int) ^ 63 ≤ r ∧ r < (2 : Int) ^ 63 := by
  rw [trunc_ratValue]
  exact guarded_eq_some_iff ..

theorem floorOrRaise_of_none {x : F64} (h : floorI x = none) : floorOrRaise x = .error (.badFloatToInt, 0) := by
  rw [floorOrRaise, h]

theorem truncOrRaise_of_none {x : F64} (h : truncI x = none) : truncOrRaise x = .error (.badFloatToInt, 0) := by
  rw [truncOrRaise, h]

/-! From integers to data (R125). -/

theorem toF_correctlyRounded (i : Int) : CorrectlyRounded (toF i) (i : ℝ) := by
  unfold toF
  refine correctlyRounded_roundTo one_pos ?_
  have hu : (2 : ℝ) ^ 1074 ≠ 0 := by positivity
  rw [Nat.cast_one, div_one, Nat.cast_mul, unitScale_cast, mul_div_cancel_left₀ _ hu, signFactor_mul_natAbs]

/-- Every multiple of a power of two by a significand of 53 bits is the value of a pattern, once it is normalised: doubling
the significand halves the power. -/
theorem exists_patternValue (k m : Nat) (hk : k ≤ 2044) (hm : m < 2 ^ 53) :
    ∃ p < 2047 * 2 ^ 52, patternValue p = 2 ^ k * m := by
  induction k generalizing m with
  | zero => exact ⟨m, by omega, by simpa using patternValue_parts 0 m hm (.inl rfl) (by omega)⟩
  | succ k ih =>
    by_cases hnormal : 2 ^ 52 ≤ m
    · exact ⟨2 ^ 52 * (k + 1) + m, by omega, patternValue_parts (k + 1) m hm (.inr hnormal) (by omega)⟩
    · obtain ⟨p, hp, hv⟩ := ih (2 * m) (by omega) (by omega)
      exact ⟨p, hp, by rw [hv, pow_succ, mul_assoc]⟩

/-- An integer below 2^53 is the value of a finite datum. -/
theorem exists_ratValue_eq_int (i : Int) (h : |i| < 2 ^ 53) : ∃ z : F64, isFinite z = true ∧ ratValue z = i := by
  obtain ⟨p, hp, hv⟩ := exists_patternValue 1074 i.natAbs (by norm_num) (by rw [Int.abs_eq_natAbs] at h; omega)
  have hp63 : p < 2 ^ 63 := by omega
  refine ⟨withSign (decide (i < 0)) p, (isFinite_withSign _ p hp63).mpr hp, ?_⟩
  have hu : (2 : ℚ) ^ 1074 ≠ 0 := by positivity
  rw [ratValue_withSign _ p hp63, hv, Nat.cast_mul, Nat.cast_pow, Nat.cast_ofNat, ← mul_neg, ← mul_ite,
    mul_div_cancel_left₀ _ hu]
  cases i with
  | ofNat n => simp
  | negSucc n => simp [Int.cast_negSucc]

/-- The overflow threshold is beyond every integer of 53 bits. -/
theorem overflow_threshold_large : (2 : ℝ) ^ 53 < 2 ^ 1024 - 2 ^ 970 := by
  have h1 : (2 : ℝ) ^ 970 * 2 ≤ 2 ^ 1024 :=
    (pow_succ (2 : ℝ) 970).symm.trans_le (pow_le_pow_right₀ one_le_two (by norm_num))
  have h2 : (2 : ℝ) ^ 53 < 2 ^ 970 := pow_lt_pow_right₀ one_lt_two (by norm_num)
  generalize (2 : ℝ) ^ 970 = u at *
  generalize (2 : ℝ) ^ 1024 = v at *
  linarith

/-- Below the overflow threshold a correctly rounded datum is finite and nearest. -/
theorem nearest_of_correctlyRounded {y : F64} {r : ℝ} (h : CorrectlyRounded y r) (hr : |r| < 2 ^ 1024 - 2 ^ 970) :
    isFinite y = true ∧ ∀ z : F64, isFinite z = true → |(ratValue y : ℝ) - r| ≤ |(ratValue z : ℝ) - r| := by
  rw [CorrectlyRounded, if_neg (not_le.mpr hr)] at h
  obtain ⟨hfinite, -, -, hnear⟩ := h
  exact ⟨hfinite, fun z hz => (hnear z hz).1⟩

/-- A value that a datum has is rounded to itself. -/
theorem exact_of_correctlyRounded {y z : F64} {q : ℚ} (h : CorrectlyRounded y (q : ℝ))
    (hq : |(q : ℝ)| < 2 ^ 1024 - 2 ^ 970) (hz : isFinite z = true) (hzq : ratValue z = q) : isFinite y = true ∧ ratValue y = q := by
  obtain ⟨hfinite, hnear⟩ := nearest_of_correctlyRounded h hq
  have h0 := hnear z hz
  rw [hzq, sub_self, abs_zero, abs_nonpos_iff, sub_eq_zero] at h0
  exact ⟨hfinite, by exact_mod_cast h0⟩

/-- `toF` is exact below 2^53 (R125). -/
theorem toF_exact (i : Int) (h : |i| < 2 ^ 53) : isFinite (toF i) = true ∧ ratValue (toF i) = i := by
  obtain ⟨z, hz, hzi⟩ := exists_ratValue_eq_int i h
  refine exact_of_correctlyRounded (by simpa using toF_correctlyRounded i) ?_ hz hzi
  have hi : |(i : ℝ)| < 2 ^ 53 := by exact_mod_cast h
  simpa using hi.trans overflow_threshold_large

/-- Settles O58. -/
theorem conversions : Obligations.Conversions :=
  ⟨floorI_eq_some_iff, truncI_eq_some_iff, fun _ => floorOrRaise_of_none, fun _ => truncOrRaise_of_none,
    toF_correctlyRounded, fun i h => (toF_exact i h).2⟩

end Sys2Proof.Proofs
end

section
/-! PROOFS. The literals of the rules: each is the rounding of its decimal, and pi is rounded where two decimals on both sides of it are (R122). -/

namespace Sys2Proof.Proofs

open Machine Safety Laws

/-- The datum nearest to a rational number. -/
def roundRat (q : ℚ) : F64 := roundTo (decide (q.num < 0)) (unitScale * q.num.natAbs) q.den

theorem roundRat_correctlyRounded (q : ℚ) : CorrectlyRounded (roundRat q) (q : ℝ) := by
  refine correctlyRounded_roundTo q.pos ?_
  have hu : (2 : ℝ) ^ 1074 ≠ 0 := by positivity
  rw [Nat.cast_mul, unitScale_cast, mul_div_assoc, mul_div_cancel_left₀ _ hu, ← mul_div_assoc, signFactor_mul_natAbs,
    ← Rat.cast_def]

/-- The real decimal `r` of a row of R122's table, as the rational `q` that is rounded. -/
theorem literal_correctlyRounded {y : F64} {r : ℝ} (q : ℚ) (hr : (q : ℝ) = r) (hy : roundRat q = y) :
    CorrectlyRounded y r := by
  rw [← hr, ← hy]
  exact roundRat_correctlyRounded q

/-! Pi. -/

/-- Which of two points is nearer, as the side of their midpoint. -/
theorem abs_sub_le_iff_side (y z r : ℝ) : |y - r| ≤ |z - r| ↔ 0 ≤ (z - y) * (z + y - 2 * r) := by
  rw [← sq_le_sq, ← sub_nonneg]
  ring_nf

/-- The points nearer to `y` than to `z` are a half line, so they hold what lies between two of them; a tie in between is a
tie at one end. -/
theorem nearer_of_between {y z a b r : ℝ} (har : a ≤ r) (hrb : r ≤ b) (ha : |y - a| ≤ |z - a|)
    (hb : |y - b| ≤ |z - b|) :
    |y - r| ≤ |z - r| ∧ (|y - r| = |z - r| → y ≠ z → |y - a| = |z - a| ∨ |y - b| = |z - b|) := by
  have hside := (abs_sub_le_iff_side y z a).mp ha
  have hside' := (abs_sub_le_iff_side y z b).mp hb
  rcases lt_trichotomy y z with h | rfl | h
  · have hmid : 2 * b ≤ z + y := by nlinarith
    refine ⟨(abs_sub_le_iff_side y z r).mpr (mul_nonneg (by linarith) (by linarith)), fun htie _ => .inr ?_⟩
    have hr := (abs_sub_le_iff_side z y r).mp htie.ge
    rw [show b = r by nlinarith, htie]
  · exact ⟨le_rfl, fun _ h => absurd rfl h⟩
  · have hmid : z + y ≤ 2 * a := by nlinarith
    refine ⟨(abs_sub_le_iff_side y z r).mpr (mul_nonneg_of_nonpos_of_nonpos (by linarith) (by linarith)),
      fun htie _ => .inl ?_⟩
    have hr := (abs_sub_le_iff_side z y r).mp htie.ge
    rw [show a = r by nlinarith, htie]

/-- A finite datum is the rounding of no number that overflows. -/
theorem correctlyRounded_finite_iff {y : F64} (hy : isFinite y = true) (r : ℝ) :
    CorrectlyRounded y r ↔ |r| < 2 ^ 1024 - 2 ^ 970 ∧ (signBit y = true → r ≤ 0) ∧ (signBit y = false → 0 ≤ r) ∧
      ∀ z : F64, isFinite z = true →
        |(ratValue y : ℝ) - r| ≤ |(ratValue z : ℝ) - r| ∧
          (|(ratValue y : ℝ) - r| = |(ratValue z : ℝ) - r| → ratValue y ≠ ratValue z → y.getLsbD 0 = false) := by
  unfold CorrectlyRounded
  split
  next h =>
    refine ⟨fun ⟨hinf, _⟩ => ?_, fun ⟨hlt, _⟩ => absurd hlt (not_lt.mpr h)⟩
    rw [hinf, isFinite_infinity] at hy
    cases hy
  next h => exact ⟨fun ⟨_, hrest⟩ => ⟨not_le.mp h, hrest⟩, fun ⟨_, hrest⟩ => ⟨hy, hrest⟩⟩

/-- What lies between two numbers that round to the same finite datum rounds to it too. -/
theorem correctlyRounded_of_between {y : F64} {a b r : ℝ} (hy : isFinite y = true) (har : a ≤ r) (hrb : r ≤ b)
    (ha : CorrectlyRounded y a) (hb : CorrectlyRounded y b) : CorrectlyRounded y r := by
  rw [correctlyRounded_finite_iff hy] at ha hb ⊢
  obtain ⟨hlt, -, hpos, hnear⟩ := ha
  obtain ⟨hlt', hneg, -, hnear'⟩ := hb
  rw [abs_lt] at hlt hlt'
  refine ⟨abs_lt.mpr ⟨hlt.1.trans_le har, hrb.trans_lt hlt'.2⟩, fun h => hrb.trans (hneg h),
    fun h => (hpos h).trans har, fun z hz => ?_⟩
  obtain ⟨hle, htie⟩ := nearer_of_between har hrb (hnear z hz).1 (hnear' z hz).1
  refine ⟨hle, fun heq hne => ?_⟩
  rcases htie heq (by exact_mod_cast hne) with h | h
  · exact (hnear z hz).2 h hne
  · exact (hnear' z hz).2 h hne

/-- `PI` is the binary64 nearest to pi: 20 decimals below and above pi round to it (R122). -/
theorem litPI_correctlyRounded : CorrectlyRounded litPI Real.pi :=
  correctlyRounded_of_between (by decide) Real.pi_gt_d20.le Real.pi_lt_d20.le
    (literal_correctlyRounded (314159265358979323846 / 10 ^ 20) (by norm_num) (by decide +kernel))
    (literal_correctlyRounded (314159265358979323847 / 10 ^ 20) (by norm_num) (by decide +kernel))

/-! The table. -/

/-- A row of R122's table: the pattern is the literal's, and the literal is the rounding of its decimal `q`. -/
theorem literal_row {y pattern : F64} {r : ℝ} (q : ℚ) (hpattern : y = pattern := by rfl)
    (hr : (q : ℝ) = r := by norm_num) (hy : roundRat q = y := by decide +kernel) :
    y = pattern ∧ CorrectlyRounded y r :=
  ⟨hpattern, literal_correctlyRounded q hr hy⟩

/-- Settles O57. -/
theorem literalTable : Obligations.LiteralTable := by
  refine ⟨?_, by decide +kernel, ?_⟩
  · simp only [List.forall_mem_cons, List.not_mem_nil, false_imp_iff, implies_true, and_true]
    exact ⟨literal_row (1 / 1000), literal_row (1 / 100), literal_row (1 / 1000000), literal_row (9 / 10), literal_row 10,
      literal_row (1 / 2), literal_row (5 / 100000), literal_row (1 / 10), literal_row (1 / 10000), literal_row (8 / 10),
      literal_row 5, literal_row 20, literal_row (3 / 10000), literal_row (1 / 100000), literal_row 100,
      literal_row 20000, literal_row 32, literal_row 100000, literal_row 44100, literal_row 128, literal_row 32768,
      literal_row 2, literal_row 1, literal_row 1020, ⟨rfl, litPI_correctlyRounded⟩, literal_row 0,
      literal_row (-1 / 2), literal_row (-1)⟩
  · have hpattern : fmul lit2 litPI = 0x401921FB54442D18 := by decide +kernel
    have hdouble : scaled 0x401921FB54442D18 = 2 * scaled litPI := by decide +kernel
    rw [hpattern, ratValue, ratValue, hdouble, Int.cast_mul, Int.cast_ofNat, mul_div_assoc]

end Sys2Proof.Proofs
end

section
/-! PROOFS. QUANT and DIGIT, which convert their elements one by one: the samples and the quantized periods, and the fault of the first element without one (R200, R330). -/

namespace Sys2Proof.Proofs

open Machine Safety Laws

/-! A stage operation, by the result of its stage. -/

theorem exec_stage_completes {g : Stage} {s : State} {b : Buf} {pos : Nat} (hf : s.flt = none)
    (h : g.result s = .ok (b, pos)) :
    exec g.instr s = .next (commit s (g.code + 1) (.ok (b, pos))) ∧
      Completes s (commit s (g.code + 1) (.ok (b, pos))) (g.code + 1) b :=
  ⟨by rw [exec_stage g s hf, h], rfl, rfl, hf, commit_frame ..⟩

theorem exec_stage_faults {g : Stage} {s : State} {c : Cause} {info : InfoByte} (hf : s.flt = none)
    (h : g.result s = .error (c, info)) : ∃ t, exec g.instr s = .next t ∧ Faults s t c info :=
  ⟨commit s (g.code + 1) (.error (c, info)), by rw [exec_stage g s hf, h], rfl, rfl, rfl, rfl, commit_frame ..⟩

/-! Functions with faults, over lists. -/

section
variable {α β ε : Type} {f : α → Except ε β}

theorem mapM_cons_eq_ok_iff {x : α} {xs : List α} {q : List β} :
    (x :: xs).mapM f = .ok q ↔ ∃ v q', f x = .ok v ∧ xs.mapM f = .ok q' ∧ q = v :: q' := by
  rw [List.mapM_cons]
  cases f x with
  | error e => simp [bind, Except.bind]
  | ok v => cases xs.mapM f <;> simp [bind, Except.bind, pure, Except.pure, eq_comm]

/-- A map that succeeds has each element's value at its place. -/
theorem getElem?_of_mapM_eq_ok {l : List α} {q : List β} (h : l.mapM f = .ok q) {i : Nat} {x : α} (hx : l[i]? = some x) :
    ∃ v, f x = .ok v ∧ q[i]? = some v := by
  induction l generalizing q i with
  | nil => cases hx
  | cons y ys ih =>
    obtain ⟨v, q', hv, hq', rfl⟩ := mapM_cons_eq_ok_iff.mp h
    cases i with
    | zero => cases hx; exact ⟨v, hv, rfl⟩
    | succ i => exact ih hq' hx

/-- Where every fault is the same, a map with a fault has that fault. -/
theorem mapM_eq_error {l : List α} {e : ε} (hall : ∀ x e', f x = .error e' → e' = e) (h : ∃ x ∈ l, f x = .error e) :
    l.mapM f = .error e := by
  induction l with
  | nil => obtain ⟨_, hx, _⟩ := h; cases hx
  | cons y ys ih =>
    rw [List.mapM_cons]
    cases hy : f y with
    | error e' => rw [hall y e' hy]; rfl
    | ok v =>
      have hrest : ∃ x ∈ ys, f x = .error e := by
        obtain ⟨x, hx, hfx⟩ := h
        rcases List.mem_cons.mp hx with rfl | hx
        · cases hy.symm.trans hfx
        · exact ⟨x, hx, hfx⟩
      rw [ih hrest]; rfl

end

/-! QUANT (R200). -/

/-- The quantized period of one element. -/
def quantPeriod (x : F64) : Except StageFault Int := (truncOrRaise x).map (max 8)

theorem quantPeriod_of_some {x : F64} {v : Int} (h : truncI x = some v) : quantPeriod x = .ok (max 8 v) := by
  rw [quantPeriod, (truncOrRaise_eq_ok_iff x v).mpr h]; rfl

theorem quantPeriod_of_none {x : F64} (h : truncI x = none) : quantPeriod x = .error (.badFloatToInt, 0) := by
  rw [quantPeriod, truncOrRaise_of_none h]; rfl

theorem quantRun_eq_mapM (l : List F64) : quantRun l = l.mapM quantPeriod := by
  induction l with
  | nil => rfl
  | cons x xs ih =>
    rw [quantRun, List.mapM_cons, quantPeriod, ih]
    cases truncOrRaise x with
    | error e => rfl
    | ok i => cases xs.mapM quantPeriod <;> rfl

theorem quantRun_eq_error {l : List F64} (h : ∃ x ∈ l, truncI x = none) : quantRun l = .error (.badFloatToInt, 0) := by
  rw [quantRun_eq_mapM]
  refine mapM_eq_error (fun x e he => ?_) (h.imp fun x ⟨hx, hn⟩ => ⟨hx, quantPeriod_of_none hn⟩)
  cases hx : truncI x with
  | none => rw [quantPeriod_of_none hx] at he; cases he; rfl
  | some v => rw [quantPeriod_of_some hx] at he; cases he

/-- Settles O31. -/
theorem quantTruncates : Obligations.QuantTruncates := by
  refine ⟨rfl, fun s l hf hbuf => ⟨fun h => ?_, fun h => ?_⟩⟩
  · obtain ⟨q, hq⟩ := exists_quantRun h
    have hr : Stage.quant.result s = .ok (.itrack q, s.entropyPos) := by
      rw [Stage.result, hbuf, quantStage, realElems, hq]; rfl
    obtain ⟨hexec, hcompletes⟩ := exec_stage_completes hf hr
    refine ⟨_, q, hexec, hcompletes, rfl, quantRun_length l q hq, fun i x v hx hv => ?_⟩
    obtain ⟨p, hp, hqi⟩ := getElem?_of_mapM_eq_ok ((quantRun_eq_mapM l).symm.trans hq) hx
    rw [quantPeriod_of_some hv] at hp
    cases hp
    exact hqi
  · refine exec_stage_faults (g := .quant) hf ?_
    rw [Stage.result, hbuf, quantStage, realElems, quantRun_eq_error h]; rfl

/-! DIGIT (R330). -/

theorem digitRun_eq_mapM (size : Nat) (l : List F64) : digitRun size l = l.mapM (digitSample size) := by
  induction l with
  | nil => rfl
  | cons x xs ih =>
    rw [digitRun, List.mapM_cons, ih]
    cases digitSample size x with
    | error e => rfl
    | ok v => cases xs.mapM (digitSample size) <;> rfl

/-- Where a scaled value is compared and not floored, its floor is clamped: the bounds are exact (R330). -/
theorem digitClamp_finite {v : F64} {lo hi : Int} (hv : isFinite v = true) (hle : lo ≤ hi) (hlo : |lo| < 2 ^ 53)
    (hhi : |hi + 1| < 2 ^ 53) : digitClamp v lo hi = .ok (max lo (min hi ⌊ratValue v⌋)) := by
  obtain ⟨hlof, hlov⟩ := toF_exact lo hlo
  obtain ⟨hhif, hhiv⟩ := toF_exact (hi + 1) hhi
  have below : flt v (toF lo) = true ↔ ⌊ratValue v⌋ < lo := by
    rw [(compare_finite hv hlof).1, hlov, Int.floor_lt]
  have above : fge v (toF (hi + 1)) = true ↔ hi + 1 ≤ ⌊ratValue v⌋ := by
    rw [fge, (compare_finite hhif hv).2.1, hhiv, Int.le_floor]
  rw [abs_lt] at hlo hhi
  rw [digitClamp, isNaN_of_isFinite v hv, if_neg Bool.false_ne_true]
  split
  next h =>
    rw [below] at h
    congr 1; omega
  next hnlo =>
    rw [below] at hnlo
    split
    next h =>
      rw [above] at h
      congr 1; omega
    next hnhi =>
      rw [above] at hnhi
      rw [floorOrRaise_eq_ok_iff, floorI_eq_some_iff]
      exact ⟨hv, by omega, by omega, by omega⟩

/-- An infinity gives the end of its sign (R330). -/
theorem digitClamp_infinity (a : Bool) {lo hi : Int} (hlo : |lo| < 2 ^ 53) (hhi : |hi + 1| < 2 ^ 53) :
    digitClamp (infinity a) lo hi = .ok (if a then lo else hi) := by
  obtain ⟨-, hbelow, -⟩ := compare_infinity a (toF_exact lo hlo).1
  obtain ⟨-, -, habove, -⟩ := compare_infinity a (toF_exact (hi + 1) hhi).1
  rw [digitClamp, isNaN_infinity, hbelow, fge, habove]
  cases a <;> rfl

theorem digitClamp_eq {v : F64} {lo hi : Int} (hn : isNaN v = false) (hle : lo ≤ hi) (hlo : |lo| < 2 ^ 53)
    (hhi : |hi + 1| < 2 ^ 53) :
    digitClamp v lo hi = .ok (if isFinite v then max lo (min hi ⌊ratValue v⌋) else if signBit v then lo else hi) := by
  rcases isFinite_or_isNaN_or_isInf v with hv | hv | hv
  · rw [if_pos hv]
    exact digitClamp_finite hv hle hlo hhi
  · rw [hn] at hv; cases hv
  · rw [eq_infinity_of_isInf hv, isFinite_infinity, signBit_infinity]
    exact digitClamp_infinity _ hlo hhi

/-- The value that is floored: the element scaled to the sample size (R330). -/
def digitScaled (size : Nat) (x : F64) : F64 := if size = 8 then fmul (fadd x lit1) lit128 else fmul x lit32768

theorem digitSample_eq_clamp (size : Nat) (x : F64) :
    digitSample size x =
      digitClamp (digitScaled size x) (if size = 8 then 0 else -32768) (if size = 8 then 255 else 32767) := by
  unfold digitSample digitScaled
  split <;> rfl

theorem isNaN_digitScaled (size : Nat) (x : F64) : isNaN (digitScaled size x) = isNaN x := by
  have finite : isFinite lit1 = true ∧ isFinite lit128 = true ∧ isFinite lit32768 = true := by decide +kernel
  have nonzero : magnitude lit128 ≠ 0 ∧ magnitude lit32768 ≠ 0 := by decide +kernel
  cases hx : isNaN x with
  | true =>
    obtain ⟨hadd, -⟩ := ops_of_isNaN (y := lit1) (.inl hx)
    obtain ⟨-, -, hmul, -⟩ := ops_of_isNaN (y := lit32768) (.inl hx)
    obtain ⟨-, -, hmul', -⟩ := ops_of_isNaN (y := lit128) (.inl isNaN_internalNaN)
    rw [digitScaled, hadd, hmul, hmul', ite_self, isNaN_internalNaN]
  | false =>
    unfold digitScaled
    split
    · exact isNaN_fmul (isNaN_fadd hx finite.1) finite.2.1 nonzero.1
    · exact isNaN_fmul hx finite.2.2 nonzero.2

theorem digitSample_of_isNaN (size : Nat) {x : F64} (h : isNaN x = true) :
    digitSample size x = .error (.badFloatToInt, 0) := by
  rw [digitSample_eq_clamp, digitClamp, isNaN_digitScaled, if_pos h]

/-- A sample is the floor of the scaled value clamped to the range of the size (R330). -/
theorem digitSample_eq (size : Nat) {x : F64} (h : isNaN x = false) :
    digitSample size x = .ok
      (if isFinite (digitScaled size x) then
        max (if size = 8 then 0 else -32768) (min (if size = 8 then 255 else 32767) ⌊ratValue (digitScaled size x)⌋)
      else if signBit (digitScaled size x) then (if size = 8 then 0 else -32768) else if size = 8 then 255 else 32767) := by
  rw [digitSample_eq_clamp]
  refine digitClamp_eq ((isNaN_digitScaled size x).trans h) ?_ ?_ ?_ <;> split <;> decide

theorem digitRun_eq_error {size : Nat} {l : List F64} (h : ∃ x ∈ l, isNaN x = true) :
    digitRun size l = .error (.badFloatToInt, 0) := by
  rw [digitRun_eq_mapM]
  refine mapM_eq_error (fun x e he => ?_) (h.imp fun x ⟨hx, hn⟩ => ⟨hx, digitSample_of_isNaN size hn⟩)
  cases hx : isNaN x with
  | true => rw [digitSample_of_isNaN size hx] at he; cases he; rfl
  | false => rw [digitSample_eq size hx] at he; cases he

/-- Settles O44. -/
theorem digitFloorClamp : Obligations.DigitFloorClamp := by
  refine ⟨rfl, fun s l hf hbuf _ => ⟨fun h => ?_, fun h => ?_⟩⟩
  · obtain ⟨q, hq⟩ := exists_digitRun s.ps.sampleSize h
    have hr : Stage.digit.result s = .ok (.pcm q, s.entropyPos) := by
      rw [Stage.result, hbuf, digitStage, realElems, hq]; rfl
    obtain ⟨hexec, hcompletes⟩ := exec_stage_completes hf hr
    refine ⟨_, q, hexec, hcompletes, rfl, ?_, digitRun_length _ l q hq, digit_result_range hr, fun i x hx => ?_⟩
    · rw [statusWord_eq, hcompletes.sp, hcompletes.flt]; rfl
    · have hnx := h x (List.mem_of_getElem? hx)
      refine ⟨(isNaN_digitScaled _ x).trans hnx, ?_⟩
      obtain ⟨v, hv, hqi⟩ := getElem?_of_mapM_eq_ok ((digitRun_eq_mapM _ l).symm.trans hq) hx
      rw [digitSample_eq _ hnx] at hv
      cases hv
      exact hqi
  · refine exec_stage_faults (g := .digit) hf ?_
    rw [Stage.result, hbuf, digitStage, realElems, digitRun_eq_error h]; rfl

end Sys2Proof.Proofs
end

section
/-! PROOFS. PHASER: the circular buffer is a delay line, and the stage completes exactly where every offset is defined (R290, R293, R294). -/

namespace Sys2Proof.Proofs

open Machine Safety Laws

/-! The offset (R293). -/

theorem offsetOf_lt (i : Int) : offsetOf i < 1024 := by
  unfold offsetOf; omega

theorem phaserOffset_of_some {f : F64} {i : Int} (h : truncI f = some i) : phaserOffset f = .ok (offsetOf i) := by
  rw [phaserOffset, (truncOrRaise_eq_ok_iff f i).mpr h]
  dsimp only [Config.phaserLen, offsetOf]
  split <;> congr 1 <;> omega

theorem phaserOffset_of_none {f : F64} (h : truncI f = none) : phaserOffset f = .error (.badFloatToInt, 0) := by
  rw [phaserOffset, truncOrRaise_of_none h]

/-! The circular buffer (R61, R294). -/

theorem pbufRead_pbufWrite (b : Vector F64 1024) {i j : Nat} (v : F64) (hi : i < 1024) (hj : j < 1024) :
    pbufRead (pbufWrite b i v) j = if i = j then v else pbufRead b j := by
  simp only [pbufRead, pbufWrite, dif_pos hi, dif_pos hj, Vector.getElem_set]

theorem phaserReadIndex_eq {ipp k : Nat} (hipp : ipp < 1024) (hk : k < 1024) :
    phaserReadIndex ipp k = if k ≤ ipp then ipp - k else ipp + 1024 - k := by
  unfold phaserReadIndex Config.phaserLen
  split <;> omega

/-- The write position moves on by one, so an element is one further back. -/
theorem phaserReadIndex_succ {ipp k : Nat} (hipp : ipp < 1024) (hk : k + 1 < 1024) :
    phaserReadIndex ((ipp + 1) % 1024) (k + 1) = phaserReadIndex ipp k := by
  rw [phaserReadIndex_eq (Nat.mod_lt _ (by norm_num)) hk, phaserReadIndex_eq hipp (by omega)]
  split <;> split <;> omega

theorem phaserReadIndex_lt {ipp k : Nat} (hipp : ipp < 1024) (hk : k < 1024) : phaserReadIndex ipp k < 1024 := by
  rw [phaserReadIndex_eq hipp hk]
  split <;> omega

/-! The delay line. -/

/-- Elements before the end of `l` do not depend on what follows it. -/
theorem delayed_append {l : List F64} (m : List F64) {u k : Nat} (h : u < l.length + k) :
    delayed (l ++ m) u k = delayed l u k := by
  unfold delayed
  split
  · rw [List.getD_append _ _ _ _ (by omega)]
  · rfl

theorem delayed_succ (l : List F64) (u k : Nat) : delayed l (u + 1) (k + 1) = delayed l u k := by
  simp [delayed]

theorem delayed_last (l : List F64) (x : F64) : delayed (l ++ [x]) l.length 0 = x := by
  simp [delayed]

/-- PHASER's registers after the elements `past`: the accumulator that the next element advances, the write position, and in
the circular buffer the last 1023 elements, the ones before the first being `+0`. -/
structure PhaserAfter (c : Config.Choices) (ps : ParamSet) (past : List F64) (r : PhaserRegs) : Prop where
  fdphase : r.fdphase = c.phaFdphase ps.phaRamp
  fphase : fadd r.fphase r.fdphase = phaserPhase c ps past.length
  ipp : r.ipp = past.length % 1024
  pbuf : ∀ k, k + 1 < 1024 → pbufRead r.pbuf (phaserReadIndex r.ipp (k + 1)) = delayed past past.length (k + 1)

theorem phaserAfter_init (c : Config.Choices) (ps : ParamSet) : PhaserAfter c ps [] (phaserInit c ps) where
  fdphase := rfl
  fphase := rfl
  ipp := rfl
  pbuf k hk := by
    rw [phaserInit, pbufRead, dif_pos (phaserReadIndex_lt (by norm_num) hk), Vector.getElem_replicate]
    rfl

section
variable {c : Config.Choices} {ps : ParamSet} {past : List F64} {r : PhaserRegs}

/-- Once an element is written, every offset reads the element that many places back. -/
theorem PhaserAfter.read_written (h : PhaserAfter c ps past r) (x : F64) {k : Nat} (hk : k < 1024) :
    pbufRead (pbufWrite r.pbuf r.ipp x) (phaserReadIndex r.ipp k) = delayed (past ++ [x]) past.length k := by
  have hipp : r.ipp < 1024 := h.ipp ▸ Nat.mod_lt _ (by norm_num)
  rw [pbufRead_pbufWrite _ _ hipp (phaserReadIndex_lt hipp hk)]
  cases k with
  | zero => rw [phaserReadIndex_eq hipp hk, if_pos (by simp), delayed_last]
  | succ k =>
    rw [if_neg, h.pbuf k hk, delayed_append _ (by omega)]
    rw [phaserReadIndex_eq hipp hk]
    split <;> omega

/-- One element: the delayed sum, and the registers after it (R290). -/
theorem PhaserAfter.step (h : PhaserAfter c ps past r) (x : F64) {i : Int}
    (hi : truncI (phaserPhase c ps past.length) = some i) :
    ∃ r', phaserStep r x = .ok (r', fadd x (delayed (past ++ [x]) past.length (offsetOf i))) ∧
      PhaserAfter c ps (past ++ [x]) r' := by
  have hipp : r.ipp < 1024 := h.ipp ▸ Nat.mod_lt _ (by norm_num)
  have hlen : (past ++ [x]).length = past.length + 1 := by simp
  have hoff := phaserOffset_of_some hi
  rw [← h.fphase] at hoff
  simp only [phaserStep, hoff, h.read_written x (offsetOf_lt i)]
  refine ⟨_, rfl, h.fdphase, ?_, ?_, fun k hk => ?_⟩
  · rw [hlen, phaserPhase_succ, ← h.fphase, ← h.fdphase]
  · rw [hlen, h.ipp]
    exact Nat.mod_add_mod ..
  · rw [hlen, delayed_succ, ← h.read_written x (by omega)]
    exact congrArg (pbufRead _) (phaserReadIndex_succ hipp hk)

/-- An element without an offset faults (R293). -/
theorem PhaserAfter.step_fault (h : PhaserAfter c ps past r) (x : F64)
    (hi : truncI (phaserPhase c ps past.length) = none) : phaserStep r x = .error (.badFloatToInt, 0) := by
  have hoff := phaserOffset_of_none hi
  rw [← h.fphase] at hoff
  simp only [phaserStep, hoff]

/-- The elements after `past`: where the run completes every offset is defined and every element is the delayed sum, and the
only fault is the one of an offset. -/
theorem PhaserAfter.run (h : PhaserAfter c ps past r) (l : List F64) :
    (∃ ys, phaserRun r l = .ok ys ∧ ∀ (u : Nat) (x : F64), l[u]? = some x →
      ∃ i, truncI (phaserPhase c ps (past.length + u)) = some i ∧
        ys[u]? = some (fadd x (delayed (past ++ l) (past.length + u) (offsetOf i)))) ∨
      phaserRun r l = .error (.badFloatToInt, 0) ∧
        ∃ u < l.length, truncI (phaserPhase c ps (past.length + u)) = none := by
  induction l generalizing past r with
  | nil => exact .inl ⟨[], rfl, fun u x hx => by cases hx⟩
  | cons y l ih =>
    cases hi : truncI (phaserPhase c ps past.length) with
    | none =>
      exact .inr ⟨by rw [phaserRun, h.step_fault y hi], 0, Nat.zero_lt_succ _, hi⟩
    | some i =>
      obtain ⟨r', hstep, hnext⟩ := h.step y hi
      have hpast : past ++ [y] ++ l = past ++ y :: l := by simp
      have hlen : ∀ u, (past ++ [y]).length + u = past.length + (u + 1) := by simp; omega
      have hih := ih hnext
      simp only [hpast, hlen] at hih
      rcases hih with ⟨ys, hys, helem⟩ | ⟨herr, u, hu, hnone⟩
      · refine .inl ⟨_ :: ys, by rw [phaserRun, hstep]; dsimp only; rw [hys], fun u x hx => ?_⟩
        cases u with
        | zero =>
          cases hx
          refine ⟨i, hi, congrArg (fun z => some (fadd y z)) ?_⟩
          rw [← hpast]
          exact (delayed_append l (by rw [List.length_append, List.length_singleton]; omega)).symm
        | succ u => exact helem u x hx
      · exact .inr ⟨by rw [phaserRun, hstep]; dsimp only; rw [herr], u + 1, Nat.succ_lt_succ hu, hnone⟩

end

/-- PHASER over a signal: the delay line where every offset is defined, its fault where one is not (R290). -/
theorem phaserRun_spec (c : Config.Choices) (ps : ParamSet) (l : List F64) :
    (∃ ys, phaserRun (phaserInit c ps) l = .ok ys ∧ ∀ (u : Nat) (x : F64), l[u]? = some x →
      ∃ i, truncI (phaserPhase c ps u) = some i ∧ ys[u]? = some (fadd x (delayed l u (offsetOf i)))) ∨
      phaserRun (phaserInit c ps) l = .error (.badFloatToInt, 0) ∧
        ∃ u < l.length, truncI (phaserPhase c ps u) = none := by
  simpa using (phaserAfter_init c ps).run l

theorem phaserReady_iff (c : Config.Choices) (ps : ParamSet) (n : Nat) :
    phaserReady c ps n = true ↔ ∀ u < n, (truncI (phaserPhase c ps u)).isSome = true := by
  simp [phaserReady]

/-- Settles O41. -/
theorem phaserExecutes : Obligations.PhaserExecutes := by
  refine ⟨rfl, fun s l hf hbuf => ?_⟩
  rcases phaserRun_spec Config.choices s.ps l with ⟨ys, hys, helem⟩ | ⟨herr, u, hu, hnone⟩
  · have hr : Stage.phaser.result s = .ok (.signal (storeFrom (freeNaN s) 0 ys), s.entropyPos) := by
      rw [Stage.result, hbuf, phaserStage, realElems, hys]; rfl
    obtain ⟨hexec, hcompletes⟩ := exec_stage_completes hf hr
    refine ⟨fun _ => ⟨_, _, hexec, hcompletes, rfl, ?_, fun u x hx => ?_⟩, .inl ?_⟩
    · rw [storeFrom_length, phaserRun_length _ _ _ hys]
    · obtain ⟨i, hi, hy⟩ := helem u x hx
      exact ⟨i, hi, by rw [storeFrom_stored, hy]; rfl⟩
    · rw [phaserReady_iff]
      intro u hu
      obtain ⟨i, hi, -⟩ := helem u l[u] (List.getElem?_eq_getElem hu)
      rw [hi]; rfl
  · refine ⟨fun hready => ?_, .inr (exec_stage_faults (g := .phaser) hf ?_)⟩
    · have := (phaserReady_iff ..).mp hready u hu
      rw [hnone] at this
      cases this
    · rw [Stage.result, hbuf, phaserStage, realElems, herr]; rfl

end Sys2Proof.Proofs
end

section
/-! PROOFS. The delay of FREQ's repeat and ARP's cutoff is at least 32: a rounded sum is not below a datum that the exact sum is not below (R161, R181). -/

namespace Sys2Proof.Proofs

open Machine Safety Laws

/-! A finite result has finite operands. -/

theorem isFinite_internalNaN : isFinite internalNaN = false := by decide

theorem isFinite_of_not_isNaN_of_not_isInf {x : F64} (hn : ¬ isNaN x = true) (hi : ¬ isInf x = true) : isFinite x = true :=
  (isFinite_or_isNaN_or_isInf x).resolve_right fun h => h.elim hn hi

theorem not_isFinite_of_isInf {x : F64} (h : isInf x = true) : ¬ isFinite x = true := by
  rw [eq_infinity_of_isInf h, isFinite_infinity]
  exact Bool.false_ne_true

theorem finite_operands_of_fadd {x y : F64} (h : isFinite (fadd x y) = true) : isFinite x = true ∧ isFinite y = true := by
  unfold fadd at h
  split at h
  · rw [isFinite_internalNaN] at h; cases h
  next hnan =>
    rw [Bool.or_eq_true, not_or] at hnan
    split at h
    next hinf =>
      split at h
      · rw [isFinite_internalNaN] at h; cases h
      · exact absurd h (not_isFinite_of_isInf hinf)
    next hx =>
      split at h
      next hinf => exact absurd h (not_isFinite_of_isInf hinf)
      next hy => exact ⟨isFinite_of_not_isNaN_of_not_isInf hnan.1 hx, isFinite_of_not_isNaN_of_not_isInf hnan.2 hy⟩

theorem finite_operands_of_fmul {x y : F64} (h : isFinite (fmul x y) = true) : isFinite x = true ∧ isFinite y = true := by
  unfold fmul at h
  split at h
  · rw [isFinite_internalNaN] at h; cases h
  next hnan =>
    rw [Bool.or_eq_true, not_or] at hnan
    split at h
    · split at h
      · rw [isFinite_internalNaN] at h; cases h
      · rw [isFinite_infinity] at h; cases h
    next hinf =>
      rw [Bool.or_eq_true, not_or] at hinf
      exact ⟨isFinite_of_not_isNaN_of_not_isInf hnan.1 hinf.1, isFinite_of_not_isNaN_of_not_isInf hnan.2 hinf.2⟩

/-! Signs and bounds. -/

theorem ratValue_nonneg_of_signBit {x : F64} (h : signBit x = false) : 0 ≤ ratValue x := by
  rw [ratValue_nonneg_iff, scaled, h, if_neg Bool.false_ne_true]
  exact Int.natCast_nonneg _

theorem signBit_sq {x : F64} (hx : isFinite x = true) : signBit (sq x) = false := by
  unfold Machine.sq
  rw [signBit_fmul hx hx, bne_self_eq_false]

/-- Rounding does not cross a datum: a number not below a datum is not rounded below it. -/
theorem le_ratValue_of_correctlyRounded {y z : F64} {r : ℝ} (hy : isFinite y = true) (hz : isFinite z = true)
    (h : CorrectlyRounded y r) (hzr : (ratValue z : ℝ) ≤ r) : ratValue z ≤ ratValue y := by
  obtain ⟨-, -, -, hnear⟩ := (correctlyRounded_finite_iff hy r).mp h
  have hdist := (hnear z hz).1
  rw [abs_of_nonpos (sub_nonpos.mpr hzr), neg_sub] at hdist
  have hreal : (ratValue z : ℝ) ≤ ratValue y := by linarith [neg_abs_le ((ratValue y : ℝ) - r)]
  exact_mod_cast hreal

/-- A sum is not below an operand when the other is not below zero. -/
theorem ratValue_le_fadd {x y : F64} (h : isFinite (fadd x y) = true) (hx : 0 ≤ ratValue x) :
    ratValue y ≤ ratValue (fadd x y) := by
  obtain ⟨hfx, hfy⟩ := finite_operands_of_fadd h
  refine le_ratValue_of_correctlyRounded h hfy (fadd_correctlyRounded hfx hfy) ?_
  exact_mod_cast le_add_of_nonneg_left hx

theorem ratValue_lit32 : ratValue lit32 = 32 := by
  have hscaled : scaled lit32 = 32 * unitScale := by decide +kernel
  have hunit : ((unitScale : Nat) : ℚ) ≠ 0 := Nat.cast_ne_zero.mpr unitScale_pos.ne'
  rw [ratValue_eq_div, hscaled, Int.cast_mul, Int.cast_natCast, mul_div_cancel_right₀ _ hunit]
  norm_num

/-- Settles O28: the scaled square has no sign, so the sum with 32.0 is not rounded below 32. -/
theorem delayAtLeast32 : Obligations.DelayAtLeast32 := by
  intro x r h
  obtain ⟨hfinite, rfl, -⟩ := (floorI_eq_some_iff _ r).mp h
  obtain ⟨hproduct, -⟩ := finite_operands_of_fadd hfinite
  obtain ⟨hsquare, hlit⟩ := finite_operands_of_fmul hproduct
  obtain ⟨hdiff, -⟩ := finite_operands_of_fmul hsquare
  have hsign : signBit (fmul (sq (fsub lit1 x)) lit20000) = false := by
    rw [signBit_fmul hsquare hlit, signBit_sq hdiff]; decide
  have hle := ratValue_le_fadd hfinite (ratValue_nonneg_of_signBit hsign)
  rw [ratValue_lit32] at hle
  exact Int.le_floor.mpr (by exact_mod_cast hle)

end Sys2Proof.Proofs
end

section
/-! PROOFS. FREQ: where it faults, the recurrence and its tiling in closed form, and the length of the track (R160 to R167). -/

namespace Sys2Proof.Proofs

open Machine Safety Laws

/-! Where FREQ faults (R161, R162, R415). -/

theorem phaseLen_of_none {rate : Nat} {p : F64} (h : floorI (phaseArg rate p) = none) :
    phaseLen rate p = .error (.badFloatToInt, 0) :=
  floorOrRaise_of_none h

/-- The first undefined length faults, whichever it is. -/
theorem freqStage_of_no_lengths {ps : ParamSet} (maxLen : Nat) (nan : Nat → F64) (h : phaseLens 44100 ps = none) :
    freqStage maxLen nan ps = .error (.badFloatToInt, 0) := by
  unfold freqStage Config.nominalRate
  cases ha : floorI (phaseArg 44100 ps.envAttack) with
  | none => rw [phaseLen_of_none ha]
  | some la =>
    rw [(phaseLen_eq_ok_iff ..).mpr ha]
    cases hs : floorI (phaseArg 44100 ps.envSustain) with
    | none => rw [phaseLen_of_none hs]
    | some ls =>
      rw [(phaseLen_eq_ok_iff ..).mpr hs]
      cases hd : floorI (phaseArg 44100 ps.envDecay) with
      | none => rw [phaseLen_of_none hd]
      | some ld => rw [phaseLens, ha, hs, hd] at h; cases h

/-- With the lengths defined, FREQ checks the length and then needs `R` (R162, R415). -/
theorem freqStage_of_lengths {ps : ParamSet} {la ls ld : Int} (maxLen : Nat) (nan : Nat → F64)
    (h : phaseLens 44100 ps = some (la, ls, ld)) :
    freqStage maxLen nan ps =
      if (maxLen : Int) < 8 * (la + ls + ld) then .error (.lengthOverflow, 0)
      else (repeatPeriod ps).map fun rep => .track (freqTrack nan ps (freqInit ps (la + ls + ld).toNat rep)) := by
  obtain ⟨ha, hs, hd⟩ := (phaseLens_eq_some_iff ..).mp h
  simp only [freqStage, Config.nominalRate, Config.supersample, ha, hs, hd]
  cases repeatPeriod ps <;> rfl

theorem repeatPeriod_of_zero {ps : ParamSet} (h : feq ps.repeatSpeed lit0 = true) : repeatPeriod ps = .ok none := by
  rw [repeatPeriod, fne, h]; rfl

theorem repeatPeriod_of_none {ps : ParamSet} (h : feq ps.repeatSpeed lit0 = false)
    (hr : floorI (delayArg ps.repeatSpeed) = none) : repeatPeriod ps = .error (.badFloatToInt, 0) := by
  have hfloor := floorOrRaise_of_none hr
  rw [delayArg] at hfloor
  rw [repeatPeriod, fne, h, hfloor]; rfl

theorem repeatPeriod_of_some {ps : ParamSet} {r : Int} (h : feq ps.repeatSpeed lit0 = false)
    (hr : floorI (delayArg ps.repeatSpeed) = some r) : repeatPeriod ps = .ok (some r.toNat) := by
  have hfloor := (floorOrRaise_eq_ok_iff _ r).mpr hr
  rw [delayArg] at hfloor
  rw [repeatPeriod, fne, h, hfloor]; rfl

theorem exec_freq_faults {s : State} {c : Cause} {info : InfoByte} (hf : s.flt = none)
    (h : freqStage s.maxLen (freeNaN s) s.ps = .error (c, info)) : ∃ t, exec .freq s = .next t ∧ Faults s t c info :=
  exec_stage_faults (g := .freq) hf (by rw [Stage.result, h]; rfl)

/-- Settles O27. -/
theorem freqFaults : Obligations.FreqFaults := by
  refine ⟨fun _ _ => rfl, fun s hf => ⟨fun h => exec_freq_faults hf (freqStage_of_no_lengths _ _ h),
    fun la ls ld h => ⟨fun hlong => exec_freq_faults hf ?_, fun hfit hne hr => exec_freq_faults hf ?_⟩⟩⟩
  · rw [freqStage_of_lengths _ _ h, if_pos hlong]
  · rw [freqStage_of_lengths _ _ h, if_neg (not_lt.mpr hfit), repeatPeriod_of_none hne hr]; rfl

/-! The recurrence (R163, R164). -/

/-- FREQ's registers after `k` elements of a track that was not truncated: the slide, the period and the constants. -/
structure FreqAt (ps : ParamSet) (k : Nat) (r : FreqRegs) : Prop where
  period : r.period = periodAt ps k
  fslide : r.fslide = slideAt ps k
  fdslide : r.fdslide = fmul (fsub lit0 (cube ps.freqDramp)) lit1em6
  maxperiod : r.maxperiod = maxPeriod ps

theorem freqAt_freqInit (ps : ParamSet) (len : Nat) (rep : Option Nat) : FreqAt ps 0 (freqInit ps len rep) :=
  ⟨rfl, rfl, rfl, rfl⟩

theorem slideAt_succ (ps : ParamSet) (k : Nat) :
    slideAt ps (k + 1) = fadd (slideAt ps k) (fmul (fsub lit0 (cube ps.freqDramp)) lit1em6) := rfl

theorem truncatesAt_eq_true_iff (ps : ParamSet) (k : Nat) :
    truncatesAt ps k = true ↔
      fgt (fmul (periodAt ps k) (slideAt ps (k + 1))) (maxPeriod ps) = true ∧ fgt ps.freqLimit lit0 = true := by
  rw [truncatesAt, Bool.and_eq_true]

section
variable {ps : ParamSet} {k : Nat} {r : FreqRegs}

/-- The element that the limit truncates is not emitted (R164). -/
theorem FreqAt.step_truncated (h : FreqAt ps k r) (ht : truncatesAt ps k = true) : ∃ r', freqStep ps r = (r', none) := by
  obtain ⟨hover, hlimit⟩ := (truncatesAt_eq_true_iff ps k).mp ht
  rw [slideAt_succ] at hover
  simp only [freqStep, h.period, h.fslide, h.fdslide, h.maxperiod, if_pos hover, if_pos hlimit]
  exact ⟨_, rfl⟩

/-- Every other element is the next period (R163). -/
theorem FreqAt.step (h : FreqAt ps k r) (ht : truncatesAt ps k = false) :
    ∃ r', freqStep ps r = (r', some (periodAt ps (k + 1))) ∧ FreqAt ps (k + 1) r' := by
  have hkeep := mt (truncatesAt_eq_true_iff ps k).mpr (by rw [ht]; exact Bool.false_ne_true)
  simp only [freqStep, h.period, h.fslide, h.fdslide, h.maxperiod, ← slideAt_succ]
  by_cases hover : fgt (fmul (periodAt ps k) (slideAt ps (k + 1))) (maxPeriod ps) = true
  · have hperiod : periodAt ps (k + 1) = maxPeriod ps := if_pos hover
    rw [if_pos hover, if_neg fun hlimit => hkeep ⟨hover, hlimit⟩, hperiod]
    exact ⟨_, rfl, hperiod.symm, rfl, rfl, rfl⟩
  · have hperiod : periodAt ps (k + 1) = fmul (periodAt ps k) (slideAt ps (k + 1)) := if_neg hover
    rw [if_neg hover, hperiod]
    exact ⟨_, rfl, hperiod.symm, rfl, rfl, rfl⟩

/-- The recurrence from element `k` on: the periods up to the first truncation. -/
theorem FreqAt.freqPrefix (h : FreqAt ps k r) (n : Nat) :
    freqPrefix ps n r =
      ((List.range' k n).takeWhile fun j => !truncatesAt ps j).map fun j => periodAt ps (j + 1) := by
  induction n generalizing k r with
  | zero => rfl
  | succ n ih =>
    rw [List.range'_succ, Machine.freqPrefix]
    cases ht : truncatesAt ps k with
    | true =>
      obtain ⟨r', hstep⟩ := h.step_truncated ht
      simp [hstep, ht]
    | false =>
      obtain ⟨r', hstep, hnext⟩ := h.step ht
      simp [hstep, ht, ih hnext]

end

/-- The first `n` elements of the recurrence, up to the first truncation, as they are stored (R163, R164). -/
def storedPeriods (s : State) (n : Nat) : List F64 :=
  storeFrom (freeNaN s) 0
    (((List.range n).takeWhile fun j => !truncatesAt s.ps j).map fun j => periodAt s.ps (j + 1))

theorem storedPeriods_eq (s : State) (n len : Nat) (rep : Option Nat) :
    storedPeriods s n = storeFrom (freeNaN s) 0 (freqPrefix s.ps n (freqInit s.ps len rep)) := by
  rw [(freqAt_freqInit s.ps len rep).freqPrefix, storedPeriods, List.range_eq_range']

/-- A list of the indices below `n` taken while a test holds ends at the first index that fails it. -/
theorem takeWhile_range {p : Nat → Bool} {n k : Nat} (hk : k ≤ n) (hbefore : ∀ j < k, p j = true)
    (hend : k < n → p k = false) : (List.range n).takeWhile p = List.range k := by
  obtain ⟨m, rfl⟩ := Nat.exists_eq_add_of_le hk
  rw [List.range_add, List.takeWhile_append_of_pos fun j hj => hbefore j (List.mem_range.mp hj)]
  cases m with
  | zero => simp
  | succ m => simp [List.range_succ_eq_map, hend (by omega)]

/-- The elements before index `k`, where the limit truncates none of them, and truncates element `k` if it is asked for. -/
theorem storedPeriods_spec {s : State} {n k : Nat} (hk : k ≤ n) (hbefore : ∀ j < k, truncatesAt s.ps j = false)
    (hend : k < n → truncatesAt s.ps k = true) :
    (storedPeriods s n).length = k ∧
      ∀ j < k, (storedPeriods s n)[j]? = some (stored s j (periodAt s.ps (j + 1))) := by
  have hrange := takeWhile_range (p := fun j => !truncatesAt s.ps j) hk
    (fun j hj => by rw [hbefore j hj]; rfl) (fun hlt => by rw [hend hlt]; rfl)
  rw [storedPeriods, hrange]
  refine ⟨by rw [storeFrom_length, List.length_map, List.length_range], fun j hj => ?_⟩
  rw [storeFrom_stored, List.getElem?_map, List.getElem?_range hj]
  rfl

/-! The tiling (R165). -/

/-- The tiling from place `d` of the list on: the list over and over. -/
theorem getElem?_tile_drop {whole : List F64} (hwhole : 0 < whole.length) {n i d : Nat} (hi : i < n)
    (hd : d ≤ whole.length) : (tile whole (whole.drop d) n)[i]? = whole[(d + i) % whole.length]? := by
  induction n generalizing i d with
  | zero => omega
  | succ n ih =>
    rcases Nat.lt_or_eq_of_le hd with hlt | rfl
    · rw [List.drop_eq_getElem_cons hlt, tile]
      cases i with
      | zero => exact (List.getElem?_eq_getElem hlt).symm.trans (by rw [Nat.add_zero, Nat.mod_eq_of_lt hlt])
      | succ i =>
        rw [List.getElem?_cons_succ, ih (by omega) hlt]
        congr 2
        omega
    · rw [List.drop_length, Nat.add_mod_left]
      obtain ⟨x, xs, rfl⟩ := List.exists_cons_of_length_pos hwhole
      cases i with
      | zero => rw [Nat.zero_mod]; rfl
      | succ i =>
        have hnext := ih (i := i) (d := 1) (by omega) (by simp)
        rwa [Nat.add_comm 1 i] at hnext

/-- A list followed by its tiling is the list over and over. -/
theorem getElem?_append_tile (pre : List F64) {n k : Nat} (hpre : 0 < pre.length) (hk : k < pre.length + n) :
    (pre ++ tile pre pre n)[k]? = pre[k % pre.length]? := by
  by_cases hlt : k < pre.length
  · rw [List.getElem?_append_left hlt, Nat.mod_eq_of_lt hlt]
  · have hle : pre.length ≤ k := not_lt.mp hlt
    have htile := getElem?_tile_drop hpre (n := n) (i := k - pre.length) (d := 0) (by omega) (Nat.zero_le _)
    rw [List.drop_zero, Nat.zero_add] at htile
    rw [List.getElem?_append_right hle, htile, Nat.mod_eq_sub_mod hle]

/-! The track. -/

theorem freqSpan_freqInit (ps : ParamSet) (len : Nat) (rep : Option Nat) :
    freqSpan (freqInit ps len rep) = min (rep.getD len) len := by
  cases rep with
  | none => exact (Nat.min_self len).symm
  | some r => rfl

theorem freqTrack_freqInit (s : State) {len n : Nat} {rep : Option Nat} (hn : n = min (rep.getD len) len) :
    freqTrack (freeNaN s) s.ps (freqInit s.ps len rep) =
      if (storedPeriods s n).length < n then storedPeriods s n
      else storedPeriods s n ++ tile (storedPeriods s n) (storedPeriods s n) (len - n) := by
  rw [storedPeriods_eq s n len rep, hn, ← freqSpan_freqInit s.ps]
  rfl

/-- A track that the limit truncates at element `k` has the `k` periods before it (R164). -/
theorem freqTrack_truncated {s : State} {len k : Nat} {rep : Option Nat} (hk : k < min (rep.getD len) len)
    (ht : truncatesAt s.ps k = true) (hbefore : ∀ j < k, truncatesAt s.ps j = false) :
    (freqTrack (freeNaN s) s.ps (freqInit s.ps len rep)).length = k ∧
      ∀ j < k, (freqTrack (freeNaN s) s.ps (freqInit s.ps len rep))[j]? = some (stored s j (periodAt s.ps (j + 1))) := by
  have hspec := storedPeriods_spec hk.le hbefore fun _ => ht
  rw [freqTrack_freqInit s rfl, if_pos (hspec.1.trans_lt hk)]
  exact hspec

/-- Any other track has its full length and repeats the elements the recurrence was asked for (R165). -/
theorem freqTrack_full {s : State} {len n : Nat} {rep : Option Nat} (hn : n = min (rep.getD len) len)
    (hpos : 0 < len → 0 < n) (hall : ∀ k < n, truncatesAt s.ps k = false) :
    (freqTrack (freeNaN s) s.ps (freqInit s.ps len rep)).length = len ∧
      ∀ k < len, (freqTrack (freeNaN s) s.ps (freqInit s.ps len rep))[k]? =
        some (stored s (k % n) (periodAt s.ps (k % n + 1))) := by
  obtain ⟨hlen, helem⟩ := storedPeriods_spec le_rfl hall fun h => absurd h (lt_irrefl n)
  have hle : n ≤ len := hn.trans_le (Nat.min_le_right ..)
  rw [freqTrack_freqInit s hn, if_neg hlen.not_lt]
  rcases Nat.eq_zero_or_pos len with rfl | hlen0
  · obtain rfl : n = 0 := Nat.le_zero.mp hle
    rw [List.eq_nil_of_length_eq_zero hlen]
    exact ⟨rfl, fun k hk => absurd hk (Nat.not_lt_zero k)⟩
  · have hn0 := hpos hlen0
    refine ⟨?_, fun k hk => ?_⟩
    · rw [List.length_append, tile_length _ _ _ (List.ne_nil_of_length_pos (hlen.symm ▸ hn0)), hlen]
      omega
    · rw [getElem?_append_tile _ (hlen.symm ▸ hn0) (by omega), hlen, helem _ (Nat.mod_lt k hn0)]

/-- FREQ's result where the lengths are defined and fit and `R` is `rep`. -/
theorem freq_result {s : State} {la ls ld : Int} {rep : Option Nat} (hlens : phaseLens 44100 s.ps = some (la, ls, ld))
    (hfit : 8 * (la + ls + ld) ≤ (s.maxLen : Int)) (hrep : repeatPeriod s.ps = .ok rep) :
    Stage.freq.result s =
      .ok (.track (freqTrack (freeNaN s) s.ps (freqInit s.ps (la + ls + ld).toNat rep)), s.entropyPos) := by
  rw [Stage.result, (freqStage_eq_ok_iff ..).mpr ⟨la, ls, ld, rep, hlens, hfit, hrep, rfl⟩]
  rfl

theorem mod_min_of_lt {k r n : Nat} (h : k < n) : k % min r n = k % r := by
  rcases Nat.le_total r n with hle | hle
  · rw [Nat.min_eq_left hle]
  · rw [Nat.min_eq_right hle, Nat.mod_eq_of_lt h, Nat.mod_eq_of_lt (h.trans_le hle)]

/-- Settles O25. -/
theorem freqTrack : Obligations.FreqTrack := by
  intro s la ls ld rep hf hlens hfit hrep
  have hperiod : repeatPeriod s.ps = .ok rep := by
    rcases hrep with ⟨hzero, rfl⟩ | ⟨hne, r, hr, -, rfl⟩
    · exact repeatPeriod_of_zero hzero
    · exact repeatPeriod_of_some hne hr
  have hpos : 0 < (la + ls + ld).toNat → 0 < min (rep.getD (la + ls + ld).toNat) (la + ls + ld).toNat := by
    intro hlen
    rcases hrep with ⟨-, rfl⟩ | ⟨-, r, -, hr, rfl⟩
    · exact lt_min hlen hlen
    · exact lt_min (Int.pos_iff_toNat_pos.mp hr) hlen
  obtain ⟨hexec, hcompletes⟩ := exec_stage_completes hf (freq_result hlens hfit hperiod)
  refine ⟨_, _, hexec, hcompletes, rfl, fun hall => ?_, fun k hkr hk ht hbefore =>
    freqTrack_truncated (lt_min hkr hk) ht hbefore⟩
  obtain ⟨hlen, helem⟩ := freqTrack_full rfl hpos fun k hk => hall k (lt_min_iff.mp hk).1 (lt_min_iff.mp hk).2
  refine ⟨hlen, fun k hk => ?_⟩
  rw [helem k hk, mod_min_of_lt hk]
  cases rep with
  | none => rw [Option.getD_none, Nat.mod_eq_of_lt hk]
  | some r => rfl

/-! The length property and the worked example (R167). -/

/-- A limit not above 0 truncates nothing (R164). -/
theorem truncatesAt_of_no_limit {ps : ParamSet} (h : fgt ps.freqLimit lit0 = false) (k : Nat) :
    truncatesAt ps k = false := by
  rw [truncatesAt, h, Bool.and_false]

/-- Without a limit FREQ's track has its full length, with a repeat or without one. -/
theorem exec_freq_full_length {s : State} {la ls ld : Int} (hf : s.flt = none)
    (hlens : phaseLens 44100 s.ps = some (la, ls, ld)) (hfit : 8 * (la + ls + ld) ≤ (s.maxLen : Int))
    (hlimit : fgt s.ps.freqLimit lit0 = false)
    (hrep : feq s.ps.repeatSpeed lit0 = true ∨ ∃ r, floorI (delayArg s.ps.repeatSpeed) = some r ∧ 0 < r) :
    ∃ (t : State) (l : List F64), exec .freq s = .next t ∧ Completes s t 2 (.track l) ∧
      l.length = (la + ls + ld).toNat := by
  have hcase : ∃ rep : Option Nat, (feq s.ps.repeatSpeed lit0 = true ∧ rep = none) ∨
      (feq s.ps.repeatSpeed lit0 = false ∧
        ∃ r, floorI (delayArg s.ps.repeatSpeed) = some r ∧ 0 < r ∧ rep = some r.toNat) := by
    cases hzero : feq s.ps.repeatSpeed lit0 with
    | true => exact ⟨none, .inl ⟨rfl, rfl⟩⟩
    | false =>
      obtain ⟨r, hr, hpos⟩ := hrep.resolve_left (by rw [hzero]; exact Bool.false_ne_true)
      exact ⟨some r.toNat, .inr ⟨rfl, r, hr, hpos, rfl⟩⟩
  obtain ⟨rep, hrep⟩ := hcase
  obtain ⟨t, l, hexec, hcompletes, -, hfull, -⟩ := freqTrack s la ls ld rep hf hlens hfit hrep
  exact ⟨t, l, hexec, hcompletes, (hfull fun k _ _ => truncatesAt_of_no_limit hlimit k).1⟩

theorem stored_of_not_isNaN (s : State) (u : Nat) {y : F64} (h : isNaN y = false) : stored s u y = y := by
  rw [stored, h, if_neg Bool.false_ne_true]

/-- The parameters that the worked example gives (R167). -/
structure WorkedExample (ps : ParamSet) : Prop where
  envAttack : ps.envAttack = 0
  envSustain : ps.envSustain = 0x3FD3333333333333
  envDecay : ps.envDecay = 0x3FD999999999999A
  baseFreq : ps.baseFreq = 0x3FD3333333333333
  freqLimit : ps.freqLimit = 0
  freqRamp : ps.freqRamp = 0
  freqDramp : ps.freqDramp = 0
  repeatSpeed : ps.repeatSpeed = 0

section
variable {ps : ParamSet} (h : WorkedExample ps)
include h

theorem WorkedExample.phaseLens : phaseLens 44100 ps = some (0, 9000, 16000) := by
  have hlens : floorI (phaseArg 44100 0) = some 0 ∧ floorI (phaseArg 44100 0x3FD3333333333333) = some 9000 ∧
      floorI (phaseArg 44100 0x3FD999999999999A) = some 16000 := by decide +kernel
  obtain ⟨ha, hs, hd⟩ := hlens
  rw [Safety.phaseLens, h.envAttack, h.envSustain, h.envDecay, ha, hs, hd]

/-- Both ramps are 0, so the slide stays 1. -/
theorem WorkedExample.slideAt (k : Nat) : slideAt ps k = lit1 := by
  induction k with
  | zero =>
    have hstart : fsub lit1 (fmul (cube 0) lit0_01) = lit1 := by decide +kernel
    rw [← hstart, ← h.freqRamp]
    rfl
  | succ k ih =>
    rw [slideAt_succ, ih, h.freqDramp]
    decide +kernel

/-- A slide of 1 leaves the period where it starts, below the greatest period. -/
theorem WorkedExample.periodAt (k : Nat) : periodAt ps k = 0x40912B9AB9AB9ABA := by
  induction k with
  | zero =>
    rw [Safety.periodAt, startPeriod, h.baseFreq]
    decide +kernel
  | succ k ih =>
    rw [Safety.periodAt, ih, h.slideAt, maxPeriod, h.freqLimit]
    decide +kernel

end

/-- Settles O26. -/
theorem freqLength : Obligations.FreqLength := by
  constructor
  · intro s la ls ld hf hlens hfit hlimit hrep
    obtain ⟨t, l, hexec, hcompletes, hlen⟩ := exec_freq_full_length hf hlens hfit hlimit hrep
    exact ⟨t, l, hexec, hcompletes, by rw [hlen, Int.ofNat_toNat, max_comm]⟩
  · intro s hf hmax hattack hsustain hdecay hbase hlimit hramp hdramp hrep
    have h : WorkedExample s.ps := ⟨hattack, hsustain, hdecay, hbase, hlimit, hramp, hdramp, hrep⟩
    have hzero : feq s.ps.repeatSpeed lit0 = true := by rw [hrep]; decide
    have hnone : ∀ k, truncatesAt s.ps k = false := truncatesAt_of_no_limit (by rw [hlimit]; decide)
    obtain ⟨t, l, hexec, hcompletes, -, hfull, -⟩ :=
      freqTrack s 0 9000 16000 none hf h.phaseLens (by omega) (.inl ⟨hzero, rfl⟩)
    obtain ⟨hlen, helem⟩ := hfull fun k _ _ => hnone k
    have hconst : l = List.replicate 25000 0x40912B9AB9AB9ABA := by
      refine List.eq_replicate_iff.mpr ⟨hlen, fun x hx => ?_⟩
      obtain ⟨k, hk⟩ := List.mem_iff_getElem?.mp hx
      obtain ⟨hlt, -⟩ := List.getElem?_eq_some_iff.mp hk
      rw [helem k (hlt.trans_eq hlen), h.periodAt, stored_of_not_isNaN s k (by decide)] at hk
      exact (Option.some.inj hk).symm
    refine ⟨?_, ?_, ?_, h.phaseLens, t, hexec, hconst ▸ hcompletes⟩
    · rw [hsustain]; decide +kernel
    · rw [hsustain]; decide +kernel
    · rw [hdecay]; decide +kernel

end Sys2Proof.Proofs
end

section
/-! PROOFS. RUN of a sound of length 0: every stage completes on an empty buffer, and OSC draws its initial fill for the Noise shape (R166, R231, R357). -/

namespace Sys2Proof.Proofs

open Machine Safety Laws

/-- The latched parameters give a sound of length 0 that no stage faults on (R166 (a)). -/
structure EmptySound (ps : ParamSet) : Prop where
  nominal : phaseLens 44100 ps = some (0, 0, 0)
  target : phaseLens ps.sampleRate ps = some (0, 0, 0)
  repeatDefined : feq ps.repeatSpeed lit0 = true ∨ ∃ r, floorI (delayArg ps.repeatSpeed) = some r
  cutoffDefined : feq ps.arpMod lit0 = true ∨ ∃ a, floorI (delayArg ps.arpSpeed) = some a
  shape : ps.waveType ≤ 5

/-- A state of the run of an empty sound from `s`: no fault, from FREQ on an empty buffer of the kind of `SP`, and from OSC on
the 32 draws of the Noise shape (R231 (a)). -/
structure EmptyRun (s u : State) : Prop where
  flt : u.flt = none
  buf : 2 ≤ u.sp.toNat → bufMatches u.sp u.buf = true ∧ bufLen u.buf = 0
  frame : StageFrame s u
  entropyPos : u.entropyPos = s.entropyPos + if 7 ≤ u.sp.toNat ∧ s.ps.waveType = 3 then 32 else 0

theorem emptyRun_start {s : State} (hf : s.flt = none) (hsp : s.sp = 1) : EmptyRun s s where
  flt := hf
  buf := by rw [hsp]; exact fun h => absurd h (by decide)
  frame := ⟨rfl, rfl, rfl, rfl, rfl, rfl, rfl⟩
  entropyPos := by rw [hsp, if_neg fun h => absurd h.1 (by decide)]; rfl

theorem StageFrame.trans {s t u : State} (h : StageFrame s t) (h' : StageFrame t u) : StageFrame s u where
  p := h'.p.trans h.p
  ps := h'.ps.trans h.ps
  bufIdx := h'.bufIdx.trans h.bufIdx
  maxLen := h'.maxLen.trans h.maxLen
  pending := h'.pending.trans h.pending
  answer := h'.answer.trans h.answer
  freeReads := h'.freeReads.trans h.freeReads

/-! Empty buffers. -/

theorem realElems_of_bufLen {b : Buf} (h : bufLen b = 0) : realElems b = [] := by
  cases b with
  | track l => exact List.eq_nil_of_length_eq_zero h
  | signal l => exact List.eq_nil_of_length_eq_zero h
  | _ => rfl

theorem outLen_zero (g : Stage) (ps : ParamSet) : g.outLen ps 0 = 0 := by
  cases g with
  | compress => exact Nat.zero_div _
  | _ => rfl

/-! One stage. -/

/-- A stage has what it needs: an empty buffer has no element to fault on. -/
theorem EmptyRun.stageReady {s u : State} {g : Stage} (h : EmptyRun s u) (hs : EmptySound s.ps) (hsp : g.code = u.sp) :
    stageReady u = true := by
  have hreal : 2 ≤ g.code.toNat → realElems u.buf = [] := fun h2 => realElems_of_bufLen (h.buf (hsp ▸ h2)).2
  unfold Safety.stageReady
  rw [← hsp]
  cases g with
  | freq =>
    have hdefined : feq u.ps.repeatSpeed lit0 = true ∨ (floorI (delayArg u.ps.repeatSpeed)).isSome = true := by
      rw [h.frame.ps]
      exact hs.repeatDefined.imp_right Option.isSome_iff_exists.mpr
    have hlens : phaseLens Config.nominalRate u.ps = some (0, 0, 0) := by rw [h.frame.ps]; exact hs.nominal
    change freqReady u = true
    simp [freqReady, hlens, hdefined]
  | arp =>
    have hdefined : feq u.ps.arpMod lit0 = true ∨ (floorI (delayArg u.ps.arpSpeed)).isSome = true := by
      rw [h.frame.ps]
      exact hs.cutoffDefined.imp_right Option.isSome_iff_exists.mpr
    exact (Bool.or_eq_true ..).mpr hdefined
  | vib => rfl
  | quant =>
    change quantReady u = true
    rw [quantReady, hreal (by decide)]; rfl
  | super => rfl
  | osc => exact decide_eq_true (h.frame.ps ▸ hs.shape)
  | filt => rfl
  | phaser =>
    change phaserReady Config.choices u.ps (realElems u.buf).length = true
    rw [hreal (by decide)]; rfl
  | compress => rfl
  | env =>
    have hlens : phaseLens u.ps.sampleRate u.ps = some (0, 0, 0) := by rw [h.frame.ps]; exact hs.target
    change envReady u = true
    rw [envReady, hlens, hreal (by decide)]; rfl
  | digit =>
    change digitReady u = true
    rw [digitReady, hreal (by decide)]; rfl

/-- The stage's buffer is empty, and of the next kind. -/
theorem EmptyRun.result_empty {s u : State} {g : Stage} {b : Buf} {pos : Nat} (h : EmptyRun s u) (hs : EmptySound s.ps)
    (hsp : g.code = u.sp) (hr : g.result u = .ok (b, pos)) : bufMatches (g.code + 1) b = true ∧ bufLen b = 0 := by
  by_cases hg : g = .freq
  · subst hg
    obtain ⟨la, ls, ld, hlens, -, hlen⟩ := freq_result_length hr
    rw [h.frame.ps, hs.nominal] at hlens
    cases hlens
    obtain ⟨_, _, _, _, _, _, _, rfl⟩ := (freqStage_eq_ok_iff ..).mp (atPos_eq_ok hr).1
    exact ⟨rfl, Nat.le_zero.mp hlen⟩
  · have h2 : 2 ≤ g.code.toNat := by
      cases g with
      | freq => exact absurd rfl hg
      | _ => decide
    rw [hsp] at h2
    obtain ⟨hkind, hlen⟩ := h.buf h2
    obtain ⟨hkind', hlen'⟩ := g.result_shape hr (hsp ▸ hkind)
    exact ⟨hkind', by rw [hlen' hg, hlen, outLen_zero]⟩

/-- OSC's initial fill with no element to play (R231 (a)). -/
theorem osc_draws_of_empty {u : State} {b : Buf} {pos : Nat} (hbuf : u.buf = .itrack []) (hwave : u.ps.waveType = 3)
    (hr : Stage.osc.result u = .ok (b, pos)) : pos = u.entropyPos + 32 := by
  obtain ⟨ys, hres, -⟩ := osc_result_noise hbuf hwave
  rw [hres] at hr
  cases hr
  rfl

/-- The position of the entropy source after the stage. -/
theorem EmptyRun.result_pos {s u : State} {g : Stage} {b : Buf} {pos : Nat} (h : EmptyRun s u) (hsp : g.code = u.sp)
    (hr : g.result u = .ok (b, pos)) :
    pos = s.entropyPos + if 7 ≤ (g.code + 1).toNat ∧ s.ps.waveType = 3 then 32 else 0 := by
  have hpos := h.entropyPos
  rw [← hsp] at hpos
  rw [g.code_succ]
  by_cases hdraw : g = .osc ∧ s.ps.waveType = 3
  · obtain ⟨rfl, hwave⟩ := hdraw
    obtain ⟨hkind, hlen⟩ := h.buf (by rw [← hsp]; decide)
    obtain ⟨l, hl, -⟩ := itrack_of_bufMatches hkind (by rw [← hsp]; decide) (by rw [← hsp]; decide)
    rw [hl] at hlen
    rw [List.eq_nil_of_length_eq_zero hlen] at hl
    rw [if_neg fun h7 => absurd h7.1 (by decide)] at hpos
    rw [osc_draws_of_empty hl (h.frame.ps ▸ hwave) hr, hpos, if_pos ⟨by decide, hwave⟩]
  · have hsame : pos = u.entropyPos := by
      refine (g.result_pos hr).resolve_right ?_
      rwa [h.frame.ps]
    have hiff : (7 ≤ g.code.toNat + 1 ∧ s.ps.waveType = 3) ↔ (7 ≤ g.code.toNat ∧ s.ps.waveType = 3) := by
      refine and_congr_left fun hwave => ?_
      have hne : g.code.toNat ≠ 6 := by
        cases g with
        | osc => exact absurd ⟨rfl, hwave⟩ hdraw
        | _ => decide
      omega
    rw [hsame, hpos]
    simp only [hiff]

/-- A run of an empty sound takes the stage at `SP` and goes on. -/
theorem EmptyRun.step {s u : State} (h : EmptyRun s u) (hs : EmptySound s.ps) (h1 : 1 ≤ u.sp.toNat)
    (h2 : u.sp.toNat ≤ 11) : ∃ t, StageStep u t ∧ EmptyRun s t ∧ t.sp.toNat = u.sp.toNat + 1 := by
  obtain ⟨g, hsp⟩ := Stage.exists_code h1 h2
  obtain ⟨b, pos, hr⟩ := Stage.exists_result hsp (h.stageReady hs hsp)
  refine ⟨commit u (g.code + 1) (.ok (b, pos)), ⟨g, h.flt, hsp.symm, by rw [hr]⟩, ?_, ?_⟩
  · exact {
      flt := h.flt
      buf := fun _ => h.result_empty hs hsp hr
      frame := StageFrame.trans h.frame (commit_frame ..)
      entropyPos := h.result_pos hsp hr }
  · rw [commit_ok_sp, g.code_succ, hsp]

/-! The run. -/

/-- A round of RUN with no fault latched is the step of the stage at `SP` (R357). -/
theorem runStages_succ {s t : State} (k : Nat) (h : StageStep s t) : runStages (k + 1) s = runStages k t := by
  have ⟨g, hf, hsp, _⟩ := h
  have hcode := g.code_bounds
  have harmed : flagArmed s = true := (flagArmed_iff s).mpr (by rw [hsp]; exact ⟨hcode.1, hcode.2, hf⟩)
  rw [runStages, if_pos harmed, (execStage_eq_next_iff hf).mpr h]

theorem EmptyRun.runStages {s u : State} {k : Nat} (h : EmptyRun s u) (hs : EmptySound s.ps) (h1 : 1 ≤ u.sp.toNat)
    (hk : u.sp.toNat + k = 12) : ∃ t, runStages k u = .next t ∧ EmptyRun s t ∧ t.sp.toNat = 12 := by
  induction k generalizing u with
  | zero => exact ⟨u, rfl, h, hk⟩
  | succ k ih =>
    obtain ⟨t, hstep, ht, hsp⟩ := h.step hs h1 (by omega)
    rw [runStages_succ k hstep]
    exact ih ht (by omega) (by omega)

/-- RUN from FREQ's code goes through all eleven stages (R357). -/
theorem exec_run_from_freq {s : State} (hf : s.flt = none) (hsp : s.sp = 1) : exec .run s = runStages 11 s := by
  have hf' : ¬ s.flt.isSome = true := by simp [hf]
  have hb : ¬ badSequence s = true := by rw [badSequence_iff, hsp]; decide
  rw [exec, execRun, if_neg hf', runCommand, if_neg hb]

/-- Settles O23, by the eleven stages on an empty buffer. -/
theorem runEmptySound : Obligations.RunEmptySound := by
  intro s hf hsp hnominal htarget hrepeat hcutoff hshape
  have hsound : EmptySound s.ps := ⟨hnominal, htarget, hrepeat, hcutoff, hshape⟩
  have hstart := emptyRun_start hf hsp
  obtain ⟨t, hrun, ht, ht12⟩ := hstart.runStages (k := 11) hsound (by rw [hsp]; decide) (by rw [hsp]; rfl)
  obtain ⟨hkind, hlen⟩ := ht.buf (by omega)
  have hpcm : t.buf = .pcm [] := by
    cases hb : t.buf with
    | pcm l => rw [hb] at hlen; rw [List.eq_nil_of_length_eq_zero hlen]
    | _ => simp [hb, bufMatches, ht12] at hkind
  refine ⟨t, (exec_run_from_freq hf hsp).trans hrun, BitVec.eq_of_toNat_eq ht12, ht.flt, hpcm, ht.frame, ?_⟩
  rw [ht.entropyPos, ht12]
  simp

end Sys2Proof.Proofs
end

section
/-! PROOFS. ARP and VIB, the pitch modulators: the element at each index of the modulated track in closed form, and the fault of ARP's cutoff (R180, R183, R184). -/

namespace Sys2Proof.Proofs

open Machine Safety Laws

/-! ARP (R180). -/

/-- The constants of ARP where the cutoff is `artime`: the factor is that of the sign of `arp_mod`. -/
def arpRegs (ps : ParamSet) (artime : Int) : ArpRegs where
  artime := artime
  factor := if fge ps.arpMod lit0 then fsub lit1 (fmul (sq ps.arpMod) lit0_9)
    else fadd lit1 (fmul (sq ps.arpMod) lit10)

theorem arpInit_of_some {ps : ParamSet} {artime : Int} (h : floorI (delayArg ps.arpSpeed) = some artime) :
    arpInit ps = .ok (arpRegs ps artime) := by
  have hfloor := (floorOrRaise_eq_ok_iff _ artime).mpr h
  rw [delayArg] at hfloor
  rw [arpInit, hfloor]; rfl

theorem arpInit_of_none {ps : ParamSet} (h : floorI (delayArg ps.arpSpeed) = none) :
    arpInit ps = .error (.badFloatToInt, 0) := by
  have hfloor := floorOrRaise_of_none h
  rw [delayArg] at hfloor
  rw [arpInit, hfloor]

/-- A cutoff past the end multiplies nothing. -/
theorem arpApply_of_length_le (nan : Nat → F64) {r : ArpRegs} {l : List F64} (h : (l.length : Int) ≤ r.artime) :
    arpApply nan r l = l := by
  have hle : l.length ≤ r.artime.toNat := by omega
  rw [arpApply, List.take_of_length_le hle, List.drop_of_length_le hle, List.map_nil, storeFrom, List.append_nil]

/-- Before the cutoff an element is untouched, from there on it is multiplied once. -/
theorem getElem?_arpApply (s : State) (r : ArpRegs) {l : List F64} {i : Nat} {x : F64} (hx : l[i]? = some x) :
    (arpApply (freeNaN s) r l)[i]? = some (if (i : Int) < r.artime then x else stored s i (fmul x r.factor)) := by
  obtain ⟨hlen, -⟩ := List.getElem?_eq_some_iff.mp hx
  by_cases hi : (i : Int) < r.artime
  · have hlt : i < r.artime.toNat := by omega
    rw [if_pos hi, arpApply, List.getElem?_append_left (by rw [List.length_take]; omega), List.getElem?_take_of_lt hlt, hx]
  · obtain ⟨k, rfl⟩ := Nat.exists_eq_add_of_le (show r.artime.toNat ≤ i by omega)
    have htake : (l.take r.artime.toNat).length = r.artime.toNat := List.length_take_of_le (by omega)
    rw [if_neg hi, arpApply, List.getElem?_append_right (by omega), htake, Nat.add_sub_cancel_left,
      storeFrom_getElem?, List.getElem?_map, List.getElem?_drop, hx]
    rfl

theorem arpStage_identity (nan : Nat → F64) {ps : ParamSet} (b : Buf) (h : feq ps.arpMod lit0 = true) :
    arpStage nan ps b = .ok b := by
  rw [arpStage, if_pos h]

theorem arpStage_fault (nan : Nat → F64) {ps : ParamSet} (b : Buf) (h : feq ps.arpMod lit0 = false)
    (hr : floorI (delayArg ps.arpSpeed) = none) : arpStage nan ps b = .error (.badFloatToInt, 0) := by
  rw [arpStage, h, arpInit_of_none hr]; rfl

/-- The test of the cutoff against the length is no case of its own: past the end the factor meets no element. -/
theorem arpStage_modulated (nan : Nat → F64) {ps : ParamSet} {artime : Int} (l : List F64)
    (h : feq ps.arpMod lit0 = false) (hr : floorI (delayArg ps.arpSpeed) = some artime) :
    arpStage nan ps (.track l) = .ok (.track (arpApply nan (arpRegs ps artime) l)) := by
  rw [arpStage, h, if_neg Bool.false_ne_true, arpInit_of_some hr]
  by_cases hle : (l.length : Int) ≤ artime
  · exact (if_pos hle).trans (by rw [arpApply_of_length_le nan (r := arpRegs ps artime) hle])
  · exact if_neg hle

/-- Settles O29. -/
theorem arpFactor : Obligations.ArpFactor := by
  refine ⟨rfl, fun s l hf hbuf => ⟨fun hzero => ?_, fun hne hr => ?_, fun artime hne hr => ?_⟩⟩
  · have hresult : Stage.arp.result s = .ok (.track l, s.entropyPos) := by
      rw [Stage.result, hbuf, arpStage_identity _ _ hzero]; rfl
    obtain ⟨hexec, hcompletes⟩ := exec_stage_completes hf hresult
    exact ⟨_, hexec, hcompletes, rfl⟩
  · exact exec_stage_faults (g := .arp) hf (by rw [Stage.result, arpStage_fault _ _ hne hr]; rfl)
  · have hresult : Stage.arp.result s = .ok (.track (arpApply (freeNaN s) (arpRegs s.ps artime) l), s.entropyPos) := by
      rw [Stage.result, hbuf, arpStage_modulated _ l hne hr]; rfl
    obtain ⟨hexec, hcompletes⟩ := exec_stage_completes hf hresult
    refine ⟨_, _, hexec, hcompletes, rfl, arpApply_length ..,
      fun hle => arpApply_of_length_le _ (r := arpRegs s.ps artime) hle, fun i x hx => getElem?_arpApply s _ hx⟩

/-! VIB (R183, R184). -/

/-- The registers of VIB before element `k`: the phase has advanced `k` times. -/
def vibRegsAt (ps : ParamSet) (k : Nat) : VibRegs :=
  { vibInit ps with vphase := Nat.repeat (fun p => fadd p (fmul (sq ps.vibSpeed) lit0_01)) k lit0 }

theorem vibRegsAt_zero (ps : ParamSet) : vibRegsAt ps 0 = vibInit ps := rfl

/-- What element `k` does to the registers: it advances the phase. -/
theorem vibRun_cons (sin : F64 → F64) (ps : ParamSet) (k : Nat) (x : F64) (xs : List F64) :
    vibRun sin (vibRegsAt ps k) (x :: xs) =
      fmul x (fadd lit1 (fmul (fmul ps.vibStrength litHalf) (sin (vibPhase ps k)))) ::
        vibRun sin (vibRegsAt ps (k + 1)) xs := rfl

theorem getElem?_vibRun (sin : F64 → F64) (ps : ParamSet) (k : Nat) (l : List F64) (i : Nat) :
    (vibRun sin (vibRegsAt ps k) l)[i]? =
      l[i]?.map fun x => fmul x (fadd lit1 (fmul (fmul ps.vibStrength litHalf) (sin (vibPhase ps (k + i))))) := by
  induction l generalizing k i with
  | nil => rfl
  | cons x xs ih =>
    rw [vibRun_cons]
    cases i with
    | zero => rfl
    | succ i => rw [List.getElem?_cons_succ, List.getElem?_cons_succ, ih, Nat.add_right_comm, Nat.add_assoc]

theorem vibStage_identity (c : Config.Choices) (nan : Nat → F64) {ps : ParamSet} (b : Buf)
    (h : feq ps.vibSpeed lit0 = true ∨ feq ps.vibStrength lit0 = true) : vibStage c nan ps b = .ok b := by
  rw [vibStage, if_pos (Bool.or_eq_true_iff.mpr h)]

theorem vibStage_modulated (c : Config.Choices) (nan : Nat → F64) {ps : ParamSet} (l : List F64)
    (h : ¬ (feq ps.vibSpeed lit0 = true ∨ feq ps.vibStrength lit0 = true)) :
    vibStage c nan ps (.track l) = .ok (.track (storeFrom nan 0 (vibRun c.sin (vibRegsAt ps 0) l))) := by
  rw [vibStage, if_neg (mt Bool.or_eq_true_iff.mp h), vibRegsAt_zero, realElems]

/-- Settles O30. -/
theorem vibModulates : Obligations.VibModulates := by
  refine ⟨rfl, fun s l hf hbuf => ?_⟩
  by_cases hid : feq s.ps.vibSpeed lit0 = true ∨ feq s.ps.vibStrength lit0 = true
  · have hresult : Stage.vib.result s = .ok (.track l, s.entropyPos) := by
      rw [Stage.result, hbuf, vibStage_identity _ _ _ hid]; rfl
    obtain ⟨hexec, hcompletes⟩ := exec_stage_completes hf hresult
    refine ⟨_, l, hexec, hcompletes, rfl, rfl, fun _ => rfl, fun hspeed hstrength => ?_⟩
    rw [hspeed, hstrength] at hid
    exact absurd hid (by decide)
  · have hresult : Stage.vib.result s =
        .ok (.track (storeFrom (freeNaN s) 0 (vibRun Config.choices.sin (vibRegsAt s.ps 0) l)), s.entropyPos) := by
      rw [Stage.result, hbuf, vibStage_modulated _ _ l hid]; rfl
    obtain ⟨hexec, hcompletes⟩ := exec_stage_completes hf hresult
    refine ⟨_, _, hexec, hcompletes, rfl, (storeFrom_length ..).trans (vibRun_length ..), fun h => absurd h hid,
      fun _ _ i x hx => ?_⟩
    rw [storeFrom_stored, getElem?_vibRun, hx, Nat.zero_add]; rfl

end Sys2Proof.Proofs
end

section
/-! PROOFS. SUPER: element `u` of the supersampled periods is the entry `u div 8` of the track (R203, R204). -/

namespace Sys2Proof.Proofs

open Machine Safety Laws

/-- Entry 0 of the track fills the first `S` elements; from there on the run is that of the rest of the track. -/
theorem getElem?_superRun (l : List Int) (u : Nat) : (superRun l)[u]? = l[u / 8]? := by
  induction l generalizing u with
  | nil => rfl
  | cons x xs ih =>
    have hlen : (List.replicate Config.supersample x).length = 8 := List.length_replicate
    rw [superRun]
    rcases Nat.lt_or_ge u 8 with hu | hu
    · rw [List.getElem?_append_left (hu.trans_eq hlen.symm), List.getElem?_replicate_of_lt hu, Nat.div_eq_of_lt hu,
        List.getElem?_cons_zero]
    · rw [List.getElem?_append_right (hlen.trans_le hu), hlen, ih, Nat.div_eq_sub_div (by decide) hu,
        List.getElem?_cons_succ]

/-- Settles O32. -/
theorem superReplicates : Obligations.SuperReplicates := by
  refine ⟨rfl, fun s l hf hbuf => ?_⟩
  have hresult : Stage.super.result s = .ok (.itrack (superRun l), s.entropyPos) := by
    rw [Stage.result, hbuf]; rfl
  obtain ⟨hexec, hcompletes⟩ := exec_stage_completes hf hresult
  exact ⟨_, superRun l, hexec, hcompletes, rfl, superRun_length l, fun u _ => getElem?_superRun l u⟩

end Sys2Proof.Proofs
end

section
/-! PROOFS. OSC element by element: an unrecognised wave shape, the registers before each element, and the shapes that make no draw in closed form (R220 to R228, R230). -/

namespace Sys2Proof.Proofs

open Machine Safety Laws

/-! The wave shape (R96, R230). -/

theorem waveShape_of_gt {code : Nat} (h : 5 < code) : waveShape code = none := by
  unfold waveShape
  split
  case h_7 => rfl
  all_goals omega

/-- Settles O33: the wave shape is tested before the buffer is looked at, and the info byte keeps its low 8 bits. -/
theorem oscBadWaveType : Obligations.OscBadWaveType := by
  intro s hf hwave
  have hinfo : BitVec.ofNat 8 (s.ps.waveType % 256) = BitVec.ofNat 8 s.ps.waveType :=
    BitVec.eq_of_toNat_eq (by rw [BitVec.toNat_ofNat, BitVec.toNat_ofNat, Nat.mod_mod])
  rw [hinfo]
  refine exec_stage_faults (g := .osc) hf ?_
  rw [Stage.result, oscStage, waveShape_of_gt hwave]

/-! The registers before each element (R220, R221). -/

/-- OSC's registers and the position of the entropy source after the first `u` elements, from `q` on. -/
def oscAfter (c : Config.Choices) (draw : Nat → F64) (shape : WaveShape) (q : OscRegs × Nat) (l : List Int) (u : Nat) :
    OscRegs × Nat :=
  (l.take u).foldl (fun q p => ((oscStep c draw shape q.1 q.2 p).1, (oscStep c draw shape q.1 q.2 p).2.1)) q

section
variable (c : Config.Choices) (draw : Nat → F64) (shape : WaveShape)

/-- Element `u` of a run is what its period makes of the registers that the elements before it leave. -/
theorem getElem?_oscRun (q : OscRegs × Nat) (l : List Int) (u : Nat) :
    (oscRun c draw shape q.1 q.2 l).1[u]? =
      l[u]?.map fun p =>
        (oscStep c draw shape (oscAfter c draw shape q l u).1 (oscAfter c draw shape q l u).2 p).2.2 := by
  induction l generalizing q u with
  | nil => rfl
  | cons p ps ih =>
    cases u with
    | zero => rfl
    | succ u => exact ih ((oscStep c draw shape q.1 q.2 p).1, (oscStep c draw shape q.1 q.2 p).2.1) u

theorem oscAfter_succ (q : OscRegs × Nat) {l : List Int} {u : Nat} (hu : u < l.length) :
    (oscAfter c draw shape q l (u + 1)).1 =
      (oscStep c draw shape (oscAfter c draw shape q l u).1 (oscAfter c draw shape q l u).2 l[u]).1 := by
  rw [oscAfter, ← List.take_concat_get' l u hu, List.foldl_append]
  rfl

theorem oscStep_ophase (r : OscRegs) (pos : Nat) (period : Int) :
    (oscStep c draw shape r pos period).1.ophase =
      if period ≤ r.ophase + 1 then (r.ophase + 1) % period else r.ophase + 1 := by
  simp only [oscStep, decide_eq_true_eq]

theorem oscAfter_ophase {q : OscRegs × Nat} (hq : q.1.ophase = 0) (l : List Int) (u : Nat) :
    (oscAfter c draw shape q l u).1.ophase = phaseAt l u := by
  rw [phaseAt, ← hq]
  exact (List.foldl_hom (fun q : OscRegs × Nat => q.1.ophase) fun q p => (oscStep_ophase c draw shape q.1 q.2 p).symm).symm

end

/-- The output of element `u` for a shape that makes no draw: the shape at the element's normalized phase (R222). -/
theorem oscStep_out_of_ne_noise {shape : WaveShape} (hs : shape ≠ .noise) (c : Config.Choices) (draw : Nat → F64)
    {r : OscRegs} (pos : Nat) {l : List Int} {u : Nat} (hr : r.ophase = phaseAt l u) (hu : u < l.length) :
    (oscStep c draw shape r pos (l.getD u 0)).2.2 = shapeOut c.sin shape (rampDuty shape r) r.noise (normPhase l u) := by
  rw [normPhase, phaseAt_succ l u hu]
  simp only [oscStep, refreshNoise_of_ne_noise hs, ite_self, decide_eq_true_eq, hr]

/-- OSC's registers before element `u` of the run in state `s`. -/
def oscRegsAt (s : State) (shape : WaveShape) (l : List Int) (u : Nat) : OscRegs :=
  (oscAfter Config.choices drawAt shape (oscInit Config.choices drawAt s.ps shape s.entropyPos s.loc.osc.noise) l u).1

/-- A shape that makes no draw completes where the entropy source is, with the shape's output at each normalized phase. -/
theorem exec_osc_of_ne_noise {s : State} {l : List Int} {shape : WaveShape} (hf : s.flt = none)
    (hbuf : s.buf = .itrack l) (hshape : waveShape s.ps.waveType = some shape) (hs : shape ≠ .noise) :
    ∃ (t : State) (y : List F64), exec .osc s = .next t ∧ Completes s t 7 (.signal y) ∧ t.entropyPos = s.entropyPos ∧
      y.length = l.length ∧ ∀ u < l.length,
        y[u]? = some (stored s u (shapeOut Config.choices.sin shape (rampDuty shape (oscRegsAt s shape l u))
          (oscRegsAt s shape l u).noise (normPhase l u))) := by
  have hresult : Stage.osc.result s = .ok (.signal (storeFrom (freeNaN s) 0 (oscRun Config.choices drawAt shape
      (oscInit Config.choices drawAt s.ps shape s.entropyPos s.loc.osc.noise).1
      (oscInit Config.choices drawAt s.ps shape s.entropyPos s.loc.osc.noise).2 l).1), s.entropyPos) := by
    simp only [Stage.result, oscStage, hshape, hbuf, intElems, oscRun_pos_of_ne_noise hs, oscInit,
      refreshNoise_of_ne_noise hs]
  obtain ⟨hexec, hcompletes⟩ := exec_stage_completes hf hresult
  refine ⟨_, _, hexec, hcompletes, rfl, (storeFrom_length ..).trans (oscRun_length ..), fun u hu => ?_⟩
  have hget : l[u]? = some (l.getD u 0) := by rw [List.getD_eq_getElem _ _ hu, List.getElem?_eq_getElem hu]
  rw [storeFrom_stored, getElem?_oscRun, hget, Option.map_some, Option.map_some,
    oscStep_out_of_ne_noise hs _ _ _ (oscAfter_ophase _ _ _ rfl l u) hu]
  rfl

/-! The shapes of the normalized phase alone (R224, R225, R227, R228). -/

/-- Settles O34: each of the four shapes is its formula, whatever the duty state and the noise table hold. -/
theorem oscShapes : Obligations.OscShapes := by
  intro s l hf hbuf hwave
  obtain ⟨shape, hshape, hs⟩ : ∃ shape, waveShape s.ps.waveType = some shape ∧ shape ≠ .noise := by
    rcases hwave with hw | hw | hw | hw <;> rw [hw] <;> exact ⟨_, rfl, by decide⟩
  obtain ⟨t, y, hexec, hcompletes, hpos, hlen, hy⟩ := exec_osc_of_ne_noise hf hbuf hshape hs
  have hdouble : fmul lit2 litPI = 0x401921FB54442D18 := literalTable.2.1
  refine ⟨t, y, hexec, hcompletes, hpos, hlen, fun u hu =>
    ⟨fun hw => ?_, fun hw => ?_, fun hw => ?_, fun hw => ?_⟩⟩ <;> rw [hw] at hshape <;> cases hshape
  · exact hy u hu
  · rw [hy u hu, shapeOut, hdouble]
  · exact hy u hu
  · exact hy u hu

/-! The Square shape (R223, R226). -/

/-- The duty state before element `u` has been ramped and clamped `u` times from `DUTY_INIT`, with a constant slide. -/
theorem oscRegsAt_square (s : State) (l : List Int) {u : Nat} (hu : u ≤ l.length) :
    (oscRegsAt s .square l u).sqDuty = dutyAt Config.choices s.ps u ∧
      (oscRegsAt s .square l u).dslide = fdiv (fmul (fsub lit0 s.ps.dutyRamp) lit0_00005) (toF 8) := by
  induction u with
  | zero => exact ⟨rfl, rfl⟩
  | succ u ih =>
    obtain ⟨hduty, hslide⟩ := ih (by omega)
    rw [oscRegsAt, oscAfter_succ _ _ _ _ hu]
    refine ⟨?_, hslide⟩
    rw [dutyAt, Nat.repeat, ← dutyAt, ← hduty, ← hslide]
    rfl

/-- Settles O35: the duty state is ramped once more before the comparison, and the output is no NaN. -/
theorem oscSquare : Obligations.OscSquare := by
  intro s l hf hbuf hwave
  obtain ⟨t, y, hexec, hcompletes, hpos, hlen, hy⟩ :=
    exec_osc_of_ne_noise (shape := .square) hf hbuf (by rw [hwave]; rfl) (by decide)
  refine ⟨t, y, hexec, hcompletes, hpos, hlen, fun u hu => ?_⟩
  obtain ⟨hduty, hslide⟩ := oscRegsAt_square s l hu.le
  have hramp : rampDuty .square (oscRegsAt s .square l u) = dutyAt Config.choices s.ps (u + 1) := by
    rw [rampDuty, hduty, hslide]; rfl
  rw [hy u hu, shapeOut, hramp, stored_of_not_isNaN]
  · rfl
  · split <;> decide

end Sys2Proof.Proofs
end

section
/-! PROOFS. The phase counter of OSC stays below the period, so the normalized phase is a datum from 0 to below 1 and the noise index is in its table (R221, R229). -/

namespace Sys2Proof.Proofs

open Machine Safety Laws

/-! The counter (R221). -/

/-- Incremented, and reduced where it reaches the period, the counter is below the period. -/
theorem counter_bounds {phase period : Int} (h0 : 0 ≤ phase) (hp : 1 ≤ period) :
    0 ≤ (if period ≤ phase + 1 then (phase + 1) % period else phase + 1) ∧
      (if period ≤ phase + 1 then (phase + 1) % period else phase + 1) < period := by
  split
  · exact ⟨Int.emod_nonneg _ (by omega), Int.emod_lt_of_pos _ (by omega)⟩
  · omega

theorem getD_mem {l : List Int} {u : Nat} (hu : u < l.length) : l.getD u 0 ∈ l := by
  rw [List.getD_eq_getElem _ _ hu]
  exact List.getElem_mem _

theorem phaseAt_nonneg {l : List Int} (hl : ∀ p ∈ l, 1 ≤ p) {u : Nat} (hu : u ≤ l.length) : 0 ≤ phaseAt l u := by
  induction u with
  | zero => exact le_rfl
  | succ u ih =>
    rw [phaseAt_succ l u hu]
    exact (counter_bounds (ih (by omega)) (hl _ (getD_mem hu))).1

theorem phaseAt_lt_period {l : List Int} (hl : ∀ p ∈ l, 1 ≤ p) {u : Nat} (hu : u < l.length) :
    phaseAt l (u + 1) < l.getD u 0 := by
  rw [phaseAt_succ l u hu]
  exact (counter_bounds (phaseAt_nonneg hl hu.le) (hl _ (getD_mem hu))).2

/-! Rounding between two data. -/

/-- Rounding does not cross a datum from below either: a number not above a datum is not rounded above it. -/
theorem ratValue_le_of_correctlyRounded {y z : F64} {r : ℝ} (hy : isFinite y = true) (hz : isFinite z = true)
    (h : CorrectlyRounded y r) (hrz : r ≤ ratValue z) : ratValue y ≤ ratValue z := by
  obtain ⟨-, -, -, hnear⟩ := (correctlyRounded_finite_iff hy r).mp h
  have hdist := (hnear z hz).1
  rw [abs_of_nonneg (sub_nonneg.mpr hrz)] at hdist
  have hreal : (ratValue y : ℝ) ≤ ratValue z := by linarith [le_abs_self ((ratValue y : ℝ) - r)]
  exact_mod_cast hreal

theorem ratValue_lit0 : ratValue lit0 = 0 := (ratValue_eq_zero_iff lit0).mpr (by decide)

/-- A number from 0 to a small datum is rounded to a finite datum from 0 to that datum. -/
theorem rounded_le_of_nonneg {y z : F64} {r : ℝ} (h : CorrectlyRounded y r) (hz : isFinite z = true)
    (hsmall : ratValue z < 2 ^ 53) (h0 : 0 ≤ r) (hrz : r ≤ ratValue z) :
    isFinite y = true ∧ 0 ≤ ratValue y ∧ ratValue y ≤ ratValue z := by
  have hsmall' : (ratValue z : ℝ) < 2 ^ 53 := by exact_mod_cast hsmall
  have hlt : |r| < 2 ^ 1024 - 2 ^ 970 :=
    (abs_of_nonneg h0).trans_lt ((hrz.trans_lt hsmall').trans overflow_threshold_large)
  have hy := (nearest_of_correctlyRounded h hlt).1
  have hlow := le_ratValue_of_correctlyRounded (z := lit0) hy (by decide) h (by rw [ratValue_lit0]; exact_mod_cast h0)
  exact ⟨hy, ratValue_lit0 ▸ hlow, ratValue_le_of_correctlyRounded hy hz h hrz⟩

/-! The normalized phase and the noise index (R220, R229). -/

/-- The greatest datum below 1.0. -/
def belowOne : F64 := 0x3FEFFFFFFFFFFFFF

/-- The greatest datum below 32.0. -/
def below32 : F64 := 0x403FFFFFFFFFFFFF

/-- The value of a datum whose integer in units of 2^-1074 is the fraction `n / d` of one. -/
theorem ratValue_of_scaled_mul {x : F64} {n d : Int} (hd : d ≠ 0) (h : scaled x * d = n * unitScale) :
    ratValue x = n / d := by
  have hunit : ((unitScale : Nat) : ℚ) ≠ 0 := Nat.cast_ne_zero.mpr unitScale_pos.ne'
  rw [ratValue_eq_div, div_eq_div_iff hunit (by exact_mod_cast hd)]
  exact_mod_cast h

theorem ratValue_belowOne : ratValue belowOne = 1 - 1 / 2 ^ 53 := by
  rw [ratValue_of_scaled_mul (n := 2 ^ 53 - 1) (d := 2 ^ 53) (by norm_num) (by decide +kernel)]
  norm_num

theorem ratValue_below32 : ratValue below32 = 32 * ratValue belowOne := by
  rw [ratValue_belowOne, ratValue_of_scaled_mul (n := 2 ^ 53 - 1) (d := 2 ^ 48) (by norm_num) (by decide +kernel)]
  norm_num

/-- A quotient of integers below 2^53 that is less than 1 is not above the greatest datum below 1.0. -/
theorem div_le_belowOne {i p : Int} (hi : i < p) (hp0 : 0 < p) (hp : p < 2 ^ 53) : (i : ℚ) / p ≤ ratValue belowOne := by
  have hp0' : (0 : ℚ) < p := by exact_mod_cast hp0
  have hp' : (p : ℚ) ≤ 2 ^ 53 := by exact_mod_cast hp.le
  have hi' : (i : ℚ) ≤ p - 1 := by exact_mod_cast Int.le_sub_one_of_lt hi
  rw [ratValue_belowOne, div_le_iff₀ hp0']
  linarith

/-- The normalized phase of a counter below the period is a finite datum from 0 to below 1.0 (R220). -/
theorem fdiv_toF_bounds {i p : Int} (h0 : 0 ≤ i) (hi : i < p) (hp : p < 2 ^ 53) :
    isFinite (fdiv (toF i) (toF p)) = true ∧ 0 ≤ ratValue (fdiv (toF i) (toF p)) ∧
      ratValue (fdiv (toF i) (toF p)) ≤ ratValue belowOne := by
  have hp0 : 0 < p := h0.trans_lt hi
  obtain ⟨hif, hiv⟩ := toF_exact i (by rw [abs_of_nonneg h0]; exact hi.trans hp)
  obtain ⟨hpf, hpv⟩ := toF_exact p (by rwa [abs_of_pos hp0])
  have hround := fdiv_correctlyRounded hif hpf (by rw [hpv]; exact_mod_cast hp0.ne')
  rw [hiv, hpv, ← Rat.cast_div] at hround
  refine rounded_le_of_nonneg hround (by decide) (by rw [ratValue_belowOne]; norm_num) ?_ ?_
  · exact Rat.cast_nonneg.mpr (div_nonneg (by exact_mod_cast h0) (by exact_mod_cast hp0.le))
  · exact Rat.cast_le.mpr (div_le_belowOne hi hp0 hp)

/-- A finite datum from 0 to below 1.0 selects one of the 32 entries of the noise table (R229). -/
theorem noiseIndex_of_bounds {x : F64} (hx : isFinite x = true) (h0 : 0 ≤ ratValue x)
    (h1 : ratValue x ≤ ratValue belowOne) : ∃ i : Int, floorI (fmul x lit32) = some i ∧ 0 ≤ i ∧ i < 32 := by
  have hround := fmul_correctlyRounded hx (y := lit32) (by decide)
  rw [ratValue_lit32, ← Rat.cast_mul] at hround
  have hlt : ratValue below32 < 32 := by rw [ratValue_below32, ratValue_belowOne]; norm_num
  obtain ⟨hfinite, hlow, hhigh⟩ := rounded_le_of_nonneg (z := below32) hround (by decide) (hlt.trans (by norm_num))
    (Rat.cast_nonneg.mpr (mul_nonneg h0 (by norm_num)))
    (Rat.cast_le.mpr (by rw [ratValue_below32, mul_comm 32]; exact mul_le_mul_of_nonneg_right h1 (by norm_num)))
  have hfloor0 : 0 ≤ ⌊ratValue (fmul x lit32)⌋ := Int.floor_nonneg.mpr hlow
  have hfloor32 : ⌊ratValue (fmul x lit32)⌋ < 32 := Int.floor_lt.mpr (by exact_mod_cast hhigh.trans_lt hlt)
  exact ⟨_, (floorI_eq_some_iff _ _).mpr ⟨hfinite, rfl, by omega, by omega⟩, hfloor0, hfloor32⟩

/-- Settles O37. -/
theorem oscPhase : Obligations.OscPhase := by
  refine ⟨fun c draw shape r pos period h0 hp => ?_, fun l u hu hl => ?_⟩
  · rw [oscStep_ophase]
    exact ⟨rfl, counter_bounds h0 hp⟩
  · have hpositive : ∀ p ∈ l, 1 ≤ p := fun p hp => by have := hl p hp; omega
    obtain ⟨hfinite, hlow, hhigh⟩ :=
      fdiv_toF_bounds (phaseAt_nonneg hpositive (u := u + 1) hu) (phaseAt_lt_period hpositive hu) (hl _ (getD_mem hu)).2
    exact noiseIndex_of_bounds hfinite hlow hhigh

end Sys2Proof.Proofs
end

section
/-! PROOFS. FILT, the filter pair: its recurrence element by element, and the low-pass bypass for the pattern of 1.0 (R250 to R252, R254). -/

namespace Sys2Proof.Proofs

open Machine Safety Laws

/-! One element (R252). -/

section
variable (r : FiltRegs) (x : F64)

/-- Lines (1) and (2) of R252, which stand before the bypass test. -/
theorem filtStep_advances :
    (filtStep r x).prevFltp = r.fltp ∧ (filtStep r x).fltw = clamp (fmul r.fltw r.fltwD) lit0 lit0_1 := by
  rw [filtStep, filtLowPass]
  split <;> exact ⟨rfl, rfl⟩

/-- An element leaves the constants of lines (2) and (3) as they are (R36). -/
theorem filtStep_keeps_constants : (filtStep r x).bypass = r.bypass ∧ (filtStep r x).fltwD = r.fltwD := by
  rw [filtStep, filtLowPass]
  split <;> exact ⟨rfl, rfl⟩

end

/-- Line (3) of R252 with the bypass: the low-pass output is the element and its velocity is `+0`. -/
theorem filtStep_of_bypass {r : FiltRegs} (h : r.bypass = true) (x : F64) :
    (filtStep r x).fltp = x ∧ (filtStep r x).fltdp = 0 := by
  have hlow : filtLowPass (filtAdvance r) x = { filtAdvance r with fltp := x, fltdp := lit0 } := if_pos h
  rw [filtStep, hlow]
  exact ⟨rfl, rfl⟩

/-! The elements in ascending order (R250). -/

/-- Element `u` of a run is the high-pass accumulator after the first `u + 1` elements. -/
theorem getElem?_filtRun (r : FiltRegs) {l : List F64} {u : Nat} (hu : u < l.length) :
    (filtRun r l)[u]? = some ((l.take (u + 1)).foldl filtStep r).yOut := by
  induction l generalizing r u with
  | nil => exact absurd hu (Nat.not_lt_zero u)
  | cons x xs ih =>
    cases u with
    | zero => rfl
    | succ u => exact ih (filtStep r x) (Nat.lt_of_succ_lt_succ hu)

theorem filtAfter_succ (c : Config.Choices) (ps : ParamSet) {l : List F64} {u : Nat} {x : F64} (hx : l[u]? = some x) :
    filtAfter c ps l (u + 1) = filtStep (filtAfter c ps l u) x := by
  rw [filtAfter, List.take_add_one, hx, List.foldl_append]
  rfl

/-- The root that R251 takes of the high-pass ramp is the eighth: `1.0 / toF(S)` is 0.125 exactly. -/
theorem one_div_supersample : fdiv lit1 (toF (Config.supersample : Int)) = 0x3FC0000000000000 := by decide +kernel

/-- Settles O38. -/
theorem filtRecurrence : Obligations.FiltRecurrence := by
  refine ⟨rfl, fun c ps => ?constants, fun r x => ?step, fun s l hf hbuf => ?stage⟩
  case constants =>
    refine ⟨rfl, rfl, rfl, rfl, rfl, rfl, rfl, rfl, ?_⟩
    rw [← one_div_supersample]
    rfl
  case step =>
    dsimp only
    rw [filtStep, filtLowPass, filtAdvance]
    cases hbypass : r.bypass <;> rfl
  case stage =>
    have hresult : Stage.filt.result s = .ok (.signal (storeFrom (freeNaN s) 0
        (filtRun (filtInit Config.choices s.ps) l)), s.entropyPos) := by
      rw [Stage.result, hbuf]; rfl
    obtain ⟨hexec, hcompletes⟩ := exec_stage_completes hf hresult
    refine ⟨_, _, hexec, hcompletes, rfl, (storeFrom_length ..).trans (filtRun_length ..), fun u hu => ?_⟩
    rw [storeFrom_stored, getElem?_filtRun _ hu]
    rfl

/-! The bypass (R254). -/

/-- The order of the data that are no NaN identifies no two patterns but those of the two zeros. -/
theorem eq_of_orderKey_eq {x y : F64} (h : orderKey x = orderKey y) (hy : orderKey y ≠ 0) : x = y := by
  have hx64 := x.isLt
  have hy64 := y.isLt
  apply BitVec.eq_of_toNat_eq
  simp only [orderKey, signBit_eq, decide_eq_true_eq] at h hy
  split_ifs at h hy <;> omega

/-- A datum compares equal to 1.0 only if it has the pattern of 1.0. -/
theorem feq_one_iff (x : F64) : feq x lit1 = true ↔ x = lit1 := by
  refine ⟨fun h => ?_, fun h => by rw [h]; decide⟩
  rw [feq, Bool.and_eq_true, decide_eq_true_eq] at h
  exact eq_of_orderKey_eq h.2 (by decide)

theorem filtInit_bypass_iff (c : Config.Choices) (ps : ParamSet) :
    (filtInit c ps).bypass = true ↔ ps.lpfFreq = 0x3FF0000000000000 := by
  rw [← lit1, ← feq_one_iff, filtInit, fne, Bool.not_not]

theorem filtAfter_constants (c : Config.Choices) (ps : ParamSet) (l : List F64) (u : Nat) :
    (filtAfter c ps l u).bypass = (filtInit c ps).bypass ∧ (filtAfter c ps l u).fltwD = (filtInit c ps).fltwD :=
  List.foldlRecOn (motive := fun r => r.bypass = (filtInit c ps).bypass ∧ r.fltwD = (filtInit c ps).fltwD)
    (l.take u) filtStep ⟨rfl, rfl⟩ fun r ⟨hbypass, hfltwD⟩ x _ =>
      ⟨(filtStep_keeps_constants r x).1.trans hbypass, (filtStep_keeps_constants r x).2.trans hfltwD⟩

/-- Settles O39: in bypass the low-pass output after an element is the element, which is what the next one remembers. -/
theorem filtBypass : Obligations.FiltBypass := by
  refine ⟨filtInit_bypass_iff, fun c ps l u x hlpf hx => ?_⟩
  have hbypass (v : Nat) : (filtAfter c ps l v).bypass = true :=
    (filtAfter_constants c ps l v).1.trans ((filtInit_bypass_iff c ps).mpr hlpf)
  obtain ⟨hprev, hfltw⟩ := filtStep_advances (filtAfter c ps l u) x
  obtain ⟨hfltp, hfltdp⟩ := filtStep_of_bypass (hbypass u) x
  rw [filtAfter_succ c ps hx, hprev, hfltw, (filtAfter_constants c ps l u).2]
  refine ⟨hfltp, hfltdp, ?_, rfl⟩
  cases u with
  | zero => rfl
  | succ u =>
    have hu : u < l.length := Nat.lt_of_succ_lt (List.getElem?_eq_some_iff.mp hx).1
    rw [filtAfter_succ c ps (List.getElem?_eq_getElem hu), (filtStep_of_bypass (hbypass u) _).1,
      if_neg u.succ_ne_zero, Nat.add_sub_cancel, List.getD_eq_getElem _ _ hu]

end Sys2Proof.Proofs
end

section
/-! PROOFS. PHASER is a delay line for every configuration of its two derivations (R292 to R294). -/

namespace Sys2Proof.Proofs

open Machine Safety Laws

theorem phaserOffset_eq (f : F64) : phaserOffset f =
    match truncI f with
    | some i => .ok (min i.natAbs 1023)
    | none => .error (.badFloatToInt, 0) := by
  cases h : truncI f with
  | some i => exact phaserOffset_of_some h
  | none => exact phaserOffset_of_none h

/-- PHASER's result: the delay line as it is stored where every offset is defined, its fault where one is not (R290). -/
theorem phaserStage_spec (c : Config.Choices) (nan : Nat → F64) (ps : ParamSet) (l : List F64) :
    (∃ y, phaserStage c nan ps (.signal l) = .ok (.signal y) ∧ y.length = l.length ∧
      ∀ (u : Nat) (x : F64), l[u]? = some x → ∃ i, truncI (phaserPhase c ps u) = some i ∧
        y[u]? = some (if isNaN (fadd x (delayed l u (offsetOf i))) then nan u
          else fadd x (delayed l u (offsetOf i)))) ∨
      phaserStage c nan ps (.signal l) = .error (.badFloatToInt, 0) ∧
        ∃ u < l.length, truncI (phaserPhase c ps u) = none := by
  rcases phaserRun_spec c ps l with ⟨ys, hys, helem⟩ | ⟨herr, hnone⟩
  · refine .inl ⟨storeFrom nan 0 ys, by rw [phaserStage, realElems, hys], ?_, fun u x hx => ?_⟩
    · rw [storeFrom_length, phaserRun_length _ _ _ hys]
    · obtain ⟨i, hi, hy⟩ := helem u x hx
      exact ⟨i, hi, by rw [storeFrom_getElem?, hy, Nat.zero_add]; rfl⟩
  · exact .inr ⟨by rw [phaserStage, realElems, herr], hnone⟩

/-- Settles O40: the stage completes or faults, and either outcome decides whether every offset is defined. -/
theorem phaserDelay : Obligations.PhaserDelay := by
  refine ⟨phaserOffset_eq, fun c nan ps l => ?_⟩
  rcases phaserStage_spec c nan ps l with ⟨y, hy, hlen, helem⟩ | ⟨herr, u, hu, hnone⟩
  · refine ⟨fun _ => ⟨y, hy, hlen, fun u x i hx hi => ?_⟩, fun ⟨u, hu, hnone⟩ => ?_⟩
    · obtain ⟨j, hj, hyu⟩ := helem u x hx
      obtain rfl : j = i := Option.some.inj (hj.symm.trans hi)
      exact hyu
    · obtain ⟨j, hj, -⟩ := helem u l[u] (List.getElem?_eq_getElem hu)
      exact absurd (hnone.symm.trans hj) (Option.some_ne_none j).symm
  · refine ⟨fun hdefined => ?_, fun _ => herr⟩
    exact absurd (hdefined u hu) (by rw [hnone]; exact Bool.false_ne_true)

end Sys2Proof.Proofs
end

section
/-! PROOFS. COMPRESS: output element `j` is the mean of the `j`-th group of the signal, its sum taken in ascending order from `+0` (R310, R311). -/

namespace Sys2Proof.Proofs

open Machine Safety Laws

/-- `N` with the two constants of the machine written out (R310). -/
theorem decimation_eq (ps : ParamSet) : decimation ps = 8 * (44100 / ps.sampleRate) := rfl

/-- The accumulator after a group is the left fold of the rounded addition over it. -/
theorem boxSum_acc (r : CompressRegs) (group : List F64) : (boxSum r group).acc = group.foldl fadd r.acc := by
  induction group generalizing r with
  | nil => rfl
  | cons x xs ih => exact ih { acc := fadd r.acc x }

theorem boxMean_eq (group : List F64) (n : Nat) :
    boxMean group n = fdiv (group.foldl fadd lit0) (toF (n : Int)) := by
  rw [boxMean, boxSum_acc]

/-- Each output element consumes `n` input elements, so element `j` is the mean of the group that starts at `j * n`. -/
theorem getElem?_decimate (n : Nat) {m j : Nat} (l : List F64) (hj : j < m) :
    (decimate n m l)[j]? = some (boxMean ((l.drop (j * n)).take n) n) := by
  induction m generalizing l j with
  | zero => exact absurd hj (Nat.not_lt_zero j)
  | succ m ih =>
    rw [decimate]
    cases j with
    | zero => rw [List.getElem?_cons_zero, Nat.zero_mul, List.drop_zero]
    | succ j =>
      rw [List.getElem?_cons_succ, ih (l.drop n) (Nat.lt_of_succ_lt_succ hj), List.drop_drop, Nat.succ_mul,
        Nat.add_comm n]

/-- Settles O42. -/
theorem compressMeans : Obligations.CompressMeans := by
  refine ⟨rfl, fun s l hf hbuf _ _ => ?_⟩
  rw [← decimation_eq]
  have hresult : Stage.compress.result s = .ok (.signal (storeFrom (freeNaN s) 0
      (decimate (decimation s.ps) (l.length / decimation s.ps) l)), s.entropyPos) := by
    rw [Stage.result, hbuf]; rfl
  obtain ⟨hexec, hcompletes⟩ := exec_stage_completes hf hresult
  refine ⟨_, _, hexec, hcompletes, rfl, (storeFrom_length ..).trans (decimate_length ..), fun j hj => ?_⟩
  rw [storeFrom_stored, getElem?_decimate _ l hj, Option.map_some, boxMean_eq]

end Sys2Proof.Proofs
end

section
/-! PROOFS. Commands and writes at the host port: what a write does at each address, which data are no command, and what LOADDEF writes (R351, R353, R359, R407). -/

namespace Sys2Proof.Proofs

open Machine Safety Laws

/-- Settles O5. -/
theorem stepRunsTransaction : Obligations.StepRunsTransaction := by
  intro s t rest i hp hdec _
  cases hdec
  exact step_of_transaction hp

/-- Settles O13. -/
theorem nopChangesNothing : Obligations.NopChangesNothing :=
  ⟨rfl, fun _ => rfl⟩

/-! The commands and the writes, with no fault latched. -/

section
variable {s : State} (hf : s.flt = none)
include hf

theorem exec_loaddef_eq : exec .loaddef s = .next (loadDefaults s) := if_neg (by simp [hf])

theorem exec_arm_eq : exec .arm s = .next (armBlock s) := if_neg (by simp [hf])

theorem exec_step_eq : exec .step s = stepCommand s := if_neg (by simp [hf])

theorem exec_run_eq : exec .run s = runCommand s := if_neg (by simp [hf])

theorem exec_wr_eq (addr : RegAddr) (data : Word) : exec (.wr addr data) s = writeRegister addr data s :=
  if_neg (by simp [hf])

/-- A write of an opcode to `CMD` is the command (R93, R359). -/
theorem exec_wr_cmd_of_opcode {data : Word} (h : data.toNat ≤ 5) :
    exec (.wr 0x20 data) s = exec (decodeCommand data) s := by
  rw [exec_wr_eq hf]
  rcases eq_opcode h with rfl | rfl | rfl | rfl | rfl | rfl
  · rfl
  · rfl
  · exact (exec_loaddef_eq hf).symm
  · exact (exec_arm_eq hf).symm
  · exact (exec_step_eq hf).symm
  · exact (exec_run_eq hf).symm

/-- A write of any other data to `CMD` is an illegal command (R407). -/
theorem exec_wr_cmd_of_illegal {data : Word} (h : 5 < data.toNat) :
    exec (.wr 0x20 data) s = .next (faulted s .illegalCommand (data.extractLsb' 0 8)) := by
  rw [exec_wr_eq hf, ← BitVec.setWidth_eq_extractLsb' (by decide)]
  change writeCommand data s = _
  unfold writeCommand
  split
  case h_7 => rfl
  all_goals omega

theorem exec_wr_param {addr : RegAddr} {k : Fin 26} (data : Word) (h : hostReg addr = .param k) :
    exec (.wr addr data) s = .next { s with p := writeParam s.p k data } := by
  rw [exec_wr_eq hf, writeRegister, h]

end

/-! The register map (R25). -/

theorem hostReg_eq_bufidx {addr : RegAddr} (h : hostReg addr = .bufidx) : addr = 0x26 := by
  revert addr; decide

theorem hostReg_of_param {addr : RegAddr} {k : Fin 26} (h : addr.toNat = k.val) : hostReg addr = .param k := by
  rw [hostReg_lt addr (h ▸ k.isLt)]
  simp only [h]

theorem hostReg_of_unmapped {addr : RegAddr} (h : unmappedAddr addr) : hostReg addr = .unmapped := by
  revert addr
  unfold unmappedAddr
  decide

/-- Where there is nothing to write, a write faults (R359, R408). -/
theorem exec_wr_of_no_target {s : State} {addr : RegAddr} (data : Word) (hf : s.flt = none)
    (h : unmappedAddr addr ∨ readOnlyAddr addr) :
    exec (.wr addr data) s = .next (faulted s .badRegisterAccess addr) := by
  rw [exec_wr_eq hf, writeRegister]
  unfold unmappedAddr readOnlyAddr at h
  split
  case h_1 k hk => have := hostReg_eq_param hk; omega
  case h_2 hc => cases hostReg_eq_cmd hc; exact absurd h (by decide)
  case h_3 hb => cases hostReg_eq_bufidx hb; exact absurd h (by decide)
  all_goals rfl

/-- Settles O11, by the register at the address. -/
theorem writeTable : Obligations.WriteTable := by
  intro s addr data hf
  refine ⟨fun k hk => ?param, ?command, ?illegal, ?bufidx, exec_wr_of_no_target data hf⟩
  case param =>
    refine ⟨_, exec_wr_param hf data (hostReg_of_param hk), rfl, ?_, fun j hj => ?_⟩
    · exact (writeParam_getElem ..).trans (if_pos rfl)
    · exact (writeParam_getElem ..).trans (if_neg hj.symm)
  case command =>
    rintro rfl i hi
    have hop : data.toNat ≤ 5 := Nat.le_of_lt_succ (List.getElem?_eq_some_iff.mp hi).1
    rw [decodeCommand_of_opcode hop] at hi
    cases hi
    exact exec_wr_cmd_of_opcode hf hop
  case illegal =>
    rintro rfl h
    exact exec_wr_cmd_of_illegal hf h
  case bufidx =>
    rintro rfl
    exact exec_wr_bufidx data hf

/-- The data of a write are no opcode where the low byte is 6 or more, or a bit above it is set (R93). -/
theorem five_lt_data {data : Word} (h : 6 ≤ (data.extractLsb' 0 8).toNat ∨ data.extractLsb' 8 56 ≠ 0#56) :
    5 < data.toNat := by
  rw [ne_eq, ← BitVec.toNat_inj] at h
  simp only [BitVec.extractLsb'_toNat, Nat.shiftRight_eq_div_pow, BitVec.toNat_zero] at h
  omega

/-- Settles O12. -/
theorem illegalCommand : Obligations.IllegalCommand :=
  fun _ _ hf h => exec_wr_cmd_of_illegal hf (five_lt_data h)

/-! LOADDEF (R353). -/

/-- A register that no row names keeps its cell. -/
theorem writeRows_getElem_of_unnamed {rows : List (Fin 26 × Word)} {k : Fin 26} (p : Vector ParamCell 26)
    (h : k ∉ rows.map Prod.fst) : (writeRows p rows)[k] = p[k] := by
  induction rows generalizing p with
  | nil => rfl
  | cons row rows ih =>
    obtain ⟨hne, hrest⟩ := not_or.mp (mt List.mem_cons.mpr h)
    exact (ih _ hrest).trans ((writeParam_getElem ..).trans (if_neg (Ne.symm hne)))

/-- A register that one row names holds the row's pattern. -/
theorem writeRows_getElem_of_row {rows : List (Fin 26 × Word)} {k : Fin 26} {w : Word} (p : Vector ParamCell 26)
    (hnodup : (rows.map Prod.fst).Nodup) (h : (k, w) ∈ rows) : (writeRows p rows)[k] = .written w := by
  induction rows generalizing p with
  | nil => cases h
  | cons row rows ih =>
    obtain ⟨hnew, hnodup⟩ := List.nodup_cons.mp hnodup
    rcases List.mem_cons.mp h with rfl | h
    · exact (writeRows_getElem_of_unnamed _ hnew).trans ((writeParam_getElem ..).trans (if_pos rfl))
    · exact ih _ hnodup h

theorem loadDefaults_getElem {k : Fin 26} {w : Word} (s : State) (h : (k, w) ∈ defaultRows) :
    (loadDefaults s).p[k] = .written w :=
  writeRows_getElem_of_row s.p (by decide) h

/-- Settles O15. -/
theorem loaddefTable : Obligations.LoaddefTable := by
  refine ⟨rfl, fun s hf => ⟨_, exec_loaddef_eq hf, rfl, fun k hk => ?zero, loadDefaults_getElem s (by decide),
    loadDefaults_getElem s (by decide), loadDefaults_getElem s (by decide), loadDefaults_getElem s (by decide),
    fun k hk => ?kept⟩⟩
  case zero =>
    refine loadDefaults_getElem s ?_
    revert k; decide
  case kept =>
    refine writeRows_getElem_of_unnamed s.p ?_
    revert k; decide

end Sys2Proof.Proofs
end

section
/-! PROOFS. Reads at the host port: the word each register gives and which reads fault, with a fault latched and with none (R360, R361). -/

namespace Sys2Proof.Proofs

open Machine Safety Laws

/-! What a read gives, by address (R25, R360): the word, and whether the read raises a fault. -/

/-- What the register at an address gives. -/
def readAt (s : State) (addr : RegAddr) : Word × Bool := readValue s (hostReg addr)

/-- A read answers the register's word, and latches a fault where the register raises one; nothing else changes. -/
theorem exec_rd_readAt (s : State) (addr : RegAddr) :
    ∃ t, exec (.rd addr) s = .next t ∧
      t = { s with answer := some (readAt s addr).1, freeReads := t.freeReads, flt := t.flt } ∧
      ((readAt s addr).2 = false → t.flt = s.flt) ∧
      ((readAt s addr).2 = true → t.flt = some ⟨.badRegisterAccess, s.sp, addr⟩) := by
  cases hr : (readAt s addr).2 with
  | false => exact ⟨_, exec_rd_of_value rfl (Prod.ext rfl hr), rfl, fun _ => rfl, nofun⟩
  | true => exact ⟨_, exec_rd_of_raise rfl (Prod.ext rfl hr), rfl, nofun, fun _ => rfl⟩

theorem readAt_of_faulted {s : State} (addr : RegAddr) (h : s.flt ≠ none) : (readAt s addr).2 = false :=
  Bool.eq_false_iff.mpr fun hr => h (readValue_raises hr)

section
variable (s : State)

theorem readAt_param_raises {addr : RegAddr} {k : Fin 26} (h : addr.toNat = k.val) : (readAt s addr).2 = false := by
  rw [readAt, hostReg_of_param h, readValue]
  split <;> rfl

theorem readAt_param {addr : RegAddr} {k : Fin 26} {v : Word} (h : addr.toNat = k.val) (hv : s.p[k] = .written v) :
    readAt s addr = (v, false) := by
  rw [readAt, hostReg_of_param h, readValue, hv]

theorem readAt_cmd : readAt s 0x20 = (0, false) := rfl
theorem readAt_status : readAt s 0x21 = (statusWord s, false) := rfl
theorem readAt_cause : readAt s 0x22 = (causeWord s, false) := rfl
theorem readAt_stage : readAt s 0x23 = (stageWord s, false) := rfl
theorem readAt_buflen : readAt s 0x24 = (bufLenWord s, false) := rfl
theorem readAt_bufkind : readAt s 0x25 = (bufKindWord s, false) := rfl
theorem readAt_bufidx : readAt s 0x26 = (s.bufIdx, false) := rfl

theorem readAt_unmapped {addr : RegAddr} (h : unmappedAddr addr) : readAt s addr = (0, s.flt.isNone) := by
  rw [readAt, hostReg_of_unmapped h, readValue]

theorem readAt_bufdata_of_faulted (h : s.flt ≠ none) : readAt s 0x27 = (0, false) :=
  if_pos (Option.isSome_iff_ne_none.mpr h)

variable {s}

theorem readAt_bufdata_of_some {v : Word} (hf : s.flt = none)
    (h : bufWindow s.buf s.ps.sampleSize s.bufIdx.toNat = some v) : readAt s 0x27 = (v, false) := by
  rw [readAt, hostReg_bufdata, readValue, hf, h]; rfl

theorem readAt_bufdata_of_none (hf : s.flt = none) (h : bufWindow s.buf s.ps.sampleSize s.bufIdx.toNat = none) :
    readAt s 0x27 = (0, true) := by
  rw [readAt, hostReg_bufdata, readValue, hf, h]; rfl

end

/-! The words of the read-only registers, as numbers and fields (R25, R26, R410). -/

theorem stageWord_toNat (s : State) : (stageWord s).toNat = s.sp.toNat := by
  rw [stageWord, BitVec.toNat_setWidth_of_le (by decide)]

theorem statusWord_of_faulted {s : State} (h : s.flt ≠ none) : statusWord s = 4 := by
  rw [statusWord_eq, Option.isSome_iff_ne_none.mpr h]; rfl

theorem statusWord_toNat_of_no_fault {s : State} (h : s.flt = none) :
    (statusWord s).toNat =
      (if 1 ≤ s.sp.toNat ∧ s.sp.toNat ≤ 11 then 1 else 0) + (if s.sp.toNat = 12 then 2 else 0) := by
  have table : ∀ sp : StageCode, (statusOf sp false).toNat =
      (if 1 ≤ sp.toNat ∧ sp.toNat ≤ 11 then 1 else 0) + (if sp.toNat = 12 then 2 else 0) := by
    decide
  rw [statusWord_eq, h]
  exact table s.sp

theorem causeWord_of_fault {s : State} {f : FaultRecord} (h : s.flt = some f) :
    causeWord s = (f.info ++ (f.stage.setWidth 8 : BitVec 8) ++ causeCode f.cause).setWidth 64 := by
  rw [causeWord, h]

/-- Three bytes in a word are its fields, the lowest the last (R25). -/
theorem three_bytes_fields (a b c : BitVec 8) :
    ((a ++ b ++ c).setWidth 64).extractLsb' 0 8 = c ∧ ((a ++ b ++ c).setWidth 64).extractLsb' 8 8 = b ∧
      ((a ++ b ++ c).setWidth 64).extractLsb' 16 8 = a ∧ ((a ++ b ++ c).setWidth 64).extractLsb' 24 40 = 0 := by
  have byte : ∀ {k : Nat}, k + 8 ≤ 64 →
      ((a ++ b ++ c).setWidth 64).extractLsb' k 8 = (a ++ b ++ c).extractLsb' k 8 := BitVec.extractLsb'_setWidth_of_le
  refine ⟨?low, ?middle, ?high, ?rest⟩
  case low => rw [byte (by decide), BitVec.extractLsb'_append_eq_right]
  case middle =>
    rw [byte (by decide), BitVec.extractLsb'_append_eq_of_le (by decide), BitVec.extractLsb'_append_eq_right]
  case high =>
    rw [byte (by decide), BitVec.extractLsb'_append_eq_of_le (by decide), BitVec.extractLsb'_append_eq_left]
  case rest =>
    ext i hi
    simp

/-- The codes of R400's table. -/
theorem causeTable_holds : causeTable := by
  unfold causeTable
  decide

/-- Settles O9, by the register at the address. -/
theorem readTable : Obligations.ReadTable := by
  intro s addr hf
  obtain ⟨t, hexec, hframe, hquiet, hraise⟩ := exec_rd_readAt s addr
  rw [hf] at hquiet
  have hword : ∀ {v : Word}, readAt s addr = (v, false) → t.flt = none ∧ (readAt s addr).1 = v :=
    fun h => ⟨hquiet (by rw [h]), by rw [h]⟩
  have hfault : readAt s addr = (0, true) →
      t.flt = some ⟨.badRegisterAccess, s.sp, addr⟩ ∧ (readAt s addr).1 = 0 :=
    fun h => ⟨hraise (by rw [h]), by rw [h]⟩
  refine ⟨t, (readAt s addr).1, hexec, hframe, fun k hk => ⟨hquiet (readAt_param_raises s hk), fun v hv =>
    (hword (readAt_param s hk hv)).2⟩, ?cmd, ?status, ?cause, ?stage, ?buflen, ?bufkind, ?bufidx, ?outside, ?element,
    ?unmapped⟩
  case cmd => rintro rfl; exact hword (readAt_cmd s)
  case status => rintro rfl; exact ⟨hquiet rfl, statusWord_toNat_of_no_fault hf⟩
  case cause => rintro rfl; exact ⟨hquiet rfl, causeWord_of_no_fault hf⟩
  case stage => rintro rfl; exact ⟨hquiet rfl, stageWord_toNat s⟩
  case buflen => rintro rfl; exact hword (readAt_buflen s)
  case bufkind =>
    rintro rfl
    refine ⟨hquiet rfl, ?_⟩
    rw [readAt_bufkind, bufKindWord]
    cases s.buf <;> rfl
  case bufidx => rintro rfl; exact hword (readAt_bufidx s)
  case outside => rintro rfl hout; exact hfault (readAt_bufdata_of_none hf hout)
  case element => rintro rfl v hv; exact hword (readAt_bufdata_of_some hf hv)
  case unmapped =>
    intro hun
    exact hfault (by rw [readAt_unmapped s hun, hf]; rfl)

/-- Settles O8. -/
theorem faultedBlock : Obligations.FaultedBlock := by
  refine ⟨causeTable_holds, fun s f hflt => ?_⟩
  have hf : s.flt ≠ none := by simp [hflt]
  have hsome : s.flt.isSome = true := Option.isSome_iff_ne_none.mpr hf
  refine ⟨fun addr data hne => ?write, ?reset, fun i hi => ?command, fun addr => ?read⟩
  case write => exact (if_pos hsome).trans (if_neg hne)
  case reset => exact (if_pos hsome).trans (if_pos ⟨rfl, rfl⟩)
  case command =>
    rcases List.mem_append.mp hi with hi | hi
    · simp only [List.mem_cons, List.not_mem_nil, or_false] at hi
      rcases hi with rfl | rfl | rfl | rfl | rfl
      · rfl
      all_goals exact if_pos hsome
    · obtain ⟨g, rfl⟩ := (mem_stageOps_iff i).mp hi
      exact exec_stage_of_faulted g s hf
  case read =>
    obtain ⟨t, hexec, hframe, hquiet, -⟩ := exec_rd_readAt s addr
    rw [hquiet (readAt_of_faulted addr hf)] at hframe
    refine ⟨t, (readAt s addr).1, hexec, hframe, fun k v hk hv => by rw [readAt_param s hk hv], ?cmd, ?status, ?cause,
      ?stage, ?buflen, ?bufkind, ?bufidx, ?nothing⟩
    case cmd => rintro rfl; rw [readAt_cmd]
    case status => rintro rfl; exact statusWord_of_faulted hf
    case cause =>
      rintro rfl
      rw [readAt_cause, causeWord_of_fault hflt]
      exact three_bytes_fields ..
    case stage => rintro rfl; exact stageWord_toNat s
    case buflen => rintro rfl; rw [readAt_buflen, bufLenWord]
    case bufkind => rintro rfl; rw [readAt_bufkind, bufKindWord]
    case bufidx => rintro rfl; rw [readAt_bufidx]
    case nothing =>
      rintro (rfl | hun)
      · rw [readAt_bufdata_of_faulted s hf]
      · rw [readAt_unmapped s hun]

end Sys2Proof.Proofs
end

section
/-! PROOFS. ARM, its checks in the order of R401 and its latch (R354); STEP and RUN with nothing to execute (R409). -/

namespace Sys2Proof.Proofs

open Machine Safety Laws

/-! The checks, each where the ones before it pass (R401). -/

theorem armCheck_of_unwritten {p : Vector ParamCell 26} {k : Fin 26} (hk : p[k] = .unwritten)
    (hbefore : ∀ j : Fin 26, j < k → p[j] ≠ .unwritten) :
    armCheck p = .error (.paramUnwritten, BitVec.ofNat 8 k.val) := by
  have hcell : ∀ j : Fin 26, cellUnwritten (cellAt p j.val) = true ↔ p[j] = .unwritten := by
    intro j
    rw [cellAt_val]
    cases p[j] <;> simp [cellUnwritten]
  have hfirst : (List.range 26).find? (fun a => cellUnwritten (cellAt p a)) = some k.val := by
    refine List.find?_range_eq_some.mpr ⟨(hcell k).mpr hk, List.mem_range.mpr k.isLt, fun j hj => ?_⟩
    have hj26 : j < 26 := hj.trans k.isLt
    rw [Bool.eq_false_iff.mpr (mt (hcell ⟨j, hj26⟩).mp (hbefore ⟨j, hj26⟩ hj))]; rfl
  rw [armCheck, hfirst]

section
variable {p : Vector ParamCell 26} {w : Fin 26 → Word} (hw : ∀ k : Fin 26, p[k] = .written (w k))
include hw

theorem cellAt_of_written (k : Fin 26) : cellAt p k.val = .written (w k) :=
  (cellAt_val p k).trans (hw k)

theorem find?_unwritten_eq_none : (List.range 26).find? (fun a => cellUnwritten (cellAt p a)) = none :=
  List.find?_range_eq_none.mpr fun j hj => by rw [cellAt_of_written hw ⟨j, hj⟩]; rfl

theorem armCheck_of_nonfinite {k : Fin 26} (hk23 : k.val < 23) (hk : isFinite (w k) = false)
    (hbefore : ∀ j : Fin 26, j < k → isFinite (w j) = true) :
    armCheck p = .error (.nonFiniteParam, BitVec.ofNat 8 k.val) := by
  have hcell : ∀ j : Fin 26, isFinite (cellWord (cellAt p j.val)) = isFinite (w j) := by
    intro j
    rw [cellAt_of_written hw, cellWord]
  have hfirst : (List.range 23).find? (fun a => !isFinite (cellWord (cellAt p a))) = some k.val := by
    refine List.find?_range_eq_some.mpr ⟨by rw [hcell k, hk]; rfl, List.mem_range.mpr hk23, fun j hj => ?_⟩
    rw [hcell ⟨j, hj.trans k.isLt⟩, hbefore ⟨j, hj.trans k.isLt⟩ hj]; rfl
  rw [armCheck, find?_unwritten_eq_none hw, hfirst]

/-- With every register written and the real ones finite, the rate and the size are left to check. -/
theorem armCheck_of_finite (hfin : ∀ k : Fin 26, k.val < 23 → isFinite (w k) = true) :
    armCheck p =
      if (w 0x18).toNat = 0 ∨ 44100 < (w 0x18).toNat then .error (.badSampleRate, 0x18)
      else if (w 0x19).toNat ≠ 8 ∧ (w 0x19).toNat ≠ 16 then .error (.badSampleSize, 0x19)
      else .ok () := by
  have hnone : (List.range 23).find? (fun a => !isFinite (cellWord (cellAt p a))) = none := by
    refine List.find?_range_eq_none.mpr fun j hj => ?_
    have hj26 : j < 26 := by omega
    rw [cellAt_of_written hw ⟨j, hj26⟩, cellWord, hfin ⟨j, hj26⟩ hj]; rfl
  have hrate : cellAt p 0x18 = .written (w 0x18) := cellAt_of_written hw 0x18
  have hsize : cellAt p 0x19 = .written (w 0x19) := cellAt_of_written hw 0x19
  rw [armCheck, find?_unwritten_eq_none hw, hnone]
  simp only [hrate, hsize, cellWord]

/-- Every field is latched from its register (R354). -/
theorem latch_of_written :
    latch p =
      { envAttack := w 0x00, envSustain := w 0x01, envDecay := w 0x02, envPunch := w 0x03,
        baseFreq := w 0x04, freqLimit := w 0x05, freqRamp := w 0x06, freqDramp := w 0x07,
        vibStrength := w 0x08, vibSpeed := w 0x09, arpMod := w 0x0A, arpSpeed := w 0x0B,
        duty := w 0x0C, dutyRamp := w 0x0D, repeatSpeed := w 0x0E, phaOffset := w 0x0F,
        phaRamp := w 0x10, lpfFreq := w 0x11, lpfRamp := w 0x12, lpfResonance := w 0x13,
        hpfFreq := w 0x14, hpfRamp := w 0x15, soundVol := w 0x16, waveType := (w 0x17).toNat,
        sampleRate := (w 0x18).toNat, sampleSize := (w 0x19).toNat } := by
  obtain rfl : (fun k : Fin 26 => cellWord (cellAt p k.val)) = w :=
    funext fun k => by rw [cellAt_of_written hw, cellWord]
  rfl

end

/-! ARM. -/

section
variable {s : State} (hf : s.flt = none)
include hf

theorem exec_arm_of_error {c : Cause} {info : InfoByte} (h : armCheck s.p = .error (c, info)) :
    exec .arm s = .next (faulted s c info) := by
  rw [exec_arm_eq hf, armBlock, h]; rfl

theorem exec_arm_of_ok (h : armCheck s.p = .ok ()) :
    exec .arm s = .next { s with ps := latch s.p, buf := .none, sp := 1 } := by
  rw [exec_arm_eq hf, armBlock, h]

end

/-- Settles O16. -/
theorem armCommand : Obligations.ArmCommand := by
  refine ⟨rfl, fun s hf => ⟨fun k hk hbefore => exec_arm_of_error hf (armCheck_of_unwritten hk hbefore), fun w hw =>
    ⟨fun k hk23 hk hbefore => exec_arm_of_error hf (armCheck_of_nonfinite hw hk23 hk hbefore), fun hfin => ?_⟩⟩⟩
  have hcheck := armCheck_of_finite hw hfin
  refine ⟨fun hrate => exec_arm_of_error hf (hcheck.trans (if_pos hrate)), fun hlo hhi => ?_⟩
  rw [if_neg (by omega)] at hcheck
  refine ⟨fun h8 h16 => exec_arm_of_error hf (hcheck.trans (if_pos ⟨h8, h16⟩)), fun hsize => ?_⟩
  rw [if_neg (by omega)] at hcheck
  refine ⟨_, exec_arm_of_ok hf hcheck, ?_, by rw [latch_of_written hw]⟩
  rw [statusWord_eq, hf]; rfl

/-- What ARM can raise: the causes of its checks (R401). -/
theorem armCheck_error_cause {p : Vector ParamCell 26} {c : Cause} {info : InfoByte} (h : armCheck p = .error (c, info)) :
    c ∈ [Cause.paramUnwritten, .nonFiniteParam, .badSampleRate, .badSampleSize] := by
  unfold armCheck at h
  split at h
  · cases h; decide
  split at h
  · cases h; decide
  split at h
  · cases h; decide
  split at h
  · cases h; decide
  · cases h

/-! STEP and RUN with nothing to execute (R409). -/

theorem exec_step_run_of_badSequence {s : State} (hf : s.flt = none) (h : s.sp.toNat = 0 ∨ s.sp.toNat = 12) :
    exec .step s = .next (faulted s .badSequence (s.sp.setWidth 8)) ∧
      exec .run s = .next (faulted s .badSequence (s.sp.setWidth 8)) := by
  have hb := (badSequence_iff s).mpr h
  rw [exec_step_eq hf, exec_run_eq hf]
  exact ⟨if_pos hb, if_pos hb⟩

/-- Settles O17: LOADDEF, NOP and RESET leave no fault, and ARM's are those of its checks. -/
theorem badSequence : Obligations.BadSequence := by
  refine ⟨fun s hf h => exec_step_run_of_badSequence hf h, fun s i hf hi => ?_⟩
  have hnone : ∀ {t : State}, t.flt = none → ∀ f, t.flt = some f → f.cause ≠ .badSequence := by
    intro t ht f hflt
    cases ht.symm.trans hflt
  simp only [List.mem_cons, List.not_mem_nil, or_false] at hi
  rcases hi with rfl | rfl | rfl | rfl
  case inl =>
    cases hc : armCheck s.p with
    | error e =>
      obtain ⟨c, info⟩ := e
      refine ⟨_, exec_arm_of_error hf hc, ?_⟩
      rintro _ ⟨⟩ (rfl : c = .badSequence)
      exact absurd (armCheck_error_cause hc) (by decide)
    | ok => exact ⟨_, exec_arm_of_ok hf hc, hnone hf⟩
  case inr.inl => exact ⟨_, rfl, hnone rfl⟩
  case inr.inr.inl => exact ⟨_, exec_loaddef_eq hf, hnone ((loadDefaults_flt s).trans hf)⟩
  case inr.inr.inr => exact ⟨s, rfl, hnone hf⟩

end Sys2Proof.Proofs
end

section
/-! PROOFS. Faults and runs: what takes a fault and what clears one (R352, R410 to R412), and RUN as a number of STEPs (R357, R364). -/

namespace Sys2Proof.Proofs

open Machine Safety Laws

/-! Leaving the fault state (R352, R411, R412). -/

theorem path_of_faulted {s t : State} (hf : s.flt ≠ none) (h : Relation.ReflTransGen StageStep s t) : t = s := by
  rcases h.cases_head with rfl | ⟨_, ⟨_, hnone, _⟩, _⟩
  · rfl
  · exact absurd hnone hf

/-- Settles O49. -/
theorem onlyResetClearsFault : Obligations.OnlyResetClearsFault := by
  intro i s t hf h hne
  cases exec_effect h with
  | reset hr => exact ⟨hr, rfl⟩
  | fault _ _ hnone => exact absurd hnone hf
  | readFault _ _ _ _ hnone => exact absurd hnone hf
  | stageOp _ _ hnone => exact absurd hnone hf
  | loaddef => exact absurd (loadDefaults_flt s) hne
  | step _ _ hst =>
    obtain ⟨_, hnone, _⟩ := hst
    exact absurd hnone hf
  | run _ _ hst => exact absurd (congrArg State.flt (path_of_faulted hf hst)) hne
  | _ => exact absurd rfl hne

/-- Settles O14. -/
theorem resetCommand : Obligations.ResetCommand := by
  refine ⟨rfl, fun s => ⟨_, rfl, rfl, rfl, rfl, rfl, rfl, rfl, rfl, rfl, rfl, rfl, ?_, causeWord_of_no_fault rfl⟩,
    fun i s t hf h ht => ?_⟩
  · rw [statusWord_eq]; rfl
  · exact (onlyResetClearsFault i s t hf h fun hsame => hf (hsame.symm.trans ht)).1

/-! Taking a fault (R410). -/

/-- What a fault leaves as it was, and where it says it was taken. -/
structure Precise (s t : State) (f : FaultRecord) : Prop where
  stage : f.stage = s.sp
  p : t.p = s.p
  ps : t.ps = s.ps
  buf : t.buf = s.buf
  bufIdx : t.bufIdx = s.bufIdx
  sp : t.sp = s.sp
  entropyPos : t.entropyPos = s.entropyPos

theorem raiseFault_precise {s : State} {c : Cause} {info : InfoByte} {f : FaultRecord}
    (h : (raiseFault s c info).flt = some f) : Precise s (raiseFault s c info) f := by
  cases h
  exact ⟨rfl, rfl, rfl, rfl, rfl, rfl, rfl⟩

/-- A stage that ends in a fault commits nothing but the fault. -/
theorem commit_precise {s : State} {next : StageCode} {r : Except StageFault (Buf × Nat)} {f : FaultRecord}
    (hf : s.flt = none) (h : (commit s next r).flt = some f) : Precise s (commit s next r) f := by
  cases r with
  | error e => cases h; exact ⟨rfl, rfl, rfl, rfl, rfl, rfl, rfl⟩
  | ok r => cases hf.symm.trans h

/-- Every instruction but RUN, which is several stages, takes its fault precisely. -/
theorem exec_precise {i : Instr} {s t : State} {f : FaultRecord} (hi : ¬ isCommand i .run 5) (hf : s.flt = none)
    (h : exec i s = .next t) (ht : t.flt = some f) : Precise s t f := by
  cases exec_effect h with
  | fault => exact raiseFault_precise ht
  | readFault => cases ht; exact ⟨rfl, rfl, rfl, rfl, rfl, rfl, rfl⟩
  | step _ _ hst =>
    obtain ⟨g, _, _, rfl⟩ := hst
    exact commit_precise hf ht
  | stageOp => exact commit_precise hf ht
  | run _ hr => exact absurd hr hi
  | reset => cases ht
  | loaddef => cases hf.symm.trans ((loadDefaults_flt s).symm.trans ht)
  | _ => cases hf.symm.trans ht

/-! RUN as STEPs (R357, R364). -/

theorem exec_step_of_stageStep {s t : State} (h : StageStep s t) : exec .step s = .next t := by
  have ⟨g, hf, hsp, ht⟩ := h
  rw [exec_step_at hf hsp, exec_stage g s hf, ht]

theorem steps_succ {s t : State} (k : Nat) (h : exec .step s = .next t) : steps (k + 1) s = steps k t := by
  rw [steps, h]

/-- The last of several STEPs. -/
theorem steps_snoc {k : Nat} {s u t : State} (h : steps k s = .next u) (hst : exec .step u = .next t) :
    steps (k + 1) s = .next t := by
  induction k generalizing s with
  | zero => cases h; exact steps_succ 0 hst
  | succ k ih =>
    rw [steps] at h
    split at h
    · rename_i v hv
      rw [steps_succ _ hv]
      exact ih h
    · cases h
    · cases h

/-- A stage that completes moves `SP` up by one (R28). -/
theorem StageStep.sp_of_completed {s t : State} (h : StageStep s t) (ht : t.flt = none) :
    t.sp.toNat = s.sp.toNat + 1 := by
  obtain ⟨g, b, pos, hsp, -, rfl⟩ := stageStep_completed h ht
  rw [commit_ok_sp, g.code_succ, hsp]

/-- A run that goes on for `k` stages and ends in the step from `u` to `t`: complete at `SP` 12 or faulted. -/
structure RunEnds (s u t : State) (k : Nat) : Prop where
  before : steps k s = .next u
  last : StageStep u t
  ends : (t.sp = 12 ∧ t.flt = none) ∨ t.flt.isSome = true

theorem runStages_of_ended {t : State} (k : Nat) (h : (t.sp = 12 ∧ t.flt = none) ∨ t.flt.isSome = true) :
    runStages k t = .next t := by
  have hidle : ¬ flagArmed t = true := by
    rw [flagArmed_iff]
    rintro ⟨-, hle, hnone⟩
    rcases h with ⟨hsp, -⟩ | hflt
    · rw [hsp] at hle; exact absurd hle (by decide)
    · rw [hnone] at hflt; cases hflt
  cases k with
  | zero => rfl
  | succ k => rw [runStages, if_neg hidle]

/-- Given as many rounds as there are stages left, the sequencer's loop is STEPs up to the end of the run. -/
theorem runStages_ends {s : State} {n : Nat} (hf : s.flt = none) (h1 : 1 ≤ s.sp.toNat) (h2 : s.sp.toNat ≤ 11)
    (hn : 12 ≤ s.sp.toNat + n) :
    ∃ (k : Nat) (u t : State), k < 12 - s.sp.toNat ∧ runStages n s = .next t ∧ RunEnds s u t k := by
  induction n generalizing s with
  | zero => omega
  | succ n ih =>
    obtain ⟨v, hst⟩ := exists_stageStep hf h1 h2
    rw [runStages_succ n hst]
    by_cases hend : (v.sp = 12 ∧ v.flt = none) ∨ v.flt.isSome = true
    · exact ⟨0, s, v, by omega, runStages_of_ended n hend, rfl, hst, hend⟩
    · obtain ⟨hgoes, hnone⟩ := not_or.mp hend
      have hv : v.flt = none := Option.not_isSome_iff_eq_none.mp hnone
      have hsp := hst.sp_of_completed hv
      have h12 : v.sp.toNat ≠ 12 := fun h12 => hgoes ⟨BitVec.eq_of_toNat_eq h12, hv⟩
      obtain ⟨k, u, t, hk, hrun, hends⟩ := ih hv (by omega) (by omega) (by omega)
      refine ⟨k + 1, u, t, by omega, hrun, ?_, hends.last, hends.ends⟩
      rw [steps_succ k (exec_step_of_stageStep hst)]
      exact hends.before

/-- RUN, armed, is the sequencer's loop (R357). -/
theorem exec_run_armed {s : State} (hf : s.flt = none) (h1 : 1 ≤ s.sp.toNat) (h2 : s.sp.toNat ≤ 11) :
    exec .run s = runStages 11 s := by
  rw [exec_run_eq hf]
  refine if_neg ?_
  rw [badSequence_iff]
  omega

theorem exec_run_ends {s : State} (hf : s.flt = none) (h1 : 1 ≤ s.sp.toNat) (h2 : s.sp.toNat ≤ 11) :
    ∃ (k : Nat) (u t : State), k < 12 - s.sp.toNat ∧ exec .run s = .next t ∧ RunEnds s u t k := by
  rw [exec_run_armed hf h1 h2]
  exact runStages_ends hf h1 h2 (by omega)

/-- Settles O21. -/
theorem runIsSteps : Obligations.RunIsSteps := by
  refine ⟨rfl, fun s hf h1 h2 => ?_⟩
  obtain ⟨k, u, t, hk, hrun, hends⟩ := exec_run_ends hf h1 h2
  exact ⟨k + 1, t, by omega, hk, hrun, steps_snoc hends.before (exec_step_of_stageStep hends.last), hends.ends⟩

theorem path_frame {s t : State} (h : Relation.ReflTransGen StageStep s t) : StageFrame s t := by
  induction h with
  | refl => exact ⟨rfl, rfl, rfl, rfl, rfl, rfl, rfl⟩
  | tail _ hst ih =>
    obtain ⟨g, _, _, rfl⟩ := hst
    exact StageFrame.trans ih (commit_frame ..)

/-- A stage that has what its rule needs takes no fault. -/
theorem StageStep.flt_of_ready {s t : State} (h : StageStep s t) (hready : stageReady s = true) : t.flt = none := by
  obtain ⟨g, hf, hsp, rfl⟩ := h
  obtain ⟨b, pos, hr⟩ := Stage.exists_result hsp.symm hready
  rw [hr]
  exact hf

/-- Settles O22: the run's last stage was ready, so it did not end in a fault. -/
theorem runCompletes : Obligations.RunCompletes := by
  intro s hf h1 h2 hready
  obtain ⟨k, u, t, hk, hrun, hends⟩ := exec_run_ends hf h1 h2
  have ht : t.flt = none := hends.last.flt_of_ready (hready k u hk hends.before)
  obtain ⟨hsp, -⟩ := hends.ends.resolve_right (by simp [ht])
  have hpath : Relation.ReflTransGen StageStep s t := runStages_path 11 ((exec_run_armed hf h1 h2).symm.trans hrun)
  refine ⟨t, hrun, hsp, ht, ?_, path_frame hpath, fun hwave => ?_⟩
  · rw [statusWord_eq, hsp, ht]; rfl
  · by_contra hne
    exact hwave (path_entropyPos hpath hne).1

/-- A RUN that faults: the stages before the last completed, and the last is a STEP's (R410). -/
theorem exec_run_faulted {s t : State} (hf : s.flt = none) (h : exec .run s = .next t) (ht : t.flt.isSome = true) :
    ∃ (k : Nat) (u : State), steps k s = .next u ∧ u.flt = none ∧ exec .step u = .next t := by
  by_cases hb : s.sp.toNat = 0 ∨ s.sp.toNat = 12
  · obtain ⟨hstep, hrun⟩ := exec_step_run_of_badSequence hf hb
    exact ⟨0, s, rfl, hf, (hstep.trans hrun.symm).trans h⟩
  by_cases hle : s.sp.toNat ≤ 11
  · obtain ⟨k, u, t', -, hrun, hends⟩ := exec_run_ends hf (by omega) hle
    cases hrun.symm.trans h
    have ⟨_, hu, _⟩ := hends.last
    exact ⟨k, u, hends.before, hu, exec_step_of_stageStep hends.last⟩
  · have hidle : ¬ flagArmed s = true := by rw [flagArmed_iff]; omega
    rw [exec_run_eq hf, runCommand, if_neg (by rwa [badSequence_iff]), runStages, if_neg hidle] at h
    cases h
    rw [hf] at ht
    cases ht

/-- Settles O24. -/
theorem faultsPrecise : Obligations.FaultsPrecise := by
  refine ⟨causeTable_holds, fun i s t f hi hf h ht => ?_, fun s t => exec_run_faulted⟩
  obtain ⟨hstage, hp, hps, hbuf, hidx, hsp, hpos⟩ := exec_precise hi hf h ht
  exact ⟨hstage, hp, hps, hbuf, hidx, hsp, hpos, statusWord_of_faulted (by simp [ht]), causeWord_of_fault ht⟩

end Sys2Proof.Proofs
end

section
/-! PROOFS. ENV: where it faults, and each element of the result as the signal's element times the envelope at its index (R320 to R322). -/

namespace Sys2Proof.Proofs

open Machine Safety Laws

theorem phaseLen_error {rate : Nat} {p : F64} {e : StageFault} (h : phaseLen rate p = .error e) :
    e = (.badFloatToInt, 0) := by
  cases hfloor : floorI (phaseArg rate p) with
  | none => exact (Except.error.inj ((phaseLen_of_none hfloor).symm.trans h)).symm
  | some n => cases ((phaseLen_eq_ok_iff ..).mpr hfloor).symm.trans h

/-- The first undefined length faults, whichever it is (R320, R406). -/
theorem envStage_of_no_lengths {ps : ParamSet} (c : Config.Choices) (nan : Nat → F64) (buf : Buf)
    (h : phaseLens ps.sampleRate ps = none) : envStage c nan ps buf = .error (.badFloatToInt, 0) := by
  unfold envStage
  split
  · exact congrArg Except.error (phaseLen_error ‹_›)
  rename_i la ha
  split
  · exact congrArg Except.error (phaseLen_error ‹_›)
  rename_i ls hs
  split
  · exact congrArg Except.error (phaseLen_error ‹_›)
  rename_i ld hd
  cases h.symm.trans ((phaseLens_eq_some_iff ..).mpr ⟨ha, hs, hd⟩)

/-- A signal longer than the three lengths faults (R322). -/
theorem envStage_of_overrun {ps : ParamSet} {la ls ld : Int} {buf : Buf} (c : Config.Choices) (nan : Nat → F64)
    (h : phaseLens ps.sampleRate ps = some (la, ls, ld)) (hlong : la + ls + ld < ((realElems buf).length : Int)) :
    envStage c nan ps buf = .error (.envelopeOverrun, 0) := by
  obtain ⟨ha, hs, hd⟩ := (phaseLens_eq_some_iff ..).mp h
  simp only [envStage, ha, hs, hd, if_pos hlong]

/-- Each element is multiplied by the envelope at its own index (R321). -/
theorem getElem?_envRun (punch gain : F64) (la ls ld : Int) (start i : Nat) (l : List F64) :
    (envRun punch gain la ls ld start l)[i]? =
      l[i]?.map fun x => fmul x (envValue punch gain la ls ld ((start + i : Nat) : Int)) := by
  induction l generalizing start i with
  | nil => rfl
  | cons x xs ih =>
    cases i with
    | zero => rfl
    | succ i =>
      rw [envRun, List.getElem?_cons_succ, List.getElem?_cons_succ, ← Nat.cast_succ, ih, Nat.succ_add_eq_add_succ]

theorem exec_env_faults {s : State} {c : Cause} {info : InfoByte} (hf : s.flt = none)
    (h : envStage Config.choices (freeNaN s) s.ps s.buf = .error (c, info)) :
    ∃ t, exec .env s = .next t ∧ Faults s t c info :=
  exec_stage_faults (g := .env) hf (by rw [Stage.result, h]; rfl)

/-- Settles O43. -/
theorem envShape : Obligations.EnvShape := by
  refine ⟨rfl, fun s l hf hbuf => ⟨fun hnone => exec_env_faults hf (envStage_of_no_lengths _ _ _ hnone),
    fun la ls ld hlens => ⟨fun hlong => exec_env_faults hf (envStage_of_overrun _ _ hlens (by rwa [hbuf])),
      fun hfit => ?_⟩⟩⟩
  have hresult : Stage.env.result s = .ok (.signal (storeFrom (freeNaN s) 0
      (envRun s.ps.envPunch (envGain Config.choices s.ps) la ls ld 0 l)), s.entropyPos) := by
    rw [Stage.result, (envStage_eq_ok_iff ..).mpr ⟨la, ls, ld, hlens, by rwa [hbuf], rfl⟩, hbuf]; rfl
  obtain ⟨hexec, hcompletes⟩ := exec_stage_completes hf hresult
  refine ⟨_, _, hexec, hcompletes, rfl, (storeFrom_length ..).trans (envRun_length ..), fun i x hx => ?_⟩
  have helem := getElem?_envRun s.ps.envPunch (envGain Config.choices s.ps) la ls ld 0 i l
  rw [hx, Nat.zero_add] at helem
  rw [storeFrom_stored]
  exact congrArg (Option.map (stored s i)) helem

end Sys2Proof.Proofs
end
